-- ==== Sys2Proof/Word.lean ====
section
/-! DEFINITION. The word types of the block and its plainest constants (00_scope.md R10, R11). -/

namespace Sys2Proof

/-- A 32-bit word: a register or table word on the bus, a command word, a token word (R11, R63). -/
abbrev Word := BitVec 32

/-- A byte, identified with its value 0..255; also a symbol of the Huffman alphabet (R10, R20). -/
abbrev Byte := BitVec 8

/-- An address of the one 32-bit byte-addressed bus space (R60). -/
abbrev Addr := BitVec 32

/-- A node index, 0..510, or `noNode` (R32, R38). -/
abbrev NodeIx := BitVec 9

/-- NONE = 0x1FF: no child, no root (00_scope.md glossary, R32). -/
abbrev noNode : NodeIx := 0x1FF

/-- A bit string, index 0 (the first bit) at the head (R13); `false` is 0 and `true` is 1. -/
abbrev Bits := List Bool

end Sys2Proof
end

