-- ==== Sys2Proof/Syntax.lean ====
section
/-! DEFINITION. The commands of the block, the host's operations, the tokens and the tree nodes, as data. -/

namespace Sys2Proof

/-- The ten commands, one constructor per row of spec/opcode_table.json (30_encoding.md R91).
A command word carries no operand field (R92), so no constructor has an argument. -/
inductive Instr where
  /-- NOP, no operation (R180). -/
  | nop
  /-- RST, soft reset (R181). -/
  | rst
  /-- HCLR, Huffman clear (R111). -/
  | hclr
  /-- HCNT, count frequencies (R112). -/
  | hcnt
  /-- HBLD, build the tree (R114). -/
  | hbld
  /-- HASN, assign the codes (R121). -/
  | hasn
  /-- HPCK, pack the coded stream (R123). -/
  | hpck
  /-- HENC, whole encode (R130). -/
  | henc
  /-- LCLR, LZ clear (R151). -/
  | lclr
  /-- LCMP, whole compress (R152). -/
  | lcmp
  deriving DecidableEq, Repr

/-- What can reach the block from outside, one event a step: the bus operations of 20_memory.md R61 with the two widths
the bus has, in the names of the script notation (30_encoding.md R96), and the assertion of the hardware reset
(70_reset_and_hazards.md R240). -/
inductive HostOp where
  /-- MemRead(a, 1). -/
  | rd1 (a : Addr)
  /-- MemRead(a, 4). -/
  | rd4 (a : Addr)
  /-- MemWrite(a, 1, v). -/
  | wr1 (a : Addr) (v : Byte)
  /-- MemWrite(a, 4, v). -/
  | wr4 (a : Addr) (v : Word)
  /-- The hardware reset is asserted. -/
  | hwReset
  deriving DecidableEq, Repr

/-- A token of the LZ unit (10_state.md R48). Offset and length are natural numbers: the reference decompressor puts no
upper bound on either (43_reference_inverse.md R194); the bounds of `LCMP`'s own tokens are `Token.wf`. -/
inductive Token where
  /-- Lit(b): one input byte. -/
  | lit (b : Byte)
  /-- Match(offset, length): `length` bytes equal to those `offset` positions back. -/
  | backRef (offset length : Nat)
  deriving DecidableEq, Repr

/-- One entry of the NODE table (10_state.md R38). -/
structure NodeEntry where
  leaf  : Bool
  sym   : Byte
  freq  : BitVec 40
  left  : NodeIx
  right : NodeIx
  deriving DecidableEq, Repr, Inhabited

/-- The Huffman metadata as a value (10_state.md R47). -/
inductive Meta where
  /-- The empty metadata of an empty input. -/
  | empty
  /-- Frequency table, padding bit count and original length. -/
  | triple (freq : Vector Word 256) (padding : BitVec 3) (origSize : Word)
  deriving DecidableEq, Repr

end Sys2Proof
end

