-- ==== Sys2Proof/Config.lean ====
section
/-! DEFINITION. The implementation parameters (00_scope.md R8) and the free values of what the spec leaves unspecified
(93_implementation_defined.md U4). -/

namespace Sys2Proof.Config

/-- N_MAX, the greatest input length and the size of IN, at its default 2^20 (R8, U10).
DESIGN CHOICE (log 2): the model fixes the parameter at the default, as R8 allows. -/
def nMax : Nat := 1048576

/-- CODED_CAP = ceil(255 * N_MAX / 8), the size of CODED in bytes (R8, R9). -/
def codedCap : Nat := (255 * nMax + 7) / 8

/-- TOKEN_CAP = N_MAX, the size of TOKEN in words (R8, R9). -/
def tokenCap : Nat := nMax

/-- CODE_MAX, the greatest code length in bits (R8, R12(e)). -/
def codeMax : Nat := 255

/-- NODE_MAX, the number of entries of NODE: 256 leaves and 255 internal nodes (R8). -/
def nodeMax : Nat := 511

/-- MIN_MATCH, the least length of a match and the length of the dictionary key (R8). -/
def minMatch : Nat := 3

/-- PRUNE_INTERVAL at its default (R8, U11). DESIGN CHOICE (log 3): fixed in the command; the functions below the
command take it as an argument. -/
def pruneInterval : Nat := 1000

/-- W_DEFAULT, the reset value of L_WIN (R8, R27). -/
def wDefault : BitVec 16 := 32768

/-- L_DEFAULT, the reset value of L_LOOK (R8, R28). -/
def lDefault : BitVec 9 := 258

/-- FREE VALUE (log 4): what NODE[k] holds after hardware reset number `epoch` until it is written (R46, R76, U4). -/
opaque freeNode (epoch k : Nat) : NodeEntry

/-- FREE VALUE (log 4): what IN[k] holds after hardware reset number `epoch` until it is written (R46, R76, U4). -/
opaque freeInput (epoch k : Nat) : Byte

/-- FREE VALUE (log 4): what CODED[k] holds after hardware reset number `epoch` until it is written (R46, R76, U4). -/
opaque freeCoded (epoch k : Nat) : Byte

/-- FREE VALUE (log 4): what TOKEN[k] holds after hardware reset number `epoch` until it is written (R46, R76, U4). -/
opaque freeToken (epoch k : Nat) : Word

end Sys2Proof.Config
end

