-- ==== Sys2Proof/WellFormed.lean ====
section
/-! DEFINITION. Well-formedness of the syntax: what the spec says of a legal term that its type does not say. -/

namespace Sys2Proof

/-- Every command is well formed: it has no operand to be wrong (30_encoding.md R92). One arm per constructor, so that a
new command could not slip past. -/
def Instr.wf : Instr → Bool
  | .nop => true
  | .rst => true
  | .hclr => true
  | .hcnt => true
  | .hbld => true
  | .hasn => true
  | .hpck => true
  | .henc => true
  | .lclr => true
  | .lcmp => true

/-- A token as `LCMP` writes it with window `w` and lookahead `l`: MIN_MATCH <= length <= l and 1 <= offset <= w
(10_state.md R48, 41_lz77_commands.md R163). -/
def Token.wf (w l : Nat) : Token → Bool
  | .lit _ => true
  | .backRef offset length => 1 ≤ offset && offset ≤ w && Config.minMatch ≤ length && length ≤ l

/-- A NODE entry as `HBLD` writes it: a leaf has no children, an internal node has symbol 0 (10_state.md R38). -/
def NodeEntry.wf (e : NodeEntry) : Bool :=
  if e.leaf then e.left = noNode && e.right = noNode else e.sym = 0

/-- Metadata with a padding count that the coded bytes can hold: there is padding only where there are coded bytes
(43_reference_inverse.md R191: the padding is at most the number of bits). -/
def Meta.fits (codedBytes : Nat) : Meta → Bool
  | .empty => true
  | .triple _ padding _ => padding.toNat ≤ 8 * codedBytes

end Sys2Proof
end

