-- ==== Sys2Proof/Decode.lean ====
section
/-! DEFINITION. The decoder of command words (30_encoding.md R90 to R94) and after it the encoder; the token word (R97). -/

namespace Sys2Proof

/-- Why a command word is illegal (R93). -/
inductive Reject where
  /-- Some bit of `v[31:8]` is 1. -/
  | reservedBits
  /-- `v[31:8]` is 0 and `v[7:0]` is none of the ten opcodes. -/
  | unassignedOpcode
  deriving DecidableEq, Repr

/-- What the decoder reads from a command word. -/
inductive Decoded where
  /-- A command. -/
  | instr (i : Instr)
  /-- An illegal word, and why. -/
  | reject (r : Reject)
  deriving DecidableEq, Repr

/-- The field `op`, bits 7:0 of a command word (R90). -/
def opField (v : Word) : Byte := v.extractLsb' 0 8

/-- The field `rsv`, bits 31:8 of a command word (R90). -/
def rsvField (v : Word) : BitVec 24 := v.extractLsb' 8 24

/-- The opcode map read as a decoder (R91). -/
def decodeOp (op : Byte) : Decoded :=
  match op.toNat with
  | 0x00 => .instr .nop
  | 0x01 => .instr .rst
  | 0x10 => .instr .hclr
  | 0x11 => .instr .hcnt
  | 0x12 => .instr .hbld
  | 0x13 => .instr .hasn
  | 0x14 => .instr .hpck
  | 0x15 => .instr .henc
  | 0x20 => .instr .lclr
  | 0x21 => .instr .lcmp
  | _ => .reject .unassignedOpcode

/-- The decoder, total on every 32-bit word (R90, R91, R93). -/
def decode (v : Word) : Decoded :=
  if rsvField v = 0 then decodeOp (opField v) else .reject .reservedBits

/-- The opcode of a command, in the table of R91. -/
def opcode : Instr → Byte
  | .nop => 0x00
  | .rst => 0x01
  | .hclr => 0x10
  | .hcnt => 0x11
  | .hbld => 0x12
  | .hasn => 0x13
  | .hpck => 0x14
  | .henc => 0x15
  | .lclr => 0x20
  | .lcmp => 0x21

/-- The command word: the opcode in bits 7:0 and zeros in bits 31:8 (R90). -/
def encode (i : Instr) : Word := (0 : BitVec 24) ++ opcode i

/-- The command that the model's decoder reads from a word of the opcode table's numbering. A command word is one 32-bit
value written whole to CMD (R90, R65: no byte order is observable), so bit b of `w` is bit b of the word. -/
def decodeTableWord (nbits w : Nat) : Option Instr :=
  if nbits ≤ 32 then
    match decode (BitVec.ofNat 32 (w % 2 ^ nbits)) with
    | .instr i => some i
    | .reject _ => none
  else none

/-- The word of a token (R97): `Lit(b)` is `zext_32(b)`, `Match(offset, length)` is `2^31 + length * 2^16 + offset`. -/
def encodeToken : Token → Word
  | .lit b => b.setWidth 32
  | .backRef offset length => BitVec.ofNat 32 (2 ^ 31 + length * 2 ^ 16 + offset)

/-- The token of a word that `LCMP` wrote (R97): bit 31 tells the kind; `t[7:0]` is the literal; `t[15:0]` and `t[24:16]`
are offset and length. -/
def decodeToken (t : Word) : Token :=
  if t.getLsbD 31 then .backRef (t.extractLsb' 0 16).toNat (t.extractLsb' 16 9).toNat
  else .lit (t.extractLsb' 0 8)

end Sys2Proof
end

