-- ==== Sys2Proof/Machine/State.lean ====
section
/-! DEFINITION. The state of the machine as plain data (spec/10_state.md), its reset value, and the reasons a step could
stop. -/

namespace Sys2Proof.Machine

/-- A memory or table whose contents reset leaves unspecified (R46): the entries written since the last hardware reset, as
(index, value) pairs in canonical form, indices strictly rising. An index not listed has not been written; what it reads
as is a free value (log 4, log 5), so no listed entry can equal it by rule. -/
abbrev Memory (α : Type) := List (Nat × α)

/-- The canonical form of a memory with `size` entries: indices strictly rising and inside the memory. -/
abbrev Memory.wf {α : Type} (size : Nat) (m : Memory α) : Prop :=
  m.Pairwise (fun x y => x.1 < y.1) ∧ ∀ x ∈ m, x.1 < size

/-- The result codes of a command (60_exceptions.md R211): `STATUS.ERR` takes one of these values and no other (log 7). -/
inductive ErrCode where
  /-- 0x00: no check failed. -/
  | ok
  /-- 0x01 E_OP: illegal command word. -/
  | op
  /-- 0x02 E_LEN: IN_LEN > N_MAX. -/
  | len
  /-- 0x03 E_SEQ: a stage was run before the stage it depends on. -/
  | seq
  /-- 0x04 E_NOCODE: an input byte has no code. -/
  | noCode
  deriving DecidableEq, Repr

/-- The fields of `STATUS` (R24). Its reserved bits read 0 and ignore writes (R68), so they hold nothing. -/
structure Status where
  /-- ERR, the result of the most recent command. -/
  err    : ErrCode
  /-- ESTK, the sticky error bit. -/
  estk   : Bool
  /-- TVAL, tree valid. -/
  tval   : Bool
  /-- CVAL, codes valid. -/
  cval   : Bool
  /-- PVAL, pack valid. -/
  pval   : Bool
  /-- MEMPTY, metadata empty. -/
  mempty : Bool
  /-- LVAL, token stream valid. -/
  lval   : Bool
  deriving DecidableEq, Repr

/-- The whole state of the block (R20): its registers (CMD holds no state, R23), its tables and its memories.
`resets` is the model's own field (log 4). -/
structure Block where
  /-- STATUS (R24). -/
  status : Status
  /-- EINFO (R25). -/
  einfo  : Word
  /-- IN_LEN (R26). -/
  inLen  : Word
  /-- L_WIN, bits 15:0 (R27). -/
  lWin   : BitVec 16
  /-- L_LOOK, bits 8:0 (R28). -/
  lLook  : BitVec 9
  /-- H_ORIG (R29). -/
  hOrig  : Word
  /-- H_PAD, bits 2:0 (R30). -/
  hPad   : BitVec 3
  /-- H_CLEN (R31). -/
  hClen  : Word
  /-- H_ROOT, bits 8:0 (R32). -/
  hRoot  : NodeIx
  /-- H_NNODE, bits 9:0 (R33). -/
  hNnode : BitVec 10
  /-- H_NSYM, bits 8:0 (R34). -/
  hNsym  : BitVec 9
  /-- L_NTOK (R35). -/
  lNtok  : Word
  /-- FREQ[0..255] (R36). -/
  freq   : Vector Word 256
  /-- CODE[0..255] (R37). -/
  code   : Vector Bits 256
  /-- NODE[0..510] (R38). -/
  node   : Memory NodeEntry
  /-- IN[0..N_MAX) (R39). -/
  input  : List Host.Cell
  /-- CODED[0..CODED_CAP) (R40). -/
  coded  : List Host.Cell
  /-- TOKEN[0..TOKEN_CAP) (R41). -/
  token  : Memory Word
  /-- The MODEL's own: how many hardware resets there were since power-on; it selects the free values of the four memories. -/
  resets : Nat
  deriving DecidableEq, Repr

/-- What a bus operation returns to the host (20_memory.md R61). -/
inductive Reply where
  /-- `ok` of a write. -/
  | ok
  /-- `ok(v)` of a 1-byte read. -/
  | byte (v : Byte)
  /-- `ok(v)` of a 4-byte read. -/
  | word (v : Word)
  /-- `buserror`. -/
  | busError
  deriving DecidableEq, Repr

/-- The machine: the block, the host events still to come (the next one first; log 1) and what the last bus operation
returned to the host (log 9). -/
structure State where
  blk   : Block
  host  : List HostOp
  reply : Option Reply
  deriving DecidableEq, Repr

/-- The reasons the machine stops with a fault: there is none. Every bus operation in every state has exactly one outcome
(R210, R219, 93 section 2); command errors and bus errors are next states. Nothing raises a fault, so there is nothing to
be safe or unsafe about (log 15). -/
inductive Fault where
  deriving DecidableEq, Repr

/-- The reasons a command has no meaning in the model. -/
inductive Refusal where
  /-- Raised by `exec` alone, for a command whose meaning is not written yet: no command is so now. Safe: the model stops. -/
  | notModelled (mnemonic : String)
  deriving DecidableEq, Repr

/-- STATUS after reset: every field 0 (R24, R46). -/
def Status.reset : Status :=
  { err := .ok, estk := false, tval := false, cval := false, pval := false, mempty := false, lval := false }

/-- The block after power-on: every register and table at the value of R46; nothing listed in NODE, IN, CODED, TOKEN,
whose contents are unspecified. -/
def Block.reset : Block :=
  { status := Status.reset, einfo := 0, inLen := 0, lWin := Config.wDefault, lLook := Config.lDefault
    hOrig := 0, hPad := 0, hClen := 0, hRoot := noNode, hNnode := 0, hNsym := 0, lNtok := 0
    freq := Vector.replicate 256 0, code := Vector.replicate 256 []
    node := [], input := [], coded := [], token := [], resets := 0 }

/-- The machine right after reset (R46, R240): the block at its reset values, no host operation yet, nothing returned yet. -/
def State.reset : State := { blk := Block.reset, host := [], reply := none }

end Sys2Proof.Machine
end

