-- ==== Sys2Proof/Machine/Ops.lean ====
section
/-! DEFINITION. The shared operations: memories, tables, the order of bits in words and bytes, the end of a command in
success or in error, and the two resets. -/

namespace Sys2Proof.Machine

/-! ## Memories -/

/-- The value written to index `k`, or none where nothing was written since the last hardware reset. -/
def Memory.lookup {α : Type} : Memory α → Nat → Option α
  | [], _ => none
  | (a, v) :: m, k => if k = a then some v else Memory.lookup m k

/-- `T[k] <- v` for a memory (R14), keeping the canonical form. -/
def Memory.write {α : Type} : Memory α → Nat → α → Memory α
  | [], k, v => [(k, v)]
  | (a, w) :: m, k, v =>
    if k < a then (k, v) :: (a, w) :: m
    else if k = a then (k, v) :: m
    else (a, w) :: Memory.write m k v

/-- `T[j] <- xs[j]` for every `j < |xs|`; the entries from `|xs|` on keep their contents (R40, R41, R76). -/
def Memory.writeFirst {α : Type} (m : Memory α) (xs : List α) : Memory α :=
  xs.zipIdx.map (fun p => (p.2, p.1)) ++ m.filter (fun c => xs.length ≤ c.1)

/-- NODE[k] (R38); an entry not written since the last hardware reset holds its free value (R76, log 4). -/
def Block.nodeAt (b : Block) (k : Nat) : NodeEntry := (b.node.lookup k).getD (Config.freeNode b.resets k)

/-- IN[k] (R39); a byte not written since the last hardware reset holds its free value (R76, log 4). -/
def Block.inputAt (b : Block) (k : Nat) : Byte := (Memory.lookup b.input k).getD (Config.freeInput b.resets k)

/-- CODED[k] (R40); a byte not written since the last hardware reset holds its free value (R76, log 4). -/
def Block.codedAt (b : Block) (k : Nat) : Byte := (Memory.lookup b.coded k).getD (Config.freeCoded b.resets k)

/-- TOKEN[k] (R41); a word not written since the last hardware reset holds its free value (R76, log 4). -/
def Block.tokenAt (b : Block) (k : Nat) : Word := (b.token.lookup k).getD (Config.freeToken b.resets k)

/-! ## Tables of 256 entries, indexed by a symbol -/

/-- `T[s]` of a table over the alphabet (R20, R36, R37). -/
def tableGet {α : Type} (t : Vector α 256) (s : Byte) : α := t[s.toNat]'s.isLt

/-- `T[s] <- v` of a table over the alphabet. -/
def tableSet {α : Type} (t : Vector α 256) (s : Byte) (v : α) : Vector α 256 := t.set s.toNat v s.isLt

/-- The alphabet, the 256 byte values in ascending order (R20). -/
def symbols : List Byte := (List.range 256).map (BitVec.ofNat 8)

/-- The entries of a table with their symbols, in ascending order of symbol: what `for s in 0..255` runs over. -/
def tableEntries {α : Type} (t : Vector α 256) : List (Byte × α) := symbols.zip t.toList

/-! ## The order of bits -/

/-- The number whose bit `j` is the `j`-th bit of the string. -/
def natOfBits : Bits → Nat
  | [] => 0
  | x :: xs => x.toNat + 2 * natOfBits xs

/-- The word whose bit `j` is the `j`-th bit of the string and whose other bits are 0 (R37(b)). -/
def wordOfBits (xs : Bits) : Word := BitVec.ofNat 32 (natOfBits (xs.take 32))

/-- The byte of eight bits, the first of them bit 7 (R66): the sum of `B[t] * 2^(7 - t)`. -/
def byteOfBits (xs : Bits) : Byte := BitVec.ofNat 8 (xs.foldl (fun acc x => 2 * acc + x.toNat) 0)

/-- `bytes_msb` of R66: byte `j` is made of the bits `8*j` to `8*j + 7`, most significant bit first. A string whose length
is no multiple of 8 does not occur; its last, incomplete byte would be dropped. -/
def bytesMsb : Bits → List Byte
  | b0 :: b1 :: b2 :: b3 :: b4 :: b5 :: b6 :: b7 :: rest =>
    byteOfBits [b0, b1, b2, b3, b4, b5, b6, b7] :: bytesMsb rest
  | _ => []

/-- The eight bits of a byte, bit 7 first. -/
def bitsOfByte (y : Byte) : Bits := [7, 6, 5, 4, 3, 2, 1, 0].map (fun t => y.getLsbD t)

/-- `bits_msb` of R66, the inverse of `bytesMsb`. -/
def bitsMsb (ys : List Byte) : Bits := ys.flatMap bitsOfByte

/-! ## The end of a command -/

/-- The code of a result in `STATUS.ERR` (R211). -/
def ErrCode.toByte : ErrCode → Byte
  | .ok => 0x00
  | .op => 0x01
  | .len => 0x02
  | .seq => 0x03
  | .noCode => 0x04

/-- Error entry, what `raise E_X(info)` does (R217): ERR, ESTK and EINFO are written and nothing else. There is no handler
and nothing is saved, so no return stands beside it (R218): the next command simply runs. -/
def Block.raise (e : ErrCode) (info : Word) (b : Block) : Block :=
  { b with status := { b.status with err := e, estk := true }, einfo := info }

/-- A command that failed no check ends with `STATUS.ERR <- 0` and leaves ESTK and EINFO as they are (R110). -/
def Block.succeed (b : Block) : Block := { b with status := { b.status with err := .ok } }

/-- The host's acknowledgement of an error, a write of 1 to bit 8 of STATUS: ESTK <- 0 (R24, R218). -/
def Block.clearSticky (b : Block) : Block := { b with status := { b.status with estk := false } }

/-- Acts on the block and leaves the host's side alone. -/
def State.onBlock (f : Block → Block) (s : State) : State := { s with blk := f s.blk }

/-- How every command ends (R110, R210): its checks are made on the state before it; the first that fails raises its error
and nothing else happens; if none fails the whole effect happens and ERR becomes 0. -/
def runChecked (check : Block → Option (ErrCode × Word)) (effect : Block → Block) (s : State) :
    Host.Outcome State Fault Refusal :=
  match check s.blk with
  | some (e, info) => .next (s.onBlock (Block.raise e info))
  | none => .next (s.onBlock fun b => (effect b).succeed)

/-- The checks of a command that can fail only with E_OP, that is never once decoded (R211). -/
def noCheck (_ : Block) : Option (ErrCode × Word) := none

/-! ## The resets -/

/-- Every register and table at its reset value, NODE, IN, CODED and TOKEN as they were (R181). -/
def Block.softReset (b : Block) : Block :=
  { Block.reset with node := b.node, input := b.input, coded := b.coded, token := b.token, resets := b.resets }

/-- The hardware reset (R240): every register and table at its reset value, NODE, IN, CODED and TOKEN freshly unspecified
(log 6). -/
def Block.hwReset (b : Block) : Block := { Block.reset with resets := b.resets + 1 }

end Sys2Proof.Machine
end

