-- ==== Sys2Proof/Machine/Operands.lean ====
section
/-! DEFINITION. Where operands come from: the input of the commands (30_encoding.md R92, 20_memory.md R74) and the address
map of the bus (20_memory.md R62 to R64). -/

namespace Sys2Proof.Machine

/-! ## The input of the commands -/

/-- `IN[0..IN_LEN)`, the input byte buffer both units work on (R26, R92). -/
def Block.inputBytes (b : Block) : List Byte := (List.range b.inLen.toNat).map b.inputAt

/-- CODE[s] (R37). -/
def Block.codeOf (b : Block) (s : Byte) : Bits := tableGet b.code s

/-- FREQ[s] (R36). -/
def Block.freqOf (b : Block) (s : Byte) : Word := tableGet b.freq s

/-- The check E_LEN of a command that reads the input: IN_LEN > N_MAX, reported with IN_LEN (R213). -/
def lenCheck (b : Block) : Option (ErrCode × Word) :=
  if Config.nMax < b.inLen.toNat then some (.len, b.inLen) else none

/-! ## The address map -/

/-- The word locations of R62: reached only by 4-byte accesses at their exact address (R63). -/
inductive WordLoc where
  | cmd
  | status
  | einfo
  | inLen
  | lWin
  | lLook
  | hOrig
  | hPad
  | hClen
  | hRoot
  | hNnode
  | hNsym
  | lNtok
  /-- FREQ[s]. -/
  | freq (s : Byte)
  /-- CLEN[s]. -/
  | clen (s : Byte)
  /-- CBITS[s][j]. -/
  | cbits (s : Byte) (j : BitVec 3)
  /-- Word w of NODE[k]. -/
  | node (k : Nat) (w : BitVec 2)
  /-- TOKEN[k]. -/
  | token (k : Nat)
  deriving DecidableEq, Repr

/-- The byte locations of R62: reached only by 1-byte accesses (R64). -/
inductive ByteLoc where
  /-- IN[k]. -/
  | input (k : Nat)
  /-- CODED[k]. -/
  | coded (k : Nat)
  deriving DecidableEq, Repr

/-- A location whose index is inside its table or memory (R62). -/
def WordLoc.inMap : WordLoc → Bool
  | .node k _ => k < Config.nodeMax
  | .token k => k < Config.tokenCap
  | _ => true

/-- A byte location whose index is inside its memory (R62). -/
def ByteLoc.inMap : ByteLoc → Bool
  | .input k => k < Config.nMax
  | .coded k => k < Config.codedCap

/-- The bus address of a word location, the first column of R62. -/
def WordLoc.addr : WordLoc → Nat
  | .cmd => 0x00
  | .status => 0x04
  | .einfo => 0x08
  | .inLen => 0x0C
  | .lWin => 0x10
  | .lLook => 0x14
  | .hOrig => 0x18
  | .hPad => 0x1C
  | .hClen => 0x20
  | .hRoot => 0x24
  | .hNnode => 0x28
  | .hNsym => 0x2C
  | .lNtok => 0x30
  | .freq s => 0x400 + 4 * s.toNat
  | .clen s => 0x800 + 4 * s.toNat
  | .cbits s j => 0x1000 + 32 * s.toNat + 4 * j.toNat
  | .node k w => 0x4000 + 16 * k + 4 * w.toNat
  | .token k => 0x40000000 + 4 * k

/-- The bus address of a byte location, the first column of R62. -/
def ByteLoc.addr : ByteLoc → Nat
  | .input k => 0x10000000 + k
  | .coded k => 0x20000000 + k

/-- The register at an address of the register page, if there is one (R62). -/
def locateReg : Nat → Option WordLoc
  | 0x00 => some .cmd
  | 0x04 => some .status
  | 0x08 => some .einfo
  | 0x0C => some .inLen
  | 0x10 => some .lWin
  | 0x14 => some .lLook
  | 0x18 => some .hOrig
  | 0x1C => some .hPad
  | 0x20 => some .hClen
  | 0x24 => some .hRoot
  | 0x28 => some .hNnode
  | 0x2C => some .hNsym
  | 0x30 => some .lNtok
  | _ => none

/-- The word location a 4-byte access at address `a` reaches; none where the access is a bus error (R62, R63, R64). -/
def locateWord (a : Addr) : Option WordLoc :=
  let n := a.toNat
  if n % 4 ≠ 0 then none
  else if n < 0x400 then locateReg n
  else if n < 0x800 then some (.freq (BitVec.ofNat 8 ((n - 0x400) / 4)))
  else if n < 0xC00 then some (.clen (BitVec.ofNat 8 ((n - 0x800) / 4)))
  else if n < 0x1000 then none
  else if n < 0x3000 then
    some (.cbits (BitVec.ofNat 8 ((n - 0x1000) / 32)) (BitVec.ofNat 3 ((n - 0x1000) / 4 % 8)))
  else if n < 0x4000 then none
  else if n < 0x4000 + 16 * Config.nodeMax then
    some (.node ((n - 0x4000) / 16) (BitVec.ofNat 2 ((n - 0x4000) / 4 % 4)))
  else if n < 0x40000000 then none
  else if n < 0x40000000 + 4 * Config.tokenCap then some (.token ((n - 0x40000000) / 4))
  else none

/-- The byte location a 1-byte access at address `a` reaches; none where the access is a bus error (R62, R63, R64). -/
def locateByte (a : Addr) : Option ByteLoc :=
  let n := a.toNat
  if n < 0x10000000 then none
  else if n < 0x10000000 + Config.nMax then some (.input (n - 0x10000000))
  else if n < 0x20000000 then none
  else if n < 0x20000000 + Config.codedCap then some (.coded (n - 0x20000000))
  else none

end Sys2Proof.Machine
end

