-- ==== Sys2Proof/Machine/Flags.lean ====
section
/-! DEFINITION. The valid flags: the STATUS word (10_state.md R24), what each command sets and clears (R42), and what each
host write invalidates (R43). -/

namespace Sys2Proof.Machine

/-- STATUS as the host reads it (R24): LVAL, MEMPTY, PVAL, CVAL, TVAL, ESTK in bits 13 to 8, ERR in bits 7:0, zeros above. -/
def Status.word (st : Status) : Word :=
  (0 : BitVec 18) ++ BitVec.ofBool st.lval ++ BitVec.ofBool st.mempty ++ BitVec.ofBool st.pval ++
    BitVec.ofBool st.cval ++ BitVec.ofBool st.tval ++ BitVec.ofBool st.estk ++ st.err.toByte

/-! ## What a command does to the flags (R42) -/

/-- HCLR: TVAL, CVAL, PVAL, MEMPTY <- 0 (R111). -/
def Status.huffCleared (st : Status) : Status :=
  { st with tval := false, cval := false, pval := false, mempty := false }

/-- HCNT, and a host write of FREQ: TVAL, CVAL, PVAL <- 0 (R112, R43). -/
def Status.freqChanged (st : Status) : Status := { st with tval := false, cval := false, pval := false }

/-- HBLD: TVAL <- 1; CVAL, PVAL <- 0 (R114). -/
def Status.treeBuilt (st : Status) : Status := { st with tval := true, cval := false, pval := false }

/-- HASN: CVAL <- 1; PVAL <- 0 (R121). -/
def Status.codesAssigned (st : Status) : Status := { st with cval := true, pval := false }

/-- HPCK: PVAL <- 1; MEMPTY <- (IN_LEN = 0) (R127). -/
def Status.packed (inLen : Word) (st : Status) : Status := { st with pval := true, mempty := inLen == 0 }

/-- LCLR: LVAL <- 0 (R151); also a host write of L_WIN or L_LOOK (R43). -/
def Status.lzChanged (st : Status) : Status := { st with lval := false }

/-- LCMP: LVAL <- 1 (R152). -/
def Status.lzDone (st : Status) : Status := { st with lval := true }

/-- A host write of IN or IN_LEN: PVAL, LVAL <- 0 (R43). -/
def Status.inputChanged (st : Status) : Status := { st with pval := false, lval := false }

end Sys2Proof.Machine
end

