-- ==== Sys2Proof/Machine/Huffman.lean ====
section
/-! DEFINITION. The HUF unit (spec/40_huffman_commands.md): counting, building the tree, assigning the codes, packing, and
the six commands HCLR, HCNT, HBLD, HASN, HPCK, HENC. -/

namespace Sys2Proof.Machine

/-! ## Counting (R112) -/

/-- `FREQ[IN[k]] <- FREQ[IN[k]] + 1` for each input byte in order, from a table of zeros (R112). -/
def countFreq (bytes : List Byte) : Vector Word 256 :=
  bytes.foldl (fun t x => tableSet t x (tableGet t x + 1)) (Vector.replicate 256 0)

/-! ## Building the tree (R115 to R119) -/

/-- The leaf of symbol `s` with a non-zero count `f` (R115). -/
def leafNode (s : Byte) (f : Word) : NodeEntry :=
  { leaf := true, sym := s, freq := f.setWidth 40, left := noNode, right := noNode }

/-- The internal node over the children `a` and `b` (R116, R118). -/
def innerNode (f : BitVec 40) (a b : NodeIx) : NodeEntry :=
  { leaf := false, sym := 0, freq := f, left := a, right := b }

/-- The leaves: one for every symbol with a non-zero count, in ascending order of symbol (R115). -/
def leavesOf (freq : Vector Word 256) : List NodeEntry :=
  (tableEntries freq).filterMap fun e => if e.2 = 0 then none else some (leafNode e.1 e.2)

/-- A live node of the priority structure Q with its key (frequency, node index) (R116). -/
structure LiveNode where
  freq : BitVec 40
  ix   : Nat
  deriving DecidableEq, Repr

/-- The order of keys: by frequency as an unsigned number, then by node index (R117). -/
def LiveNode.before (x y : LiveNode) : Bool :=
  x.freq.toNat < y.freq.toNat || (x.freq.toNat == y.freq.toNat && x.ix < y.ix)

/-- The live node with the least key (R116). -/
def leastLive (x : LiveNode) (xs : List LiveNode) : LiveNode :=
  xs.foldl (fun m y => if y.before m then y else m) x

/-- `a <- the q in Q with the least key; Q <- Q minus {a}`; none where Q is empty (R116). -/
def takeLeast : List LiveNode → Option (LiveNode × List LiveNode)
  | [] => none
  | x :: xs => some (leastLive x xs, (x :: xs).erase (leastLive x xs))

/-- The merge loop of R116 on the nodes made so far (index = position) and the live ones. `fuel` bounds the rounds; each
round takes one node off Q, so as many rounds as Q has nodes are enough (log 16). -/
def mergeLoop : Nat → List NodeEntry → List LiveNode → List NodeEntry
  | 0, nodes, _ => nodes
  | fuel + 1, nodes, live =>
    match takeLeast live with
    | none => nodes
    | some (a, rest) =>
      match takeLeast rest with
      | none => nodes
      | some (b, rest') =>
        mergeLoop fuel (nodes ++ [innerNode (a.freq + b.freq) (BitVec.ofNat 9 a.ix) (BitVec.ofNat 9 b.ix)])
          (rest' ++ [{ freq := a.freq + b.freq, ix := nodes.length }])

/-- What a tree build writes: NODE[0..|nodes|), H_ROOT and H_NSYM; H_NNODE is |nodes| (R116, R118, R119). -/
structure Tree where
  nodes : List NodeEntry
  root  : NodeIx
  nsym  : Nat
  deriving DecidableEq, Repr

/-- The tree of a frequency table (R114): no symbol (R119), one symbol (R118), two or more (R116). -/
def buildTree (freq : Vector Word 256) : Tree :=
  match leavesOf freq with
  | [] => { nodes := [], root := noNode, nsym := 0 }
  | [l] => { nodes := [l, innerNode l.freq 0 noNode], root := 1, nsym := 1 }
  | l0 :: l1 :: ls =>
    let leaves := l0 :: l1 :: ls
    let nodes := mergeLoop leaves.length leaves (leaves.zipIdx.map fun p => { freq := p.1.freq, ix := p.2 })
    { nodes := nodes, root := BitVec.ofNat 9 (nodes.length - 1), nsym := leaves.length }

/-! ## Assigning the codes (R121) -/

/-- `assign(x, path)` of R121, carrying the CODE table. `fuel` bounds the depth, which R121 says is at most 256; a NODE
table that is deeper or has a cycle stands in no reachable state with TVAL = 1 (log 8). -/
def assignFrom (node : Nat → NodeEntry) : Nat → NodeIx → Bits → Vector Bits 256 → Vector Bits 256
  | 0, _, _, codes => codes
  | fuel + 1, x, path, codes =>
    if (node x.toNat).leaf then tableSet codes (node x.toNat).sym path
    else
      let afterLeft :=
        if (node x.toNat).left = noNode then codes
        else assignFrom node fuel (node x.toNat).left (path ++ [false]) codes
      if (node x.toNat).right = noNode then afterLeft
      else assignFrom node fuel (node x.toNat).right (path ++ [true]) afterLeft

/-- The codes of the tree in `node` with the given root, from a table of empty codes (R121). -/
def assignCodes (node : Nat → NodeEntry) (root : NodeIx) : Vector Bits 256 :=
  if root = noNode then Vector.replicate 256 []
  else assignFrom node (Config.codeMax + 1) root [] (Vector.replicate 256 [])

/-! ## Packing (R124 to R126) -/

/-- The concatenated codes of the bytes in order (R124). -/
def bitStream (code : Byte → Bits) (bytes : List Byte) : Bits := bytes.flatMap code

/-- The padding bit count of a stream of `t` bits (R125). -/
def padCount (t : Nat) : Nat := (8 - t % 8) % 8

/-- The stream right-padded with zeros and formed into bytes (R125, R126). -/
def packedBytes (stream : Bits) : List Byte := bytesMsb (stream ++ List.replicate (padCount stream.length) false)

/-- The least `k < IN_LEN` with `CODE[IN[k]] = []`, if there is one (R129). -/
def firstUncoded (b : Block) : Option Nat := b.inputBytes.findIdx? (fun x => (b.codeOf x).isEmpty)

/-! ## The effects of the commands, without their checks and without ERR -/

/-- The writes of HCLR (R111). -/
def hclrEffect (b : Block) : Block :=
  { b with
    freq := Vector.replicate 256 0, code := Vector.replicate 256 []
    hRoot := noNode, hNnode := 0, hNsym := 0, hOrig := 0, hPad := 0, hClen := 0
    status := b.status.huffCleared }

/-- The writes of HCNT (R112). -/
def hcntEffect (b : Block) : Block :=
  { b with freq := countFreq b.inputBytes, status := b.status.freqChanged }

/-- The writes of HBLD (R114): NODE[0..H_NNODE), H_ROOT, H_NNODE, H_NSYM and the flags. -/
def hbldEffect (b : Block) : Block :=
  { b with
    node := b.node.writeFirst (buildTree b.freq).nodes
    hRoot := (buildTree b.freq).root
    hNnode := BitVec.ofNat 10 (buildTree b.freq).nodes.length
    hNsym := BitVec.ofNat 9 (buildTree b.freq).nsym
    status := b.status.treeBuilt }

/-- The writes of HASN (R121). -/
def hasnEffect (b : Block) : Block :=
  { b with code := assignCodes b.nodeAt b.hRoot, status := b.status.codesAssigned }

/-- The bit stream of the present input and codes (R124). -/
def Block.stream (b : Block) : Bits := bitStream b.codeOf b.inputBytes

/-- The writes of HPCK (R124 to R127). -/
def hpckEffect (b : Block) : Block :=
  { b with
    coded := Memory.writeFirst b.coded (packedBytes b.stream)
    hClen := BitVec.ofNat 32 ((b.stream.length + padCount b.stream.length) / 8)
    hPad := BitVec.ofNat 3 (padCount b.stream.length)
    hOrig := b.inLen
    status := b.status.packed b.inLen }

/-- The writes of HENC (R130): the effects of the five parts in order. -/
def hencEffect (b : Block) : Block := hpckEffect (hasnEffect (hbldEffect (hcntEffect (hclrEffect b))))

/-! ## The checks that more than the length needs -/

/-- The check of HASN: E_SEQ(0x13) where there is no valid tree (R121, R214). -/
def hasnCheck (b : Block) : Option (ErrCode × Word) := if b.status.tval then none else some (.seq, 0x13)

/-- The checks of HPCK in order: E_LEN, E_SEQ(0x14), E_NOCODE (R129, R216). -/
def hpckCheck (b : Block) : Option (ErrCode × Word) :=
  match lenCheck b with
  | some e => some e
  | none =>
    if b.status.cval then (firstUncoded b).map fun k => (.noCode, BitVec.ofNat 32 k)
    else some (.seq, 0x14)

/-! ## The commands -/

/-- HCLR (R111). -/
def execHclr (s : State) : Host.Outcome State Fault Refusal := runChecked noCheck hclrEffect s

/-- HCNT (R112). -/
def execHcnt (s : State) : Host.Outcome State Fault Refusal := runChecked lenCheck hcntEffect s

/-- HBLD (R114). -/
def execHbld (s : State) : Host.Outcome State Fault Refusal := runChecked noCheck hbldEffect s

/-- HASN (R121). -/
def execHasn (s : State) : Host.Outcome State Fault Refusal := runChecked hasnCheck hasnEffect s

/-- HPCK (R123). -/
def execHpck (s : State) : Host.Outcome State Fault Refusal := runChecked hpckCheck hpckEffect s

/-- HENC (R130). -/
def execHenc (s : State) : Host.Outcome State Fault Refusal := runChecked lenCheck hencEffect s

end Sys2Proof.Machine
end

