-- ==== Sys2Proof/Machine/Lz.lean ====
section
/-! DEFINITION. The LZ unit (spec/41_lz77_commands.md): the dictionary, the search, one round, compaction, and the two
commands LCLR and LCMP. -/

namespace Sys2Proof.Machine

/-- What one execution of LCMP works on (R152): the input bytes and their number, the window, the lookahead, and the
compaction period (R8). -/
structure LzJob where
  /-- IN[k]. -/
  byteAt : Nat → Byte
  /-- n = IN_LEN. -/
  n      : Nat
  /-- W = L_WIN. -/
  window : Nat
  /-- L = L_LOOK. -/
  look   : Nat
  /-- PRUNE_INTERVAL. -/
  prune  : Nat

/-- A key of the dictionary, a triple of bytes (R154). -/
abbrev LzKey := Byte × Byte × Byte

/-- DICT: each key with its ordered list of positions; a key not present has the empty list (R154). -/
abbrev LzDict := List (LzKey × List Nat)

/-- `DICT[key]` (R154). -/
def LzDict.get : LzDict → LzKey → List Nat
  | [], _ => []
  | (k, ps) :: d, key => if k = key then ps else LzDict.get d key

/-- Appends a position to the end of the list of a key (R159). -/
def LzDict.append : LzDict → LzKey → Nat → LzDict
  | [], key, q => [(key, [q])]
  | (k, ps) :: d, key, q => if k = key then (k, ps ++ [q]) :: d else (k, ps) :: LzDict.append d key q

/-- How many positions the dictionary holds (R165). -/
def LzDict.occupancy (d : LzDict) : Nat := (d.map fun e => e.2.length).sum

/-- The three-byte key at a position (R154). -/
def LzJob.keyAt (j : LzJob) (i : Nat) : LzKey := (j.byteAt i, j.byteAt (i + 1), j.byteAt (i + 2))

/-- The extension loop of R156 from a length already reached: one more byte while `len < L`, `i + len < n`,
`p + len < i` and the bytes agree. `fuel` is how many more bytes L allows. -/
def LzJob.extend (j : LzJob) (p i : Nat) : Nat → Nat → Nat
  | 0, len => len
  | fuel + 1, len =>
    if i + len < j.n ∧ p + len < i ∧ j.byteAt (p + len) = j.byteAt (i + len) then j.extend p i fuel (len + 1) else len

/-- `mlen(p, i)`, the match length of candidate `p` at position `i` (R156). -/
def LzJob.mlen (j : LzJob) (p i : Nat) : Nat := j.extend p i j.look 0

/-- One turn of the search loop (R157): a candidate inside the window (R155) replaces the best (length, position) only
when it is strictly longer. -/
def LzJob.better (j : LzJob) (i : Nat) (best : Nat × Nat) (p : Nat) : Nat × Nat :=
  if i - p ≤ j.window ∧ best.1 < j.mlen p i then (j.mlen p i, p) else best

/-- The best (length, position) among candidates in list order, from best length 0 (R157). While the length is 0 no
position is chosen; the second component is then 0 and nothing uses it (R158). -/
def LzJob.bestOf (j : LzJob) (i : Nat) (candidates : List Nat) : Nat × Nat := candidates.foldl (j.better i) (0, 0)

/-- `search(i)` (R157). -/
def LzJob.search (j : LzJob) (dict : LzDict) (i : Nat) : Nat × Nat := j.bestOf i (dict.get (j.keyAt i))

/-- `register(q)` (R159): a position with three bytes left is appended to the list of its key, any other is not registered. -/
def LzJob.register (j : LzJob) (dict : LzDict) (q : Nat) : LzDict :=
  if q + 3 ≤ j.n then dict.append (j.keyAt q) q else dict

/-- `compact(i)` (R160): drops every position with `i - p > W`, then every key left without one. -/
def LzJob.compact (j : LzJob) (dict : LzDict) (i : Nat) : LzDict :=
  (dict.map fun e => (e.1, e.2.filter fun p => i - p ≤ j.window)).filter fun e => !e.2.isEmpty

/-- The locals of LCMP between two rounds (R152); `toks` is what `emit` has written, so ntok is its length. -/
structure LzRun where
  dict : LzDict
  i    : Nat
  adv  : Nat
  toks : List Token
  deriving DecidableEq, Repr

/-- The locals at the start (R152). -/
def LzRun.start : LzRun := { dict := [], i := 0, adv := 0, toks := [] }

/-- The end of a round (R152, R160): `i` and `adv` advance, and the dictionary is compacted when PRUNE_INTERVAL positions
have been advanced since the last compaction. -/
def LzJob.advance (j : LzJob) (r : LzRun) (by_ : Nat) : LzRun :=
  if j.prune ≤ r.adv + by_ then { r with dict := j.compact r.dict (r.i + by_), i := r.i + by_, adv := 0 }
  else { r with i := r.i + by_, adv := r.adv + by_ }

/-- The dictionary after the first `m` registrations of the round at `r.i`: the positions from `r.i` on, in ascending order
(R159). -/
def LzJob.filled (j : LzJob) (r : LzRun) (m : Nat) : LzDict := (List.range' r.i m).foldl j.register r.dict

/-- One round of LCMP at a position with at least three bytes left (R152, R158, R159): a match of length 3 or more, every
position it stands for registered, or one literal, its position registered. -/
def LzJob.round (j : LzJob) (r : LzRun) : LzRun :=
  let best := j.search r.dict r.i
  if Config.minMatch ≤ best.1 then
    j.advance
      { r with
        dict := j.filled r best.1
        toks := r.toks ++ [.backRef (r.i - best.2) best.1] } best.1
  else
    j.advance { r with dict := j.filled r 1, toks := r.toks ++ [.lit (j.byteAt r.i)] } 1

/-- The loop of R152 as long as three bytes remain. `fuel` bounds the rounds; each advances by at least 1, so n rounds are
enough (R95, log 16). -/
def LzJob.rounds (j : LzJob) : Nat → LzRun → LzRun
  | 0, r => r
  | fuel + 1, r => if j.n - r.i < 3 then r else j.rounds fuel (j.round r)

/-- The remaining fewer than three bytes as literals (R153). -/
def LzJob.flush (j : LzJob) (r : LzRun) : List Token := (List.range' r.i (j.n - r.i)).map fun k => .lit (j.byteAt k)

/-- The token stream of a job (R152, R153). -/
def LzJob.tokens (j : LzJob) : List Token :=
  let r := j.rounds j.n LzRun.start
  r.toks ++ j.flush r

/-- The job of bytes already in hand. -/
def lzJobOf (bytes : Array Byte) (window look prune : Nat) : LzJob :=
  { byteAt := fun k => bytes.getD k 0, n := bytes.size, window := window, look := look, prune := prune }

/-- The tokens of the present input, L_WIN and L_LOOK (R152). -/
def Block.lzTokens (b : Block) : List Token :=
  (lzJobOf b.inputBytes.toArray b.lWin.toNat b.lLook.toNat Config.pruneInterval).tokens

/-- The writes of LCLR (R151). -/
def lclrEffect (b : Block) : Block := { b with lNtok := 0, status := b.status.lzChanged }

/-- The writes of LCMP (R152): TOKEN[0..L_NTOK), L_NTOK and LVAL. -/
def lcmpEffect (b : Block) : Block :=
  { b with
    token := b.token.writeFirst (b.lzTokens.map encodeToken)
    lNtok := BitVec.ofNat 32 b.lzTokens.length
    status := b.status.lzDone }

/-- LCLR (R151). -/
def execLclr (s : State) : Host.Outcome State Fault Refusal := runChecked noCheck lclrEffect s

/-- LCMP (R152). -/
def execLcmp (s : State) : Host.Outcome State Fault Refusal := runChecked lenCheck lcmpEffect s

end Sys2Proof.Machine
end

