-- ==== Sys2Proof/Machine/System.lean ====
section
/-! DEFINITION. The system commands NOP and RST (spec/42_system_commands.md). -/

namespace Sys2Proof.Machine

/-- NOP (R180): only `STATUS.ERR <- 0`. -/
def execNop (s : State) : Host.Outcome State Fault Refusal := runChecked noCheck id s

/-- RST (R181): every register and table takes its reset value; NODE, IN, CODED and TOKEN keep their contents. -/
def execRst (s : State) : Host.Outcome State Fault Refusal := runChecked noCheck Block.softReset s

end Sys2Proof.Machine
end

