-- ==== Sys2Proof/Machine/Dispatch.lean ====
section
/-! DEFINITION. The dispatch: one arm per command, one direct call of its meaning. -/

namespace Sys2Proof.Machine

def exec (i : Instr) (s : State) : Host.Outcome State Fault Refusal :=
  match i with
  | .nop => Sys2Proof.Machine.execNop s
  | .rst => Sys2Proof.Machine.execRst s
  | .hclr => Sys2Proof.Machine.execHclr s
  | .hcnt => Sys2Proof.Machine.execHcnt s
  | .hbld => Sys2Proof.Machine.execHbld s
  | .hasn => Sys2Proof.Machine.execHasn s
  | .hpck => Sys2Proof.Machine.execHpck s
  | .henc => Sys2Proof.Machine.execHenc s
  | .lclr => Sys2Proof.Machine.execLclr s
  | .lcmp => Sys2Proof.Machine.execLcmp s

end Sys2Proof.Machine
end

