-- ==== Sys2Proof/Machine/Bus.lean ====
section
/-! DEFINITION. The bus: what an accepted read returns, what an accepted write does, the command a write of CMD starts, and
one host operation whole (20_memory.md R61 to R69). -/

namespace Sys2Proof.Machine

/-- CBITS[s][j] (R37(b)): bit b is `CODE[s][32*j + b]` where the code has that bit, else 0. -/
def codeWord (c : Bits) (j : BitVec 3) : Word := wordOfBits (c.drop (32 * j.toNat))

/-- The four words of a NODE entry (R38). -/
def nodeWord (e : NodeEntry) (w : BitVec 2) : Word :=
  match w.toNat with
  | 0 => (0 : BitVec 16) ++ e.sym ++ (0 : BitVec 7) ++ BitVec.ofBool e.leaf
  | 1 => e.freq.extractLsb' 0 32
  | 2 => (0 : BitVec 24) ++ e.freq.extractLsb' 32 8
  | _ => (0 : BitVec 7) ++ e.right ++ (0 : BitVec 7) ++ e.left

/-- The value an accepted 4-byte read returns (R23 to R38, R41; CMD reads 0, R67; reserved bits read 0, R68). -/
def Block.readWord (b : Block) : WordLoc → Word
  | .cmd => 0
  | .status => b.status.word
  | .einfo => b.einfo
  | .inLen => b.inLen
  | .lWin => b.lWin.setWidth 32
  | .lLook => b.lLook.setWidth 32
  | .hOrig => b.hOrig
  | .hPad => b.hPad.setWidth 32
  | .hClen => b.hClen
  | .hRoot => b.hRoot.setWidth 32
  | .hNnode => b.hNnode.setWidth 32
  | .hNsym => b.hNsym.setWidth 32
  | .lNtok => b.lNtok
  | .freq s => b.freqOf s
  | .clen s => (BitVec.ofNat 8 (b.codeOf s).length).setWidth 32
  | .cbits s j => codeWord (b.codeOf s) j
  | .node k w => nodeWord (b.nodeAt k) w
  | .token k => b.tokenAt k

/-- The value an accepted 1-byte read returns (R39, R40). -/
def Block.readByte (b : Block) : ByteLoc → Byte
  | .input k => b.inputAt k
  | .coded k => b.codedAt k

/-- What an accepted 4-byte write does, for every location but CMD (R24, R26 to R28, R36, R43, R67, R68). A write of a
read-only location does nothing. -/
def Block.writeWord (b : Block) (v : Word) : WordLoc → Block
  | .cmd => b
  | .status => if v.getLsbD 8 then b.clearSticky else b
  | .einfo => b
  | .inLen => { b with inLen := v, status := b.status.inputChanged }
  | .lWin => { b with lWin := v.extractLsb' 0 16, status := b.status.lzChanged }
  | .lLook => { b with lLook := v.extractLsb' 0 9, status := b.status.lzChanged }
  | .hOrig => b
  | .hPad => b
  | .hClen => b
  | .hRoot => b
  | .hNnode => b
  | .hNsym => b
  | .lNtok => b
  | .freq s => { b with freq := tableSet b.freq s v, status := b.status.freqChanged }
  | .clen _ => b
  | .cbits _ _ => b
  | .node _ _ => b
  | .token _ => b

/-- What an accepted 1-byte write does: IN stores and invalidates (R39, R43); CODED is read-only (R67). -/
def Block.writeByte (b : Block) (v : Byte) : ByteLoc → Block
  | .input k => { b with input := Memory.write b.input k v, status := b.status.inputChanged }
  | .coded _ => b

/-- A write of `v` to CMD runs the command of `v` to its end (R23, R90); an illegal word fails with E_OP and EINFO = v
(R93, R212). -/
def runCommand (v : Word) (s : State) : Host.Outcome State Fault Refusal :=
  match decode v with
  | .instr i => exec i s
  | .reject _ => .next (s.onBlock (Block.raise .op v))

/-- Records what the bus operation returned to the host (R61). -/
def State.answer (r : Reply) (s : State) : State := { s with reply := some r }

/-- One event from outside, whole (R61, R70): a read returns its value and changes nothing (R69); a write does its effect;
an access that R63 or R64 refuses returns `buserror` and changes nothing in the block (R219); the hardware reset (R240). -/
def hostStep (op : HostOp) (s : State) : Host.Outcome State Fault Refusal :=
  match op with
  | .rd1 a =>
    match locateByte a with
    | some l => .next (s.answer (.byte (s.blk.readByte l)))
    | none => .next (s.answer .busError)
  | .rd4 a =>
    match locateWord a with
    | some l => .next (s.answer (.word (s.blk.readWord l)))
    | none => .next (s.answer .busError)
  | .wr1 a v =>
    match locateByte a with
    | some l => .next ((s.answer .ok).onBlock fun b => b.writeByte v l)
    | none => .next (s.answer .busError)
  | .wr4 a v =>
    match locateWord a with
    | some .cmd => runCommand v (s.answer .ok)
    | some l => .next ((s.answer .ok).onBlock fun b => b.writeWord v l)
    | none => .next (s.answer .busError)
  | .hwReset => .next (s.onBlock Block.hwReset)

end Sys2Proof.Machine
end

