-- ==== Sys2Proof/Machine/Step.lean ====
section
/-! DEFINITION. One step of the machine: the next event of the host's list, or nothing. -/

namespace Sys2Proof.Machine

/-- One step (00_scope.md R15): the host's next operation is taken off its list and done whole. With no operation to come
the block does nothing on its own and keeps all its state (R15, R227). -/
def step (s : State) : Host.Outcome State Fault Refusal :=
  match s.host with
  | [] => .next s
  | op :: rest => hostStep op { s with host := rest }

/-- The state in which the host's next operation is the write to CMD of the command word `w` (R23, R90), so that the next
step runs it; the operations after it stay as they are (log 11). -/
def State.withFetchWord (s : State) (nbits w : Nat) : State :=
  { s with host := .wr4 0 (BitVec.ofNat 32 (w % 2 ^ nbits)) :: s.host }

end Sys2Proof.Machine
end

