-- ==== Sys2Proof/Machine/Reference.lean ====
section
/-! DEFINITION. The results of the block as values (10_state.md R47, R48), the reference inverses `hdec` and `lzdec`
(43_reference_inverse.md), which are no commands (R4), and the parse of R162, which needs no dictionary. -/

namespace Sys2Proof.Machine

/-! ## The results as values -/

/-- The Huffman metadata in a state with PVAL = 1 (R47). -/
def Block.metadata (b : Block) : Meta := if b.status.mempty then .empty else .triple b.freq b.hPad b.hOrig

/-- `CODED[0..H_CLEN)` (R31, R47). -/
def Block.codedBytes (b : Block) : List Byte := (List.range b.hClen.toNat).map b.codedAt

/-- `TOKEN[0..L_NTOK)` (R35). -/
def Block.tokenWords (b : Block) : List Word := (List.range b.lNtok.toNat).map b.tokenAt

/-- The token stream in a state with LVAL = 1 (R48). -/
def Block.tokens (b : Block) : List Token := b.tokenWords.map decodeToken

/-! ## Huffman decode -/

/-- The loop of `hdec` (R191): walk from node `x` one bit at a time until `need` more symbols are out; none is `error`:
the bits ran out, or the walk reached a missing child. (An index outside the tree does not occur in a tree that HBLD
built; it too is answered `error`, log 13.) -/
def hdecWalk (nodes : List NodeEntry) (root : NodeIx) : Bits → NodeIx → Nat → Option (List Byte)
  | _, _, 0 => some []
  | [], _, _ + 1 => none
  | bit :: rest, x, need + 1 =>
    match nodes[x.toNat]? with
    | none => none
    | some e =>
      let child := if bit then e.right else e.left
      if child = noNode then none
      else
        match nodes[child.toNat]? with
        | none => none
        | some c =>
          if c.leaf then (hdecWalk nodes root rest root need).map (c.sym :: ·)
          else hdecWalk nodes root rest child (need + 1)

/-- `hdec(Y, M)` (R190, R191); none is `error`. The tree is the one HBLD builds from the table of `M`. -/
def hdec (ys : List Byte) : Meta → Option (List Byte)
  | .empty => some []
  | .triple freq padding origSize =>
    let tree := buildTree freq
    let bits := bitsMsb ys
    if bits.length < padding.toNat then none
    else if tree.root = noNode ∧ origSize ≠ 0 then none
    else hdecWalk tree.nodes tree.root (bits.take (bits.length - padding.toNat)) tree.root origSize.toNat

/-! ## LZ77 decompress -/

/-- The copy of a match (R193): `count` bytes one at a time, each read `offset` before the present end of the output, so
that a copied byte is visible to the next read. -/
def copyBack (offset : Nat) : Nat → List Byte → List Byte
  | 0, out => out
  | count + 1, out => copyBack offset count (out ++ [out.getD (out.length - offset) 0])

/-- `lzdec` from the output so far (R193); none is `error`. -/
def lzdecFrom : List Token → List Byte → Option (List Byte)
  | [], out => some out
  | .lit b :: toks, out => lzdecFrom toks (out ++ [b])
  | .backRef offset length :: toks, out =>
    if offset < 1 ∨ out.length < offset then none else lzdecFrom toks (copyBack offset length out)

/-- `lzdec(toks)` (R193, R194); none is `error`. -/
def lzdec (toks : List Token) : Option (List Byte) := lzdecFrom toks []

/-! ## The tree and the codes as the rules describe them -/

/-- The symbols with a non-zero count, in ascending order (R115). -/
def codedSymbols (freq : Vector Word 256) : List Byte := symbols.filter fun x => tableGet freq x ≠ 0

/-- The order of keys on node indices (R117): by frequency, then by index. -/
def KeyBefore (node : Nat → NodeEntry) (p q : Nat) : Prop :=
  (node p).freq.toNat < (node q).freq.toNat ∨ ((node p).freq.toNat = (node q).freq.toNat ∧ p < q)

/-- Node `q` is in the set Q when node `m` is made, in a tree of `k` leaves (R116): it exists, and no internal node made
before `m` took it as a child. -/
def LiveBefore (node : Nat → NodeEntry) (k m q : Nat) : Prop :=
  q < m ∧ ∀ m', k ≤ m' → m' < m → (node m').left.toNat ≠ q ∧ (node m').right.toNat ≠ q

/-- What R116 and R117 say of the internal node `m` in a tree of `k` leaves: its left child is the live node with the least
key, its right child the one with the next, and its frequency is their exact sum. -/
def MergedAt (node : Nat → NodeEntry) (k m : Nat) : Prop :=
  (node m).leaf = false ∧ (node m).sym = 0 ∧
    LiveBefore node k m (node m).left.toNat ∧ LiveBefore node k m (node m).right.toNat ∧
    KeyBefore node (node m).left.toNat (node m).right.toNat ∧
    (∀ q, LiveBefore node k m q → q ≠ (node m).left.toNat → q ≠ (node m).right.toNat →
      KeyBefore node (node m).right.toNat q) ∧
    (node m).freq.toNat = (node (node m).left.toNat).freq.toNat + (node (node m).right.toNat).freq.toNat

/-- The node that a sequence of branches leads to from `x` (R121): 0 goes left and 1 goes right; none where the path runs
through a leaf or to a missing child. -/
def followPath (node : Nat → NodeEntry) : NodeIx → Bits → Option NodeIx
  | x, [] => some x
  | x, bit :: rest =>
    if (node x.toNat).leaf then none
    else if (if bit then (node x.toNat).right else (node x.toNat).left) = noNode then none
    else followPath node (if bit then (node x.toNat).right else (node x.toNat).left) rest

/-! ## The parse without the dictionary (R162) -/

/-- How many input bytes a token stands for (R163). -/
def tokenSpan : Token → Nat
  | .lit _ => 1
  | .backRef _ length => length

/-- `step` of R152: how many positions the round at `r.i` registers and advances by. -/
def LzJob.stepOf (j : LzJob) (r : LzRun) : Nat :=
  if Config.minMatch ≤ (j.search r.dict r.i).1 then (j.search r.dict r.i).1 else 1

/-- What R162 says of the token at a position `i` the loop reaches: with three bytes left, the match is the greatest
`mlen(p, i)` over the positions `p` of the window and the least `p` attaining it, and a literal stands only where that
greatest length is below 3; with fewer left, a literal (R153). -/
def LzJob.GreedyAt (j : LzJob) (i : Nat) : Token → Prop
  | .lit b => i < j.n ∧ b = j.byteAt i ∧ (i + 3 ≤ j.n → ∀ p < i, i - p ≤ j.window → j.mlen p i < Config.minMatch)
  | .backRef offset length =>
    i + 3 ≤ j.n ∧ 1 ≤ offset ∧ offset ≤ i ∧ offset ≤ j.window ∧ Config.minMatch ≤ length ∧
      length = j.mlen (i - offset) i ∧
      ∀ p < i, i - p ≤ j.window → j.mlen p i ≤ length ∧ (p < i - offset → j.mlen p i < length)

/-- The tokens from position `i` on are the greedy parse of the rest of the input, to its very end (R162, R163). -/
def LzJob.GreedyParse (j : LzJob) : Nat → List Token → Prop
  | i, [] => i = j.n
  | i, t :: toks => j.GreedyAt i t ∧ j.GreedyParse (i + tokenSpan t) toks

end Sys2Proof.Machine
end

