-- ==== Sys2Proof/Safety.lean ====
section
/-! DEFINITION. What a safe run is, in the terms the claims use: a step completes, the memories keep their canonical form,
and every valid flag that is 1 tells the truth (10_state.md R24, R42, R43). -/

namespace Sys2Proof.Machine

/-- A step or a command that ends in a next state, neither in a fault nor in a refusal (R210). -/
def Completes (o : Host.Outcome State Fault Refusal) : Prop := ∃ t, o = .next t

/-- The four memories are in canonical form and inside their sizes (R38 to R41, R62, R74). -/
def Block.MemoriesWf (b : Block) : Prop :=
  Memory.wf Config.nodeMax b.node ∧ Memory.wf Config.nMax b.input ∧ Memory.wf Config.codedCap b.coded ∧
    Memory.wf Config.tokenCap b.token

/-- Every code is at most CODE_MAX bits long (R12(e), R37). -/
def Block.CodesBounded (b : Block) : Prop := ∀ x, (b.codeOf x).length ≤ Config.codeMax

/-- `NODE`, `H_ROOT`, `H_NNODE`, `H_NSYM` are the result of HBLD on the present FREQ (TVAL, R24). -/
def Block.TreeTrue (b : Block) : Prop :=
  b.hRoot = (buildTree b.freq).root ∧ b.hNnode.toNat = (buildTree b.freq).nodes.length ∧
    b.hNsym.toNat = (buildTree b.freq).nsym ∧
    ∀ k e, (buildTree b.freq).nodes[k]? = some e → b.nodeAt k = e

/-- `CODE` is the result of HASN on the present tree (CVAL, R24). -/
def Block.CodesTrue (b : Block) : Prop := b.code = assignCodes b.nodeAt b.hRoot

/-- `CODED[0..H_CLEN)`, `H_CLEN`, `H_PAD`, `H_ORIG`, `MEMPTY` are the result of HPCK on the present `IN[0..IN_LEN)` and
CODE (PVAL, R24), which had no reason to fail. -/
def Block.PackTrue (b : Block) : Prop :=
  b.inLen.toNat ≤ Config.nMax ∧ (∀ x ∈ b.inputBytes, b.codeOf x ≠ []) ∧ b.hOrig = b.inLen ∧
    b.status.mempty = (b.inLen == 0) ∧ b.hPad.toNat = padCount b.stream.length ∧
    b.hClen.toNat = (b.stream.length + padCount b.stream.length) / 8 ∧ b.codedBytes = packedBytes b.stream

/-- `TOKEN[0..L_NTOK)` and `L_NTOK` are the result of LCMP on the present `IN[0..IN_LEN)`, `L_WIN`, `L_LOOK` (LVAL, R24). -/
def Block.TokensTrue (b : Block) : Prop :=
  b.inLen.toNat ≤ Config.nMax ∧ b.tokenWords = b.lzTokens.map encodeToken

/-- Every valid flag that is 1 says what R24 says it says; CVAL implies TVAL and PVAL implies CVAL (R42). -/
def Block.FlagsTrue (b : Block) : Prop :=
  (b.status.tval = true → b.TreeTrue) ∧ (b.status.cval = true → b.status.tval = true ∧ b.CodesTrue) ∧
    (b.status.pval = true → b.status.cval = true ∧ b.PackTrue) ∧ (b.status.lval = true → b.TokensTrue)

/-! ## Words the claims use -/

/-- Every register and table has its reset value of R46. -/
def Block.AtResetValues (b : Block) : Prop :=
  b.status = { err := .ok, estk := false, tval := false, cval := false, pval := false, mempty := false, lval := false } ∧
    b.einfo = 0 ∧ b.inLen = 0 ∧ b.lWin = 32768 ∧ b.lLook = 258 ∧ b.hOrig = 0 ∧ b.hPad = 0 ∧ b.hClen = 0 ∧
    b.hRoot = 0x1FF ∧ b.hNnode = 0 ∧ b.hNsym = 0 ∧ b.lNtok = 0 ∧ (∀ x, b.freqOf x = 0) ∧ ∀ x, b.codeOf x = []

/-- The state after error entry with the given code and information (R217): ERR, ESTK and EINFO written, all else kept. -/
def State.raised (s : State) (e : ErrCode) (info : Word) : State :=
  { s with blk := { s.blk with status := { s.blk.status with err := e, estk := true }, einfo := info } }

/-- The block answers `buserror` to the operation in every state and changes nothing (R61, R219). -/
def Refuses (op : HostOp) : Prop :=
  ∀ (s : State) (rest : List HostOp), s.host = op :: rest →
    step s = .next { s with host := rest, reply := some .busError }

/-- Every location of the four memories reads in `b'` as in `b`, by the index and by the bus. -/
def Block.SameMemories (b b' : Block) : Prop :=
  (∀ k, b'.nodeAt k = b.nodeAt k) ∧ (∀ l, b'.readByte l = b.readByte l) ∧ ∀ k, b'.tokenAt k = b.tokenAt k

end Sys2Proof.Machine
end

