-- ==== Sys2Proof/Certificates/Slice0/Obligations.lean ====
section
/-! DEFINITION. The statements for the provers, from the numbered rules of spec/. -/

open Sys2Proof Sys2Proof.Machine

/-! ## Command words (30_encoding.md) -/

/-- R91: the ten words of the opcode map, written out, are the ten commands. -/
def Obligations.CommandWordsStandForTheirCommands : Prop :=
  decode 0x00000000 = .instr .nop ∧ decode 0x00000001 = .instr .rst ∧ decode 0x00000010 = .instr .hclr ∧
    decode 0x00000011 = .instr .hcnt ∧ decode 0x00000012 = .instr .hbld ∧ decode 0x00000013 = .instr .hasn ∧
    decode 0x00000014 = .instr .hpck ∧ decode 0x00000015 = .instr .henc ∧ decode 0x00000020 = .instr .lclr ∧
    decode 0x00000021 = .instr .lcmp

/-- R91: of all 2^32 words exactly the encodings are commands, each of exactly one command, and the encodings are the ten
opcodes of the table with zeros above. -/
def Obligations.OnlyTheTenWordsAreCommands : Prop :=
  (∀ v i, decode v = .instr i ↔ v = encode i) ∧ (∀ i, rsvField (encode i) = 0) ∧
    opField (encode .nop) = 0x00 ∧ opField (encode .rst) = 0x01 ∧ opField (encode .hclr) = 0x10 ∧
    opField (encode .hcnt) = 0x11 ∧ opField (encode .hbld) = 0x12 ∧ opField (encode .hasn) = 0x13 ∧
    opField (encode .hpck) = 0x14 ∧ opField (encode .henc) = 0x15 ∧ opField (encode .lclr) = 0x20 ∧
    opField (encode .lcmp) = 0x21

/-- R93, R212: a word that is none of the ten fails with E_OP and EINFO = the word, and changes nothing else. -/
def Obligations.IllegalWordsFailWithEOp : Prop :=
  ∀ (s : State) (v : Word) (rest : List HostOp), s.host = .wr4 0 v :: rest →
    v.toNat ∉ [0x00, 0x01, 0x10, 0x11, 0x12, 0x13, 0x14, 0x15, 0x20, 0x21] →
    step s = .next
      { blk := { s.blk with status := { s.blk.status with err := .op, estk := true }, einfo := v }
        host := rest, reply := some .ok }

/-- R97: the word of every well-formed token, for every window and lookahead the registers can hold, has the fields of the
table, and decoding it gives the token back. -/
def Obligations.TokenWordsRoundTrip : Prop :=
  (∀ t : Token, t.wf 65535 511 = true → decodeToken (encodeToken t) = t) ∧
    (∀ b : Byte, (encodeToken (.lit b)).toNat = b.toNat) ∧
    ∀ offset length : Nat, Token.wf 65535 511 (.backRef offset length) = true →
      (encodeToken (.backRef offset length)).getLsbD 31 = true ∧
        (encodeToken (.backRef offset length)).extractLsb' 25 6 = 0 ∧
        ((encodeToken (.backRef offset length)).extractLsb' 16 9).toNat = length ∧
        ((encodeToken (.backRef offset length)).extractLsb' 0 16).toNat = offset

/-! ## The bus (20_memory.md) -/

/-- R62: the two location decoders are the address map's table read backwards, and no address is both a word location and a
byte location. -/
def Obligations.AddressMapIsTheTable : Prop :=
  (∀ (a : Addr) (l : WordLoc), locateWord a = some l ↔ l.inMap = true ∧ l.addr = a.toNat) ∧
    (∀ (a : Addr) (l : ByteLoc), locateByte a = some l ↔ l.inMap = true ∧ l.addr = a.toNat) ∧
    ∀ (l : WordLoc) (l' : ByteLoc), l.inMap = true → l'.inMap = true → l.addr ≠ l'.addr

/-- R63, R64, R219: an access at an address where no location of its width starts is a bus error and changes nothing in the
block; so is a byte access of a word location and a word access of a byte location. -/
def Obligations.RefusedAccessesAreBusErrors : Prop :=
  ∀ a : Addr,
    ((∀ l : ByteLoc, l.inMap = true → l.addr ≠ a.toNat) → Refuses (.rd1 a) ∧ ∀ v, Refuses (.wr1 a v)) ∧
    ((∀ l : WordLoc, l.inMap = true → l.addr ≠ a.toNat) → Refuses (.rd4 a) ∧ ∀ v, Refuses (.wr4 a v)) ∧
    (∀ l : WordLoc, l.inMap = true → l.addr = a.toNat → Refuses (.rd1 a) ∧ ∀ v, Refuses (.wr1 a v)) ∧
    ∀ l : ByteLoc, l.inMap = true → l.addr = a.toNat → Refuses (.rd4 a) ∧ ∀ v, Refuses (.wr4 a v)

/-- R61, R69: an accepted read returns the value of its location, and the block is as before. R25 to R36, R39 to R41: that
value is the register, counter, byte or word itself, widened with zeros (STATUS, CLEN, CBITS and NODE, whose words are put
together from fields, have statements of their own). -/
def Obligations.ReadsReturnTheLocationAndChangeNothing : Prop :=
  (∀ (l : WordLoc) (s : State) (rest : List HostOp), l.inMap = true →
      s.host = .rd4 (BitVec.ofNat 32 l.addr) :: rest →
      step s = .next { s with host := rest, reply := some (.word (s.blk.readWord l)) }) ∧
    (∀ (l : ByteLoc) (s : State) (rest : List HostOp), l.inMap = true →
      s.host = .rd1 (BitVec.ofNat 32 l.addr) :: rest →
      step s = .next { s with host := rest, reply := some (.byte (s.blk.readByte l)) }) ∧
    ∀ b : Block,
      b.readWord .cmd = 0 ∧ b.readWord .einfo = b.einfo ∧ b.readWord .inLen = b.inLen ∧
        (b.readWord .lWin).toNat = b.lWin.toNat ∧ (b.readWord .lLook).toNat = b.lLook.toNat ∧
        b.readWord .hOrig = b.hOrig ∧ (b.readWord .hPad).toNat = b.hPad.toNat ∧ b.readWord .hClen = b.hClen ∧
        (b.readWord .hRoot).toNat = b.hRoot.toNat ∧ (b.readWord .hNnode).toNat = b.hNnode.toNat ∧
        (b.readWord .hNsym).toNat = b.hNsym.toNat ∧ b.readWord .lNtok = b.lNtok ∧
        (∀ x, b.readWord (.freq x) = b.freqOf x) ∧ (∀ k, b.readWord (.token k) = b.tokenAt k) ∧
        (∀ k, b.readByte (.input k) = b.inputAt k) ∧ ∀ k, b.readByte (.coded k) = b.codedAt k

/-- R67: a write of the right size to a read-only location is accepted and changes nothing; a read of CMD returns 0. -/
def Obligations.ReadOnlyWritesAreIgnored : Prop :=
  (∀ (l : WordLoc) (v : Word) (s : State) (rest : List HostOp), l.inMap = true →
      (l ∈ [WordLoc.einfo, .hOrig, .hPad, .hClen, .hRoot, .hNnode, .hNsym, .lNtok] ∨ (∃ x, l = .clen x) ∨
        (∃ x j, l = .cbits x j) ∨ (∃ k w, l = .node k w) ∨ ∃ k, l = .token k) →
      s.host = .wr4 (BitVec.ofNat 32 l.addr) v :: rest →
      step s = .next { s with host := rest, reply := some .ok }) ∧
    (∀ (k : Nat) (v : Byte) (s : State) (rest : List HostOp), k < Config.codedCap →
      s.host = .wr1 (BitVec.ofNat 32 (ByteLoc.coded k).addr) v :: rest →
      step s = .next { s with host := rest, reply := some .ok }) ∧
    ∀ (s : State) (rest : List HostOp), s.host = .rd4 0 :: rest →
      step s = .next { s with host := rest, reply := some (.word 0) }

/-- R24 (its fields and its write effect), R211 (its codes): the five results have the codes 0 to 4; STATUS reads as its
fields, the code of the result in ERR, with zeros above; and a host write affects only ESTK and only when bit 8 is written
as 1. -/
def Obligations.StatusReadsItsFieldsAndClearsOnlyEstk : Prop :=
  (ErrCode.ok.toByte = 0x00 ∧ ErrCode.op.toByte = 0x01 ∧ ErrCode.len.toByte = 0x02 ∧ ErrCode.seq.toByte = 0x03 ∧
      ErrCode.noCode.toByte = 0x04) ∧
    (∀ b : Block, (b.readWord .status).extractLsb' 0 8 = b.status.err.toByte ∧
      (b.readWord .status).getLsbD 8 = b.status.estk ∧ (b.readWord .status).getLsbD 9 = b.status.tval ∧
      (b.readWord .status).getLsbD 10 = b.status.cval ∧ (b.readWord .status).getLsbD 11 = b.status.pval ∧
      (b.readWord .status).getLsbD 12 = b.status.mempty ∧ (b.readWord .status).getLsbD 13 = b.status.lval ∧
      (b.readWord .status).extractLsb' 14 18 = 0) ∧
    ∀ (s : State) (v : Word) (rest : List HostOp), s.host = .wr4 0x4 v :: rest →
      step s = .next
        { blk := { s.blk with status := { s.blk.status with estk := s.blk.status.estk && !v.getLsbD 8 } }
          host := rest, reply := some .ok }

/-- R68: the reserved bits of every register and table word read 0, and a write of L_WIN or L_LOOK stores its field only. -/
def Obligations.ReservedBitsReadZeroAndIgnoreWrites : Prop :=
  ∀ (b : Block) (v : Word),
    (b.readWord .status).toNat < 2 ^ 14 ∧ (b.readWord .lWin).toNat < 2 ^ 16 ∧ (b.readWord .lLook).toNat < 2 ^ 9 ∧
    (b.readWord .hPad).toNat < 2 ^ 3 ∧ (b.readWord .hRoot).toNat < 2 ^ 9 ∧ (b.readWord .hNnode).toNat < 2 ^ 10 ∧
    (b.readWord .hNsym).toNat < 2 ^ 9 ∧ (∀ x, (b.readWord (.clen x)).toNat < 2 ^ 8) ∧
    (∀ k, (b.readWord (.node k 0)).toNat < 2 ^ 16 ∧ (b.readWord (.node k 0)).extractLsb' 1 7 = 0 ∧
      (b.readWord (.node k 2)).toNat < 2 ^ 8 ∧ (b.readWord (.node k 3)).toNat < 2 ^ 25 ∧
      (b.readWord (.node k 3)).extractLsb' 9 7 = 0) ∧
    ((b.writeWord v .lWin).readWord .lWin).toNat = v.toNat % 2 ^ 16 ∧
    ((b.writeWord v .lLook).readWord .lLook).toNat = v.toNat % 2 ^ 9 ∧
    (v.getLsbD 8 = false → b.writeWord v .status = b)

/-- R37: the two views of a code: CLEN is its length, and bit `i` of CBITS[x][j] is bit `32*j + i` of the code, or 0 beyond
its end. (That codes are at most 255 bits long is kept by every step: MemoriesStayCanonical.) -/
def Obligations.CodeViewsShowTheCode : Prop :=
  ∀ b : Block, b.CodesBounded → ∀ x : Byte,
    (b.readWord (.clen x)).toNat = (b.codeOf x).length ∧
      ∀ (j : BitVec 3) (i : Nat), i < 32 →
        (b.readWord (.cbits x j)).getLsbD i = (b.codeOf x).getD (32 * j.toNat + i) false

/-- R38 (the four words): the words of a NODE entry show its five fields where the rule places them. -/
def Obligations.NodeViewsShowTheEntry : Prop :=
  ∀ (b : Block) (k : Nat),
    (b.readWord (.node k 0)).toNat = (b.nodeAt k).leaf.toNat + 2 ^ 8 * (b.nodeAt k).sym.toNat ∧
      (b.readWord (.node k 1)).toNat = (b.nodeAt k).freq.toNat % 2 ^ 32 ∧
      (b.readWord (.node k 2)).toNat = (b.nodeAt k).freq.toNat / 2 ^ 32 ∧
      (b.readWord (.node k 3)).toNat = (b.nodeAt k).left.toNat + 2 ^ 16 * (b.nodeAt k).right.toNat

/-- R43: what each host write stores and invalidates; a write of CMD or STATUS and an ignored write invalidate nothing by
themselves (the command that a CMD write starts runs on the unchanged block). -/
def Obligations.HostWritesStoreAndInvalidate : Prop :=
  ∀ (s : State) (rest : List HostOp) (v : Word) (y : Byte),
    (∀ x, s.host = .wr4 (BitVec.ofNat 32 (WordLoc.freq x).addr) v :: rest →
      step s = .next
        { blk := { s.blk with
            freq := tableSet s.blk.freq x v
            status := { s.blk.status with tval := false, cval := false, pval := false } }
          host := rest, reply := some .ok }) ∧
    (∀ k, k < Config.nMax → s.host = .wr1 (BitVec.ofNat 32 (ByteLoc.input k).addr) y :: rest →
      step s = .next
        { blk := { s.blk with
            input := Memory.write s.blk.input k y
            status := { s.blk.status with pval := false, lval := false } }
          host := rest, reply := some .ok }) ∧
    (s.host = .wr4 0xC v :: rest →
      step s = .next
        { blk := { s.blk with inLen := v, status := { s.blk.status with pval := false, lval := false } }
          host := rest, reply := some .ok }) ∧
    (s.host = .wr4 0x10 v :: rest →
      step s = .next
        { blk := { s.blk with lWin := v.setWidth 16, status := { s.blk.status with lval := false } }
          host := rest, reply := some .ok }) ∧
    (s.host = .wr4 0x14 v :: rest →
      step s = .next
        { blk := { s.blk with lLook := v.setWidth 9, status := { s.blk.status with lval := false } }
          host := rest, reply := some .ok }) ∧
    (∀ i, decode v = .instr i → s.host = .wr4 0x0 v :: rest →
      step s = exec i { s with host := rest, reply := some .ok }) ∧
    (s.host = .wr4 0x4 v :: rest → ∃ t, step s = .next t ∧ t.blk.status.tval = s.blk.status.tval ∧
      t.blk.status.cval = s.blk.status.cval ∧ t.blk.status.pval = s.blk.status.pval ∧
      t.blk.status.mempty = s.blk.status.mempty ∧ t.blk.status.lval = s.blk.status.lval) ∧
    (∀ k, k < Config.codedCap → s.host = .wr1 (BitVec.ofNat 32 (ByteLoc.coded k).addr) y :: rest →
      ∃ t, step s = .next t ∧ t.blk = s.blk) ∧
    ∀ l : WordLoc, l.inMap = true → l ∉ [WordLoc.cmd, .status, .inLen, .lWin, .lLook] → (∀ x, l ≠ .freq x) →
      s.host = .wr4 (BitVec.ofNat 32 l.addr) v :: rest → ∃ t, step s = .next t ∧ t.blk = s.blk

/-- R71, R76: a location the host wrote reads as the value written (its field of it), and every other location reads as
before, but for STATUS, whose valid flags the write may clear. -/
def Obligations.WrittenLocationsReadBack : Prop :=
  ∀ (b : Block) (v : Word) (y : Byte),
    (∀ k, (b.writeByte y (.input k)).readByte (.input k) = y ∧
      (∀ l, l ≠ .input k → (b.writeByte y (.input k)).readByte l = b.readByte l) ∧
      ∀ l, l ≠ .status → (b.writeByte y (.input k)).readWord l = b.readWord l) ∧
    (∀ x, (b.writeWord v (.freq x)).readWord (.freq x) = v ∧
      ∀ l, l ≠ .freq x → l ≠ .status → (b.writeWord v (.freq x)).readWord l = b.readWord l) ∧
    ((b.writeWord v .inLen).readWord .inLen = v ∧
      ∀ l, l ≠ .inLen → l ≠ .status → (b.writeWord v .inLen).readWord l = b.readWord l) ∧
    (((b.writeWord v .lWin).readWord .lWin).toNat = v.toNat % 2 ^ 16 ∧
      ∀ l, l ≠ .lWin → l ≠ .status → (b.writeWord v .lWin).readWord l = b.readWord l) ∧
    (((b.writeWord v .lLook).readWord .lLook).toNat = v.toNat % 2 ^ 9 ∧
      ∀ l, l ≠ .lLook → l ≠ .status → (b.writeWord v .lLook).readWord l = b.readWord l) ∧
    ∀ l l', (b.writeWord v l).readByte l' = b.readByte l'

/-! ## The step -/

/-- R23, R90: when the host's next operation writes a command word to CMD, the step is that command on that state, with the
operation taken off the list and the reply `ok`. The second clause is the MODEL's own way to place a command, not a rule of
the spec (log 11, DEDUCED): `withFetchWord` puts such an operation first, so that the next step runs the command. -/
def Obligations.StepRunsTheDecodedCommand : Prop :=
  (∀ (s : State) (v : Word) (rest : List HostOp) (i : Instr), s.host = .wr4 0 v :: rest → decode v = .instr i →
      step s = exec i { s with host := rest, reply := some .ok }) ∧
    ∀ (s : State) (w : Nat) (i : Instr), decodeTableWord 32 w = some i →
      step (s.withFetchWord 32 w) = exec i { s with reply := some .ok }

/-- R15, R210, 93 section 2: every step completes, takes one operation off the host's list, and with an empty list leaves
the machine as it is (the list is the model's own form of the host, log 1). -/
def Obligations.EveryStepCompletes : Prop :=
  ∀ s : State, ∃ t, step s = .next t ∧ t.host = s.host.tail ∧ (s.host = [] → t = s)

/-- R210, R217: every command in every state ends in a success with ERR = 0, or in a failure that writes ERR, ESTK and EINFO
and nothing else; the host's list and reply are not touched. -/
def Obligations.CommandsSucceedOrOnlyRecordAnError : Prop :=
  ∀ (i : Instr) (s : State), ∃ t, exec i s = .next t ∧ t.host = s.host ∧ t.reply = s.reply ∧
    (t.blk.status.err = .ok ∨ ∃ e info, e ≠ .ok ∧ t = s.raised e info)

/-- R129, R213, R214, R215: when each error is raised and with what information; R216: HPCK reports the first that applies. -/
def Obligations.ErrorsAreRaisedInPriorityOrder : Prop :=
  ∀ s : State,
    (Config.nMax < s.blk.inLen.toNat → ∀ i ∈ [Instr.hcnt, .hpck, .henc, .lcmp],
      exec i s = .next (s.raised .len s.blk.inLen)) ∧
    (s.blk.status.tval = false → exec .hasn s = .next (s.raised .seq 0x13)) ∧
    (s.blk.inLen.toNat ≤ Config.nMax → s.blk.status.cval = false → exec .hpck s = .next (s.raised .seq 0x14)) ∧
    (s.blk.inLen.toNat ≤ Config.nMax → s.blk.status.cval = true → ∀ k, k < s.blk.inLen.toNat →
      s.blk.codeOf (s.blk.inputAt k) = [] → (∀ j, j < k → s.blk.codeOf (s.blk.inputAt j) ≠ []) →
      exec .hpck s = .next (s.raised .noCode (BitVec.ofNat 32 k))) ∧
    ∀ i ∈ [Instr.nop, .rst, .hclr, .hbld, .lclr], ∃ t, exec i s = .next t ∧ t.blk.status.err = .ok

/-- R24, R218 (the sticky bit): a step takes ESTK from 1 to 0 only by a hardware reset, by the command RST, or by a host
write of STATUS with bit 8 set. -/
def Obligations.StickyErrorIsClearedOnlyByHostOrReset : Prop :=
  ∀ s t : State, step s = .next t → s.blk.status.estk = true → t.blk.status.estk = false →
    ∃ rest, s.host = .hwReset :: rest ∨ s.host = .wr4 0 (encode .rst) :: rest ∨
      ∃ v : Word, v.getLsbD 8 = true ∧ s.host = .wr4 4 v :: rest

/-- R110, R180 (what a success leaves): a command other than RST that succeeds leaves ESTK and EINFO as they were. -/
def Obligations.SuccessKeepsStickyAndInfo : Prop :=
  ∀ (i : Instr) (s t : State), i ≠ .rst → exec i s = .next t → t.blk.status.err = .ok →
    t.blk.status.estk = s.blk.status.estk ∧ t.blk.einfo = s.blk.einfo

/-! ## Reset (10_state.md R46, 42_system_commands.md, 70_reset_and_hazards.md) -/

/-- R46: the registers and tables right after reset, and STATUS, CLEN and CBITS as the host reads them. -/
def Obligations.ResetLeavesTheResetValues : Prop :=
  State.reset.blk.AtResetValues ∧ State.reset.blk.readWord .status = 0 ∧
    (∀ x, State.reset.blk.readWord (.clen x) = 0) ∧ ∀ x j, State.reset.blk.readWord (.cbits x j) = 0

/-- R240 (the effect of the hardware reset): registers and tables at their reset values, and every byte, word and entry of
the four memories a fresh unspecified value, whatever it is (log 4, log 6). -/
def Obligations.HardwareResetForgetsEverything : Prop :=
  ∀ (s : State) (rest : List HostOp), s.host = .hwReset :: rest → ∃ t, step s = .next t ∧ t.host = rest ∧
    t.blk.AtResetValues ∧ (∀ k, t.blk.inputAt k = Config.freeInput (s.blk.resets + 1) k) ∧
    (∀ k, t.blk.codedAt k = Config.freeCoded (s.blk.resets + 1) k) ∧
    (∀ k, t.blk.tokenAt k = Config.freeToken (s.blk.resets + 1) k) ∧
    ∀ k, t.blk.nodeAt k = Config.freeNode (s.blk.resets + 1) k

/-- R181: RST gives every register and table its reset value, leaves NODE, IN, CODED and TOKEN as they were and never
fails; no other command clears ESTK, and none that succeeds writes EINFO. -/
def Obligations.RstRestoresRegistersAndKeepsMemories : Prop :=
  decode 0x00000001 = .instr .rst ∧
    (∀ s : State, ∃ t, exec .rst s = .next t ∧ t.host = s.host ∧ t.reply = s.reply ∧ t.blk.AtResetValues ∧
      s.blk.SameMemories t.blk) ∧
    ∀ (i : Instr) (s t : State), i ≠ .rst → exec i s = .next t →
      (s.blk.status.estk = true → t.blk.status.estk = true) ∧
        (t.blk.status.err = .ok → t.blk.einfo = s.blk.einfo)

/-! ## Small commands -/

/-- R180: NOP writes `STATUS.ERR` only. -/
def Obligations.NopWritesOnlyErr : Prop :=
  decode 0x00000000 = .instr .nop ∧
    ∀ s : State, exec .nop s = .next { s with blk := { s.blk with status := { s.blk.status with err := .ok } } }

/-- R111: HCLR clears FREQ, CODE, the Huffman registers and four flags, and nothing else. -/
def Obligations.HclrClearsTheHuffmanState : Prop :=
  decode 0x00000010 = .instr .hclr ∧ ∀ s : State, ∃ t, exec .hclr s = .next t ∧ (∀ x, t.blk.freqOf x = 0) ∧ (∀ x, t.blk.codeOf x = []) ∧
    t = { s with blk := { s.blk with
      freq := t.blk.freq, code := t.blk.code
      hRoot := 0x1FF, hNnode := 0, hNsym := 0, hOrig := 0, hPad := 0, hClen := 0
      status := { s.blk.status with err := .ok, tval := false, cval := false, pval := false, mempty := false } } }

/-- R151: LCLR clears L_NTOK and LVAL, and nothing else. -/
def Obligations.LclrClearsTheTokenCount : Prop :=
  decode 0x00000020 = .instr .lclr ∧ ∀ s : State, exec .lclr s = .next
    { s with blk := { s.blk with lNtok := 0, status := { s.blk.status with err := .ok, lval := false } } }

/-! ## HCNT, HBLD (40_huffman_commands.md) -/

/-- R112: HCNT with IN_LEN in range completes: FREQ[x] is the number of input bytes equal to x, as a number, the counts add
up to IN_LEN, three flags are cleared, and nothing else changes; with IN_LEN > N_MAX it raises E_LEN. -/
def Obligations.HcntCountsTheInput : Prop :=
  decode 0x00000011 = .instr .hcnt ∧ ∀ s : State,
    (s.blk.inLen.toNat ≤ Config.nMax → ∃ t, exec .hcnt s = .next t ∧
      (∀ x, (t.blk.freqOf x).toNat = s.blk.inputBytes.count x) ∧
      (symbols.map fun x => (t.blk.freqOf x).toNat).sum = s.blk.inLen.toNat ∧
      t = { s with blk := { s.blk with
        freq := t.blk.freq
        status := { s.blk.status with err := .ok, tval := false, cval := false, pval := false } } }) ∧
    (Config.nMax < s.blk.inLen.toNat → exec .hcnt s = .next (s.raised .len s.blk.inLen))

/-- R115 (and the frame of R114): HBLD completes in every state. It makes one leaf for each symbol with a non-zero count, in
ascending order of symbol, sets and clears its flags, and leaves all else as it was, NODE beyond H_NNODE included. -/
def Obligations.HbldMakesTheLeavesInOrder : Prop :=
  ∀ s : State, ∃ t, exec .hbld s = .next t ∧ t.blk.hNsym.toNat = (codedSymbols s.blk.freq).length ∧
    (∀ k x, (codedSymbols s.blk.freq)[k]? = some x →
      t.blk.nodeAt k =
        { leaf := true, sym := x, freq := (s.blk.freqOf x).setWidth 40, left := 0x1FF, right := 0x1FF }) ∧
    (∀ k, t.blk.hNnode.toNat ≤ k → t.blk.nodeAt k = s.blk.nodeAt k) ∧
    t = { s with blk := { s.blk with
      node := t.blk.node, hRoot := t.blk.hRoot, hNnode := t.blk.hNnode, hNsym := t.blk.hNsym
      status := { s.blk.status with err := .ok, tval := true, cval := false, pval := false } } }

/-- R118, R119: with one symbol the leaf gets a synthetic root as its left child; with none there is no tree and no entry of
NODE is written. -/
def Obligations.HbldOfOneOrNoSymbol : Prop :=
  ∀ s t : State, exec .hbld s = .next t →
    ((codedSymbols s.blk.freq).length = 0 →
      t.blk.hNnode = 0 ∧ t.blk.hRoot = 0x1FF ∧ ∀ k, t.blk.nodeAt k = s.blk.nodeAt k) ∧
    ((codedSymbols s.blk.freq).length = 1 →
      t.blk.hNnode = 2 ∧ t.blk.hRoot = 1 ∧
        t.blk.nodeAt 1 =
          { leaf := false, sym := 0, freq := (t.blk.nodeAt 0).freq, left := 0, right := 0x1FF })

/-- R116, R117: with k >= 2 symbols each internal node in order of index merges the two live nodes with the least keys, the
lesser on the left, and its frequency is their exact sum; the last one is the root. -/
def Obligations.HbldMergesTheTwoLeastLiveNodes : Prop :=
  ∀ (s : State) (k : Nat), (codedSymbols s.blk.freq).length = k → 2 ≤ k → ∃ t, exec .hbld s = .next t ∧
    t.blk.hNnode.toNat = 2 * k - 1 ∧ t.blk.hRoot.toNat = 2 * k - 2 ∧
    ∀ m, k ≤ m → m < 2 * k - 1 → MergedAt t.blk.nodeAt k m

/-- R120 (k >= 2): internal nodes have two different children of smaller index, every node but the root is the child of
exactly one node, the frequencies of the internal nodes do not decrease, and the root's is the sum of all FREQ. -/
def Obligations.HbldMakesATree : Prop :=
  ∀ (s t : State) (k : Nat), (codedSymbols s.blk.freq).length = k → 2 ≤ k → exec .hbld s = .next t →
    (∀ m, k ≤ m → m < 2 * k - 1 →
      (t.blk.nodeAt m).left.toNat < m ∧ (t.blk.nodeAt m).right.toNat < m ∧
        (t.blk.nodeAt m).left ≠ (t.blk.nodeAt m).right) ∧
    (∀ q, q < 2 * k - 2 → ∃! m, (k ≤ m ∧ m < 2 * k - 1) ∧
      ((t.blk.nodeAt m).left.toNat = q ∨ (t.blk.nodeAt m).right.toNat = q)) ∧
    (∀ m, k ≤ m → m + 1 < 2 * k - 1 → (t.blk.nodeAt m).freq.toNat ≤ (t.blk.nodeAt (m + 1)).freq.toNat) ∧
    (t.blk.nodeAt (2 * k - 2)).freq.toNat = (symbols.map fun x => (s.blk.freqOf x).toNat).sum

/-! ## HASN and the codes -/

/-- R121: HASN with TVAL = 1 completes and changes CODE and its flags only; the code of a symbol is the sequence of branches
from the root to its leaf (every other symbol has the empty code), wherever TVAL tells the truth, which every step keeps
(ValidFlagsStayTrue); without a valid tree it raises E_SEQ(0x13). -/
def Obligations.HasnAssignsThePathToEachLeaf : Prop :=
  decode 0x00000013 = .instr .hasn ∧ ∀ s : State,
    (s.blk.status.tval = true → ∃ t, exec .hasn s = .next t ∧
      t = { s with blk := { s.blk with
        code := t.blk.code, status := { s.blk.status with err := .ok, cval := true, pval := false } } } ∧
      (s.blk.FlagsTrue → ∀ x c, (t.blk.codeOf x = c ∧ c ≠ []) ↔
        (s.blk.hRoot ≠ 0x1FF ∧ ∃ n, followPath s.blk.nodeAt s.blk.hRoot c = some n ∧
          (s.blk.nodeAt n.toNat).leaf = true ∧ (s.blk.nodeAt n.toNat).sym = x))) ∧
    (s.blk.status.tval = false → exec .hasn s = .next (s.raised .seq 0x13))

/-- R122 (a), (b), (c): where the codes are valid, exactly the symbols with a non-zero count have one, no code is longer
than 255 bits, and none is a prefix of the code of another symbol. -/
def Obligations.CodesArePrefixFree : Prop :=
  ∀ b : Block, b.FlagsTrue → b.status.cval = true →
    (∀ x, b.codeOf x ≠ [] ↔ b.freqOf x ≠ 0) ∧ (∀ x, (b.codeOf x).length ≤ 255) ∧
      ∀ x y, b.codeOf x ≠ [] → b.codeOf x <+: b.codeOf y → x = y

/-- R122 (d): with two or more symbols every infinite bit sequence begins with exactly one code; with one symbol no code
begins with 1. -/
def Obligations.CodesAreComplete : Prop :=
  ∀ b : Block, b.FlagsTrue → b.status.cval = true →
    (2 ≤ b.hNsym.toNat → ∀ f : Nat → Bool,
      ∃! x, b.codeOf x ≠ [] ∧ b.codeOf x = (List.range (b.codeOf x).length).map f) ∧
    (b.hNsym = 1 → ∀ x, (b.codeOf x).head? ≠ some true)

/-! ## HPCK and HENC -/

/-- R66: `bytes_msb` takes bit `8*j + t` with the weight `2^(7-t)` of byte `j`, and `bits_msb` is its inverse. -/
def Obligations.BytesAreFilledFromTheTopBit : Prop :=
  (∀ xs : Bits, xs.length % 8 = 0 →
    (bytesMsb xs).length = xs.length / 8 ∧ bitsMsb (bytesMsb xs) = xs ∧
      ∀ j, j < xs.length / 8 → ((bytesMsb xs).getD j 0).toNat =
        ((List.range 8).map fun t => (xs.getD (8 * j + t) false).toNat * 2 ^ (7 - t)).sum) ∧
    ∀ ys : List Byte, bytesMsb (bitsMsb ys) = ys ∧ (bitsMsb ys).length = 8 * ys.length ∧
      ∀ j t, j < ys.length → t < 8 →
        ((bitsMsb ys).getD (8 * j + t) false).toNat = (ys.getD j 0).toNat / 2 ^ (7 - t) % 2

/-- R124, R125, R126, R127: HPCK with valid codes that cover the input completes: CODED holds the concatenated codes padded
with zeros to a multiple of 8 bits, H_PAD, H_CLEN, H_ORIG, MEMPTY and PVAL are as the rules say, and nothing else changes,
CODED beyond H_CLEN included. (That codes are at most 255 bits long is kept by every step: MemoriesStayCanonical.) -/
def Obligations.HpckPacksTheCodes : Prop :=
  ∀ (s : State) (stream : Bits), s.blk.CodesBounded → s.blk.inLen.toNat ≤ Config.nMax → s.blk.status.cval = true →
    (∀ k, k < s.blk.inLen.toNat → s.blk.codeOf (s.blk.inputAt k) ≠ []) →
    stream = (List.range s.blk.inLen.toNat).flatMap (fun k => s.blk.codeOf (s.blk.inputAt k)) →
    stream.length ≤ 255 * s.blk.inLen.toNat ∧ ∃ t, exec .hpck s = .next t ∧
      t.blk.hPad.toNat = (8 - stream.length % 8) % 8 ∧
      t.blk.hClen.toNat = (stream.length + t.blk.hPad.toNat) / 8 ∧
      t.blk.codedBytes = bytesMsb (stream ++ List.replicate t.blk.hPad.toNat false) ∧
      (∀ k, t.blk.hClen.toNat ≤ k → t.blk.codedAt k = s.blk.codedAt k) ∧
      t = { s with blk := { s.blk with
        coded := t.blk.coded, hClen := t.blk.hClen, hPad := t.blk.hPad, hOrig := s.blk.inLen
        status := { s.blk.status with err := .ok, pval := true, mempty := decide (s.blk.inLen = 0) } } }

/-- R130, R131: HENC with IN_LEN in range completes: the counts, the tree, the codes and the packed stream are those of the
input, every input byte has a code, and nothing outside the HUF unit's outputs changes. -/
def Obligations.HencEncodesTheInput : Prop :=
  ∀ s : State, s.blk.inLen.toNat ≤ Config.nMax → ∃ t, exec .henc s = .next t ∧
    (∀ x, (t.blk.freqOf x).toNat = s.blk.inputBytes.count x) ∧ t.blk.TreeTrue ∧ t.blk.CodesTrue ∧ t.blk.PackTrue ∧
    (∀ k, t.blk.hNnode.toNat ≤ k → t.blk.nodeAt k = s.blk.nodeAt k) ∧
    (∀ k, t.blk.hClen.toNat ≤ k → t.blk.codedAt k = s.blk.codedAt k) ∧
    t = { s with blk := { s.blk with
      freq := t.blk.freq, code := t.blk.code, node := t.blk.node, coded := t.blk.coded
      hRoot := t.blk.hRoot, hNnode := t.blk.hNnode, hNsym := t.blk.hNsym
      hOrig := s.blk.inLen, hPad := t.blk.hPad, hClen := t.blk.hClen
      status := { s.blk.status with
        err := .ok, tval := true, cval := true, pval := true, mempty := decide (s.blk.inLen = 0) } } }

/-- R130, R131: HENC is the five stage commands run one after the other, none of which fails. -/
def Obligations.HencIsTheStageSequence : Prop :=
  ∀ s : State, s.blk.inLen.toNat ≤ Config.nMax → ∃ s1 s2 s3 s4 t,
    exec .hclr s = .next s1 ∧ exec .hcnt s1 = .next s2 ∧ exec .hbld s2 = .next s3 ∧ exec .hasn s3 = .next s4 ∧
      exec .hpck s4 = .next t ∧ t.blk.status.err = .ok ∧ exec .henc s = .next t

/-- R130 (what the result depends on): two states with the same input give the same counts, tree, codes, coded bytes and
Huffman registers and flags, whatever else they hold. -/
def Obligations.HencDependsOnTheInputAlone : Prop :=
  ∀ s s' t t' : State, s.blk.inLen = s'.blk.inLen → s.blk.inputBytes = s'.blk.inputBytes →
    s.blk.inLen.toNat ≤ Config.nMax → exec .henc s = .next t → exec .henc s' = .next t' →
    t.blk.freq = t'.blk.freq ∧ t.blk.code = t'.blk.code ∧ t.blk.hRoot = t'.blk.hRoot ∧
      t.blk.hNnode = t'.blk.hNnode ∧ t.blk.hNsym = t'.blk.hNsym ∧ t.blk.hOrig = t'.blk.hOrig ∧
      t.blk.hPad = t'.blk.hPad ∧ t.blk.hClen = t'.blk.hClen ∧ t.blk.codedBytes = t'.blk.codedBytes ∧
      t.blk.metadata = t'.blk.metadata ∧ ∀ k, k < t.blk.hNnode.toNat → t.blk.nodeAt k = t'.blk.nodeAt k

/-- R128 (b), R197, R130 (the corner cases): HENC on an input of one distinct byte gives it the code "0" and coded bytes
that are all zero; on the empty input there is no tree, no code and no coded byte. -/
def Obligations.HencOfDegenerateInputs : Prop :=
  ∀ s : State, s.blk.inLen.toNat ≤ Config.nMax → ∃ t, exec .henc s = .next t ∧
    (∀ x, 0 < s.blk.inLen.toNat → (∀ k, k < s.blk.inLen.toNat → s.blk.inputAt k = x) →
      t.blk.codeOf x = [false] ∧ t.blk.hNnode = 2 ∧ t.blk.hRoot = 1 ∧
        t.blk.codedBytes = List.replicate ((s.blk.inLen.toNat + 7) / 8) 0 ∧
        t.blk.hPad.toNat = (8 - s.blk.inLen.toNat % 8) % 8 ∧ t.blk.hOrig = s.blk.inLen ∧
        hdec t.blk.codedBytes t.blk.metadata = some (List.replicate s.blk.inLen.toNat x)) ∧
    (s.blk.inLen = 0 →
      (∀ x, t.blk.freqOf x = 0) ∧ (∀ x, t.blk.codeOf x = []) ∧ t.blk.hNsym = 0 ∧ t.blk.hNnode = 0 ∧
        t.blk.hRoot = 0x1FF ∧ t.blk.hClen = 0 ∧ t.blk.hPad = 0 ∧ t.blk.hOrig = 0 ∧ t.blk.status.mempty = true ∧
        ∀ k, t.blk.codedAt k = s.blk.codedAt k)

/-- R195: where the pack is valid, decoding the coded bytes with the metadata gives the input back. -/
def Obligations.HuffmanRoundTrip : Prop :=
  ∀ b : Block, b.FlagsTrue → b.status.pval = true → hdec b.codedBytes b.metadata = some b.inputBytes

/-- R191, exit by exit and step by step. Empty metadata decodes to nothing; padding beyond the bits is an error; symbols
expected without a tree are an error; nothing expected is nothing decoded. Otherwise the result is the walk over the bits
before the padding, from the root of the tree of HBLD: bits that run out are an error, a missing child is an error, 0 goes
left and 1 goes right, a leaf emits its symbol and the walk goes on from the root. So fewer bits than symbols are an error,
so is a bit 1 before the last symbol of a one-symbol table, and what is decoded has exactly the original length. -/
def Obligations.HdecExitsAndLength : Prop :=
  (∀ (ys : List Byte) (freq : Vector Word 256) (padding : BitVec 3) (n : Word),
    hdec ys .empty = some [] ∧
    (8 * ys.length < padding.toNat → hdec ys (.triple freq padding n) = none) ∧
    (padding.toNat ≤ 8 * ys.length → n = 0 → hdec ys (.triple freq padding n) = some []) ∧
    ((∀ x, tableGet freq x = 0) → n ≠ 0 → hdec ys (.triple freq padding n) = none) ∧
    (padding.toNat ≤ 8 * ys.length → (∃ x, tableGet freq x ≠ 0) →
      hdec ys (.triple freq padding n) =
        hdecWalk (buildTree freq).nodes (buildTree freq).root ((bitsMsb ys).take (8 * ys.length - padding.toNat))
          (buildTree freq).root n.toNat) ∧
    (8 * ys.length - padding.toNat < n.toNat → hdec ys (.triple freq padding n) = none) ∧
    (∀ t, (codedSymbols freq).length = 1 → t < n.toNat → t < 8 * ys.length - padding.toNat →
      (bitsMsb ys).getD t false = true → hdec ys (.triple freq padding n) = none) ∧
    ∀ out, hdec ys (.triple freq padding n) = some out → out.length = n.toNat) ∧
  ∀ (nodes : List NodeEntry) (root x child : NodeIx) (bit : Bool) (rest bits : Bits) (need : Nat) (e c : NodeEntry),
    hdecWalk nodes root bits x 0 = some [] ∧
    hdecWalk nodes root [] x (need + 1) = none ∧
    (nodes[x.toNat]? = some e → (if bit then e.right else e.left) = child →
      (child = 0x1FF → hdecWalk nodes root (bit :: rest) x (need + 1) = none) ∧
      (child ≠ 0x1FF → nodes[child.toNat]? = some c →
        (c.leaf = true → hdecWalk nodes root (bit :: rest) x (need + 1) =
          (hdecWalk nodes root rest root need).map (c.sym :: ·)) ∧
        (c.leaf = false → hdecWalk nodes root (bit :: rest) x (need + 1) =
          hdecWalk nodes root rest child (need + 1))))

/-! ## LCMP (41_lz77_commands.md) -/

/-- R156: the match length is the greatest length within the lookahead, the input and the candidate's distance over which
the bytes agree. -/
def Obligations.MatchLengthIsTheGreatest : Prop :=
  ∀ (j : LzJob) (p i len : Nat),
    (len ≤ j.look ∧ len ≤ j.n - i ∧ len ≤ i - p ∧ ∀ t, t < len → j.byteAt (p + t) = j.byteAt (i + t)) ↔
      len ≤ j.mlen p i

/-- R162: LCMP with IN_LEN in range completes, its tokens are the greedy parse of the input, which needs no dictionary, and
nothing but TOKEN[0..L_NTOK), L_NTOK, LVAL and ERR changes (R152). -/
def Obligations.LcmpEmitsTheGreedyParse : Prop :=
  ∀ s : State, s.blk.inLen.toNat ≤ Config.nMax → ∃ t, exec .lcmp s = .next t ∧
    LzJob.GreedyParse
      { byteAt := s.blk.inputAt, n := s.blk.inLen.toNat, window := s.blk.lWin.toNat, look := s.blk.lLook.toNat
        prune := Config.pruneInterval } 0 t.blk.tokens ∧
    (∀ k, t.blk.lNtok.toNat ≤ k → t.blk.tokenAt k = s.blk.tokenAt k) ∧
    t = { s with blk := { s.blk with
      token := t.blk.token, lNtok := t.blk.lNtok, status := { s.blk.status with err := .ok, lval := true } } }

/-- R163: LCMP succeeds on every content; every word it writes is the word of a well-formed token, the tokens stand for stretches that add up to the
input, and there are at most IN_LEN of them. -/
def Obligations.LcmpTokensAreWellFormed : Prop :=
  ∀ s t : State, s.blk.inLen.toNat ≤ Config.nMax → exec .lcmp s = .next t →
    t.blk.status.err = .ok ∧
      (∀ tok ∈ t.blk.tokens, tok.wf s.blk.lWin.toNat s.blk.lLook.toNat = true ∧ 1 ≤ tokenSpan tok) ∧
      t.blk.tokenWords = t.blk.tokens.map encodeToken ∧
      (t.blk.tokens.map tokenSpan).sum = s.blk.inLen.toNat ∧ t.blk.lNtok.toNat ≤ s.blk.inLen.toNat

/-- R164: no match that LCMP writes is longer than its offset. -/
def Obligations.LcmpMatchesNeverOverlap : Prop :=
  ∀ (s t : State) (offset length : Nat), s.blk.inLen.toNat ≤ Config.nMax → exec .lcmp s = .next t →
    Token.backRef offset length ∈ t.blk.tokens → length ≤ offset

/-- R161: the tokens are the same for every PRUNE_INTERVAL, one that never comes included. -/
def Obligations.CompactionChangesNoToken : Prop :=
  ∀ (j : LzJob) (prune : Nat), LzJob.tokens { j with prune := prune } = j.tokens

/-- R165, R44 ("at once"): the dictionary holds at most W + PRUNE_INTERVAL - 1 + max(L, 1) positions, at the end of every
round and at every moment inside it: after any number of the registrations of the next round, before that round compacts. -/
def Obligations.DictionaryStaysBounded : Prop :=
  ∀ (j : LzJob) (k : Nat), 1 ≤ j.prune →
    (j.rounds k LzRun.start).dict.occupancy ≤ j.window + j.prune - 1 + max j.look 1 ∧
      ∀ r, r = j.rounds k LzRun.start → ∀ m, m ≤ j.stepOf r →
        (j.filled r m).occupancy ≤ j.window + j.prune - 1 + max j.look 1

/-- R196: where the token stream is valid, decompressing it gives the input back. -/
def Obligations.LzRoundTrip : Prop :=
  ∀ b : Block, b.FlagsTrue → b.status.lval = true → lzdec b.tokens = some b.inputBytes

/-- R193: a match copies byte by byte, each copied byte visible to the next read, also where the offset is smaller than the
length; an offset of 0 or beyond the output is an error, and a literal appends its byte. -/
def Obligations.LzdecCopiesByteByByte : Prop :=
  ∀ (out : List Byte) (offset length : Nat) (b : Byte) (toks : List Token),
    lzdec toks = lzdecFrom toks [] ∧ lzdecFrom [] out = some out ∧
    lzdecFrom (.lit b :: toks) out = lzdecFrom toks (out ++ [b]) ∧
    (offset < 1 ∨ out.length < offset → lzdecFrom (.backRef offset length :: toks) out = none) ∧
    (1 ≤ offset → offset ≤ out.length → ∃ out',
      lzdecFrom (.backRef offset length :: toks) out = lzdecFrom toks out' ∧ out'.length = out.length + length ∧
        out <+: out' ∧
        ∀ c, c < length → out'[out.length + c]? = out'[out.length + c - offset]?)

/-! ## Frames and whole-machine rules -/

/-- R110 (last sentence): no Huffman command writes IN, IN_LEN, L_WIN, L_LOOK, TOKEN, L_NTOK or LVAL. -/
def Obligations.HuffmanCommandsLeaveTheLzUnit : Prop :=
  ∀ i ∈ [Instr.hclr, .hcnt, .hbld, .hasn, .hpck, .henc], ∀ s t : State, exec i s = .next t →
    (∀ k, t.blk.inputAt k = s.blk.inputAt k) ∧ t.blk.inLen = s.blk.inLen ∧ t.blk.lWin = s.blk.lWin ∧
      t.blk.lLook = s.blk.lLook ∧ (∀ k, t.blk.tokenAt k = s.blk.tokenAt k) ∧ t.blk.lNtok = s.blk.lNtok ∧
      t.blk.status.lval = s.blk.status.lval

/-- R150 (last sentence): no LZ command writes a Huffman register, table or flag, IN, IN_LEN, L_WIN or L_LOOK. -/
def Obligations.LzCommandsLeaveTheHuffmanUnit : Prop :=
  ∀ i ∈ [Instr.lclr, .lcmp], ∀ s t : State, exec i s = .next t →
    (∀ k, t.blk.inputAt k = s.blk.inputAt k) ∧ (∀ k, t.blk.nodeAt k = s.blk.nodeAt k) ∧
      (∀ k, t.blk.codedAt k = s.blk.codedAt k) ∧
      t = { s with blk := { s.blk with
        token := t.blk.token, lNtok := t.blk.lNtok, einfo := t.blk.einfo
        status := { s.blk.status with
          err := t.blk.status.err, estk := t.blk.status.estk, lval := t.blk.status.lval } } }

/-- The frame of the commands that store in none of the four memories (R111, R112, R121, R151, R180, R181). -/
def Obligations.RegisterCommandsStoreInNoMemory : Prop :=
  ∀ i ∈ [Instr.nop, .rst, .hclr, .hcnt, .hasn, .lclr], ∀ s t : State, exec i s = .next t → s.blk.SameMemories t.blk

/-- The frame of the commands that store (R114, R123, R130, R152, R74): outside NODE[0..H_NNODE), CODED[0..H_CLEN) and
TOKEN[0..L_NTOK) of the new state every location of the memories reads as before, for the memory each command stores to. -/
def Obligations.StoringCommandsKeepTheRest : Prop :=
  ∀ s t : State, s.blk.CodesBounded →
    (exec .hbld s = .next t →
      (∀ k, t.blk.hNnode.toNat ≤ k → t.blk.nodeAt k = s.blk.nodeAt k) ∧ (∀ l, t.blk.readByte l = s.blk.readByte l) ∧
        ∀ k, t.blk.tokenAt k = s.blk.tokenAt k) ∧
    (exec .hpck s = .next t →
      (∀ k, t.blk.status.err ≠ .ok ∨ t.blk.hClen.toNat ≤ k → t.blk.codedAt k = s.blk.codedAt k) ∧
        (∀ k, t.blk.inputAt k = s.blk.inputAt k) ∧ (∀ k, t.blk.nodeAt k = s.blk.nodeAt k) ∧
        ∀ k, t.blk.tokenAt k = s.blk.tokenAt k) ∧
    (exec .henc s = .next t →
      (∀ k, t.blk.status.err ≠ .ok ∨ t.blk.hNnode.toNat ≤ k → t.blk.nodeAt k = s.blk.nodeAt k) ∧
        (∀ k, t.blk.status.err ≠ .ok ∨ t.blk.hClen.toNat ≤ k → t.blk.codedAt k = s.blk.codedAt k) ∧
        (∀ k, t.blk.inputAt k = s.blk.inputAt k) ∧ ∀ k, t.blk.tokenAt k = s.blk.tokenAt k) ∧
    (exec .lcmp s = .next t →
      (∀ k, t.blk.status.err ≠ .ok ∨ t.blk.lNtok.toNat ≤ k → t.blk.tokenAt k = s.blk.tokenAt k) ∧
        (∀ k, t.blk.nodeAt k = s.blk.nodeAt k) ∧ ∀ l, t.blk.readByte l = s.blk.readByte l)

/-- R243 (its last sentence): HENC and LCMP on one input, in either order, end in the same state. -/
def Obligations.HencAndLcmpCommute : Prop :=
  ∀ s : State, ∃ a b t, exec .henc s = .next a ∧ exec .lcmp a = .next t ∧ exec .lcmp s = .next b ∧
    exec .henc b = .next t

/-- R42, R43, R24: in every step from a state whose valid flags tell the truth, they tell the truth after it. -/
def Obligations.ValidFlagsStayTrue : Prop :=
  ∀ s t : State, s.blk.FlagsTrue → step s = .next t → t.blk.FlagsTrue

/-- In every step the four memories stay inside their sizes (R38 to R41, R74) and no code is longer than 255 bits (R37).
That a memory is a list of its written entries with strictly rising indices is the MODEL's own form, not a rule of the spec
(log 5, DESIGN CHOICE). -/
def Obligations.MemoriesStayCanonical : Prop :=
  ∀ s t : State, s.blk.MemoriesWf → s.blk.CodesBounded → step s = .next t → t.blk.MemoriesWf ∧ t.blk.CodesBounded

/-- The invariants hold right after reset. That the memories, which R46 leaves unspecified, list nothing then, and that they
are lists in canonical form at all, is the MODEL's own (log 4 and log 5, DESIGN CHOICE). -/
def Obligations.ResetMeetsTheInvariants : Prop :=
  State.reset.blk.FlagsTrue ∧ State.reset.blk.MemoriesWf ∧ State.reset.blk.CodesBounded
end

