-- ==== Sys2Proof/Laws/Memory.lean ====
section
/-! SUPPORT. The laws of the memories and of the tables: read after write, and that every operation keeps the canonical
form. -/

namespace Sys2Proof.Machine

variable {α : Type}

/-! ## Reading -/

@[simp] theorem Memory.lookup_nil (k : Nat) : Memory.lookup ([] : Memory α) k = none := rfl

theorem Memory.lookup_cons (a : Nat) (v : α) (m : Memory α) (k : Nat) :
    Memory.lookup ((a, v) :: m) k = if k = a then some v else Memory.lookup m k := rfl

theorem Memory.lookup_append (m m' : Memory α) (k : Nat) :
    Memory.lookup (m ++ m') k = (Memory.lookup m k).or (Memory.lookup m' k) := by
  induction m with
  | nil => simp
  | cons x m ih =>
    obtain ⟨a, v⟩ := x
    by_cases h : k = a <;> simp [Memory.lookup_cons, h, ih]

/-- An index below every listed one has not been written. -/
theorem Memory.lookup_eq_none_of_forall_ne (m : Memory α) (k : Nat) (h : ∀ x ∈ m, x.1 ≠ k) : Memory.lookup m k = none := by
  induction m with
  | nil => rfl
  | cons x m ih =>
    obtain ⟨a, v⟩ := x
    have ha : k ≠ a := fun e => h (a, v) (by simp) e.symm
    simp [Memory.lookup_cons, ha, ih fun y hy => h y (by simp [hy])]

theorem Memory.lookup_filter (m : Memory α) (p : Nat → Bool) (k : Nat) :
    Memory.lookup (m.filter fun c => p c.1) k = if p k then Memory.lookup m k else none := by
  induction m with
  | nil => simp
  | cons x m ih =>
    obtain ⟨a, v⟩ := x
    by_cases hk : k = a
    · subst hk
      by_cases hp : p k
      · simp [hp, Memory.lookup_cons]
      · simp [hp, ih]
    · by_cases hp : p a
      · simp [hp, Memory.lookup_cons, hk, ih]
      · simp [hp, Memory.lookup_cons, hk, ih]

/-! ## One write -/

/-- A read after a write of the same index gives the value written (R76). -/
@[simp] theorem Memory.lookup_write_self (m : Memory α) (k : Nat) (v : α) : Memory.lookup (m.write k v) k = some v := by
  induction m with
  | nil => simp [Memory.write, Memory.lookup_cons]
  | cons x m ih =>
    obtain ⟨a, w⟩ := x
    by_cases h1 : k < a
    · simp [Memory.write, h1, Memory.lookup_cons]
    · by_cases h2 : k = a
      · simp [Memory.write, h2, Memory.lookup_cons]
      · simp [Memory.write, h1, h2, Memory.lookup_cons, ih]

/-- A write leaves every other index alone (R76). -/
theorem Memory.lookup_write_of_ne (m : Memory α) (k k' : Nat) (v : α) (h : k' ≠ k) :
    Memory.lookup (m.write k v) k' = Memory.lookup m k' := by
  induction m with
  | nil => simp [Memory.write, Memory.lookup_cons, h]
  | cons x m ih =>
    obtain ⟨a, w⟩ := x
    by_cases h1 : k < a
    · simp [Memory.write, h1, Memory.lookup_cons, h]
    · by_cases h2 : k = a
      · subst h2; simp [Memory.write, Memory.lookup_cons, h]
      · simp [Memory.write, h1, h2, Memory.lookup_cons, ih]

/-- Every entry after a write is the written one or one that was there. -/
theorem Memory.mem_write (m : Memory α) (k : Nat) (v : α) (x : Nat × α) (h : x ∈ m.write k v) : x = (k, v) ∨ x ∈ m := by
  induction m with
  | nil => simpa [Memory.write] using h
  | cons y m ih =>
    obtain ⟨a, w⟩ := y
    by_cases h1 : k < a
    · simpa [Memory.write, h1] using h
    · by_cases h2 : k = a
      · simp only [Memory.write, h2, lt_irrefl, if_false, if_true, List.mem_cons] at h ⊢
        tauto
      · simp only [Memory.write, h1, h2, if_false, List.mem_cons] at h ⊢
        rcases h with h | h
        · exact .inr (.inl h)
        · exact (ih h).imp id .inr

theorem Memory.wf_nil (size : Nat) : Memory.wf size ([] : Memory α) := ⟨List.Pairwise.nil, by simp⟩

/-- A write inside the memory keeps the canonical form. -/
theorem Memory.wf_write (size : Nat) (m : Memory α) (k : Nat) (v : α) (hk : k < size) (h : Memory.wf size m) :
    Memory.wf size (m.write k v) := by
  refine ⟨?_, fun x hx => ?_⟩
  · obtain ⟨hs, -⟩ := h
    induction m with
    | nil => simp [Memory.write]
    | cons y m ih =>
      obtain ⟨a, w⟩ := y
      rw [List.pairwise_cons] at hs
      by_cases h1 : k < a
      · simp only [Memory.write, h1, if_true, List.pairwise_cons]
        refine ⟨fun x hx => ?_, hs.1, hs.2⟩
        rcases List.mem_cons.1 hx with rfl | hx
        · exact h1
        · exact h1.trans (hs.1 x hx)
      · by_cases h2 : k = a
        · simp only [Memory.write, h2, lt_irrefl, if_false, if_true, List.pairwise_cons]
          exact hs
        · simp only [Memory.write, h1, h2, if_false, List.pairwise_cons]
          refine ⟨fun x hx => ?_, ih hs.2⟩
          rcases Memory.mem_write m k v x hx with rfl | hx
          · show a < k; omega
          · exact hs.1 x hx
  · rcases Memory.mem_write m k v x hx with rfl | hx
    · exact hk
    · exact h.2 x hx

/-! ## Writing the first entries -/

theorem Memory.lookup_swap_zipIdx (xs : List α) (k n : Nat) :
    Memory.lookup ((xs.zipIdx n).map fun p => (p.2, p.1)) k = if n ≤ k then xs[k - n]? else none := by
  induction xs generalizing n with
  | nil => simp
  | cons x xs ih =>
    rw [List.zipIdx_cons, List.map_cons, Memory.lookup_cons, ih]
    by_cases h1 : k = n
    · simp [h1]
    · by_cases h2 : n ≤ k
      · have h3 : n + 1 ≤ k := by omega
        have h4 : k - n = k - (n + 1) + 1 := by omega
        simp [h1, h2, h3, h4]
      · have h3 : ¬ n + 1 ≤ k := by omega
        simp [h1, h2, h3]

/-- What a read gives after the first entries are written: entry `k` of the new ones, and the old entry beyond them. -/
theorem Memory.lookup_writeFirst (m : Memory α) (xs : List α) (k : Nat) :
    Memory.lookup (m.writeFirst xs) k = if xs.length ≤ k then Memory.lookup m k else xs[k]? := by
  have hf : Memory.lookup (m.filter fun c => xs.length ≤ c.1) k = if xs.length ≤ k then Memory.lookup m k else none := by
    simpa using Memory.lookup_filter m (fun a => decide (xs.length ≤ a)) k
  rw [Memory.writeFirst, Memory.lookup_append, Memory.lookup_swap_zipIdx, hf]
  by_cases h : xs.length ≤ k
  · simp [h]
  · simp [h]

/-- Writing the first entries keeps the canonical form, if the new entries fit. -/
theorem Memory.wf_writeFirst (size : Nat) (m : Memory α) (xs : List α) (hx : xs.length ≤ size) (h : Memory.wf size m) :
    Memory.wf size (m.writeFirst xs) := by
  have hkey : ∀ x ∈ xs.zipIdx.map (fun p => (p.2, p.1)), x.1 < xs.length := by
    intro x hxs
    obtain ⟨p, hp, rfl⟩ := List.mem_map.1 hxs
    have := (List.mem_zipIdx hp).2.1
    simpa using this
  refine ⟨?_, fun x hm => ?_⟩
  · rw [Memory.writeFirst, List.pairwise_append]
    refine ⟨?_, h.1.filter _, fun x hx' y hy => ?_⟩
    · rw [List.pairwise_iff_getElem]
      intro i j hi hj hij
      simpa using hij
    · have h1 := hkey x hx'
      have h2 := (List.mem_filter.1 hy).2
      simp only [decide_eq_true_eq] at h2
      omega
  · rw [Memory.writeFirst, List.mem_append] at hm
    rcases hm with hm | hm
    · exact (hkey x hm).trans_le hx
    · exact h.2 x (List.mem_filter.1 hm).1

/-! ## The four memories of the block -/

/-- NODE reads the entries just written, and the others as before (R38, R76). -/
theorem Block.nodeAt_writeFirst (b : Block) (xs : List NodeEntry) (k : Nat) :
    ({ b with node := b.node.writeFirst xs } : Block).nodeAt k = (xs[k]?).getD (b.nodeAt k) := by
  by_cases h : xs.length ≤ k
  · simp [Block.nodeAt, Memory.lookup_writeFirst, h]
  · simp [Block.nodeAt, Memory.lookup_writeFirst, h, List.getElem?_eq_getElem (Nat.lt_of_not_le h)]

/-- CODED reads the bytes just written, and the others as before (R40, R76). -/
theorem Block.codedAt_writeFirst (b : Block) (xs : List Byte) (k : Nat) :
    ({ b with coded := Memory.writeFirst b.coded xs } : Block).codedAt k = (xs[k]?).getD (b.codedAt k) := by
  by_cases h : xs.length ≤ k
  · simp [Block.codedAt, Memory.lookup_writeFirst, h]
  · simp [Block.codedAt, Memory.lookup_writeFirst, h, List.getElem?_eq_getElem (Nat.lt_of_not_le h)]

/-- TOKEN reads the words just written, and the others as before (R41, R76). -/
theorem Block.tokenAt_writeFirst (b : Block) (xs : List Word) (k : Nat) :
    ({ b with token := b.token.writeFirst xs } : Block).tokenAt k = (xs[k]?).getD (b.tokenAt k) := by
  by_cases h : xs.length ≤ k
  · simp [Block.tokenAt, Memory.lookup_writeFirst, h]
  · simp [Block.tokenAt, Memory.lookup_writeFirst, h, List.getElem?_eq_getElem (Nat.lt_of_not_le h)]

/-- IN reads the byte just written, and every other byte as before (R39, R76). -/
theorem Block.inputAt_write (b : Block) (k k' : Nat) (v : Byte) :
    ({ b with input := Memory.write b.input k v } : Block).inputAt k' = if k' = k then v else b.inputAt k' := by
  by_cases h : k' = k
  · subst h; simp [Block.inputAt]
  · simp [Block.inputAt, Memory.lookup_write_of_ne _ _ _ _ h, h]

/-! ## The tables -/

@[simp] theorem tableGet_replicate (v : α) (x : Byte) : tableGet (Vector.replicate 256 v) x = v := by
  simp [tableGet]

@[simp] theorem tableGet_tableSet_self (t : Vector α 256) (x : Byte) (v : α) : tableGet (tableSet t x v) x = v := by
  simp [tableGet, tableSet]

theorem tableGet_tableSet (t : Vector α 256) (x y : Byte) (v : α) :
    tableGet (tableSet t x v) y = if x = y then v else tableGet t y := by
  by_cases h : x = y
  · subst h; simp
  · have h' : x.toNat ≠ y.toNat := fun e => h (BitVec.eq_of_toNat_eq e)
    simp [tableGet, tableSet, h, h']

/-- Two tables that agree on every symbol are equal. -/
theorem table_ext (t t' : Vector α 256) (h : ∀ x, tableGet t x = tableGet t' x) : t = t' := by
  refine Vector.ext fun i hi => ?_
  have := h (BitVec.ofNat 8 i)
  simpa [tableGet, Nat.mod_eq_of_lt hi] using this

@[simp] theorem mem_symbols (x : Byte) : x ∈ symbols := by
  refine List.mem_map.2 ⟨x.toNat, List.mem_range.2 x.isLt, ?_⟩
  simp

@[simp] theorem symbols_length : symbols.length = 256 := by simp [symbols]

/-- The entries of a table are its symbols with what it holds for each. -/
theorem tableEntries_eq_map (t : Vector α 256) : tableEntries t = symbols.map fun x => (x, tableGet t x) := by
  refine List.ext_getElem (by simp [tableEntries]) fun k h1 h2 => ?_
  have hk : k < 256 := by simpa using h2
  simp [tableEntries, symbols, tableGet, Nat.mod_eq_of_lt hk]

theorem symbols_nodup : symbols.Nodup := by
  refine List.Nodup.map_on ?_ List.nodup_range
  intro x hx y hy h
  have := congrArg BitVec.toNat h
  simp only [BitVec.toNat_ofNat] at this
  have hx := List.mem_range.1 hx
  have hy := List.mem_range.1 hy
  omega

end Sys2Proof.Machine
end

