-- ==== Sys2Proof/Laws/State.lean ====
section
/-! SUPPORT. One lemma per field per named update of the state, true by unfolding, for simp: no later proof unfolds a record
update. -/

namespace Sys2Proof.Machine

/-! ## The machine -/

variable (s : State) (b : Block) (st : Status)

@[simp] theorem State.onBlock_blk (f : Block → Block) : (s.onBlock f).blk = f s.blk := rfl
@[simp] theorem State.onBlock_host (f : Block → Block) : (s.onBlock f).host = s.host := rfl
@[simp] theorem State.onBlock_reply (f : Block → Block) : (s.onBlock f).reply = s.reply := rfl
@[simp] theorem State.answer_blk (r : Reply) : (s.answer r).blk = s.blk := rfl
@[simp] theorem State.answer_host (r : Reply) : (s.answer r).host = s.host := rfl
@[simp] theorem State.answer_reply (r : Reply) : (s.answer r).reply = some r := rfl
@[simp] theorem State.withFetchWord_blk (n w : Nat) : (s.withFetchWord n w).blk = s.blk := rfl
@[simp] theorem State.withFetchWord_reply (n w : Nat) : (s.withFetchWord n w).reply = s.reply := rfl
@[simp] theorem State.withFetchWord_host (n w : Nat) :
    (s.withFetchWord n w).host = .wr4 0 (BitVec.ofNat 32 (w % 2 ^ n)) :: s.host := rfl

/-! ## Error entry (R217) -/

@[simp] theorem Block.raise_status (e : ErrCode) (info : Word) : (Block.raise e info b).status = { b.status with err := e, estk := true } := rfl
@[simp] theorem Block.raise_einfo (e : ErrCode) (info : Word) : (Block.raise e info b).einfo = info := rfl
@[simp] theorem Block.raise_inLen (e : ErrCode) (info : Word) : (Block.raise e info b).inLen = b.inLen := rfl
@[simp] theorem Block.raise_lWin (e : ErrCode) (info : Word) : (Block.raise e info b).lWin = b.lWin := rfl
@[simp] theorem Block.raise_lLook (e : ErrCode) (info : Word) : (Block.raise e info b).lLook = b.lLook := rfl
@[simp] theorem Block.raise_hOrig (e : ErrCode) (info : Word) : (Block.raise e info b).hOrig = b.hOrig := rfl
@[simp] theorem Block.raise_hPad (e : ErrCode) (info : Word) : (Block.raise e info b).hPad = b.hPad := rfl
@[simp] theorem Block.raise_hClen (e : ErrCode) (info : Word) : (Block.raise e info b).hClen = b.hClen := rfl
@[simp] theorem Block.raise_hRoot (e : ErrCode) (info : Word) : (Block.raise e info b).hRoot = b.hRoot := rfl
@[simp] theorem Block.raise_hNnode (e : ErrCode) (info : Word) : (Block.raise e info b).hNnode = b.hNnode := rfl
@[simp] theorem Block.raise_hNsym (e : ErrCode) (info : Word) : (Block.raise e info b).hNsym = b.hNsym := rfl
@[simp] theorem Block.raise_lNtok (e : ErrCode) (info : Word) : (Block.raise e info b).lNtok = b.lNtok := rfl
@[simp] theorem Block.raise_freq (e : ErrCode) (info : Word) : (Block.raise e info b).freq = b.freq := rfl
@[simp] theorem Block.raise_code (e : ErrCode) (info : Word) : (Block.raise e info b).code = b.code := rfl
@[simp] theorem Block.raise_node (e : ErrCode) (info : Word) : (Block.raise e info b).node = b.node := rfl
@[simp] theorem Block.raise_input (e : ErrCode) (info : Word) : (Block.raise e info b).input = b.input := rfl
@[simp] theorem Block.raise_coded (e : ErrCode) (info : Word) : (Block.raise e info b).coded = b.coded := rfl
@[simp] theorem Block.raise_token (e : ErrCode) (info : Word) : (Block.raise e info b).token = b.token := rfl
@[simp] theorem Block.raise_resets (e : ErrCode) (info : Word) : (Block.raise e info b).resets = b.resets := rfl

/-! ## The end in success (R110) -/

@[simp] theorem Block.succeed_status : (b.succeed).status = { b.status with err := .ok } := rfl
@[simp] theorem Block.succeed_einfo : (b.succeed).einfo = b.einfo := rfl
@[simp] theorem Block.succeed_inLen : (b.succeed).inLen = b.inLen := rfl
@[simp] theorem Block.succeed_lWin : (b.succeed).lWin = b.lWin := rfl
@[simp] theorem Block.succeed_lLook : (b.succeed).lLook = b.lLook := rfl
@[simp] theorem Block.succeed_hOrig : (b.succeed).hOrig = b.hOrig := rfl
@[simp] theorem Block.succeed_hPad : (b.succeed).hPad = b.hPad := rfl
@[simp] theorem Block.succeed_hClen : (b.succeed).hClen = b.hClen := rfl
@[simp] theorem Block.succeed_hRoot : (b.succeed).hRoot = b.hRoot := rfl
@[simp] theorem Block.succeed_hNnode : (b.succeed).hNnode = b.hNnode := rfl
@[simp] theorem Block.succeed_hNsym : (b.succeed).hNsym = b.hNsym := rfl
@[simp] theorem Block.succeed_lNtok : (b.succeed).lNtok = b.lNtok := rfl
@[simp] theorem Block.succeed_freq : (b.succeed).freq = b.freq := rfl
@[simp] theorem Block.succeed_code : (b.succeed).code = b.code := rfl
@[simp] theorem Block.succeed_node : (b.succeed).node = b.node := rfl
@[simp] theorem Block.succeed_input : (b.succeed).input = b.input := rfl
@[simp] theorem Block.succeed_coded : (b.succeed).coded = b.coded := rfl
@[simp] theorem Block.succeed_token : (b.succeed).token = b.token := rfl
@[simp] theorem Block.succeed_resets : (b.succeed).resets = b.resets := rfl

/-! ## The host clears ESTK (R24) -/

@[simp] theorem Block.clearSticky_status : (b.clearSticky).status = { b.status with estk := false } := rfl
@[simp] theorem Block.clearSticky_einfo : (b.clearSticky).einfo = b.einfo := rfl
@[simp] theorem Block.clearSticky_inLen : (b.clearSticky).inLen = b.inLen := rfl
@[simp] theorem Block.clearSticky_lWin : (b.clearSticky).lWin = b.lWin := rfl
@[simp] theorem Block.clearSticky_lLook : (b.clearSticky).lLook = b.lLook := rfl
@[simp] theorem Block.clearSticky_hOrig : (b.clearSticky).hOrig = b.hOrig := rfl
@[simp] theorem Block.clearSticky_hPad : (b.clearSticky).hPad = b.hPad := rfl
@[simp] theorem Block.clearSticky_hClen : (b.clearSticky).hClen = b.hClen := rfl
@[simp] theorem Block.clearSticky_hRoot : (b.clearSticky).hRoot = b.hRoot := rfl
@[simp] theorem Block.clearSticky_hNnode : (b.clearSticky).hNnode = b.hNnode := rfl
@[simp] theorem Block.clearSticky_hNsym : (b.clearSticky).hNsym = b.hNsym := rfl
@[simp] theorem Block.clearSticky_lNtok : (b.clearSticky).lNtok = b.lNtok := rfl
@[simp] theorem Block.clearSticky_freq : (b.clearSticky).freq = b.freq := rfl
@[simp] theorem Block.clearSticky_code : (b.clearSticky).code = b.code := rfl
@[simp] theorem Block.clearSticky_node : (b.clearSticky).node = b.node := rfl
@[simp] theorem Block.clearSticky_input : (b.clearSticky).input = b.input := rfl
@[simp] theorem Block.clearSticky_coded : (b.clearSticky).coded = b.coded := rfl
@[simp] theorem Block.clearSticky_token : (b.clearSticky).token = b.token := rfl
@[simp] theorem Block.clearSticky_resets : (b.clearSticky).resets = b.resets := rfl

/-! ## The soft reset (R181) -/

@[simp] theorem Block.softReset_status : (b.softReset).status = Block.reset.status := rfl
@[simp] theorem Block.softReset_einfo : (b.softReset).einfo = Block.reset.einfo := rfl
@[simp] theorem Block.softReset_inLen : (b.softReset).inLen = Block.reset.inLen := rfl
@[simp] theorem Block.softReset_lWin : (b.softReset).lWin = Block.reset.lWin := rfl
@[simp] theorem Block.softReset_lLook : (b.softReset).lLook = Block.reset.lLook := rfl
@[simp] theorem Block.softReset_hOrig : (b.softReset).hOrig = Block.reset.hOrig := rfl
@[simp] theorem Block.softReset_hPad : (b.softReset).hPad = Block.reset.hPad := rfl
@[simp] theorem Block.softReset_hClen : (b.softReset).hClen = Block.reset.hClen := rfl
@[simp] theorem Block.softReset_hRoot : (b.softReset).hRoot = Block.reset.hRoot := rfl
@[simp] theorem Block.softReset_hNnode : (b.softReset).hNnode = Block.reset.hNnode := rfl
@[simp] theorem Block.softReset_hNsym : (b.softReset).hNsym = Block.reset.hNsym := rfl
@[simp] theorem Block.softReset_lNtok : (b.softReset).lNtok = Block.reset.lNtok := rfl
@[simp] theorem Block.softReset_freq : (b.softReset).freq = Block.reset.freq := rfl
@[simp] theorem Block.softReset_code : (b.softReset).code = Block.reset.code := rfl
@[simp] theorem Block.softReset_node : (b.softReset).node = b.node := rfl
@[simp] theorem Block.softReset_input : (b.softReset).input = b.input := rfl
@[simp] theorem Block.softReset_coded : (b.softReset).coded = b.coded := rfl
@[simp] theorem Block.softReset_token : (b.softReset).token = b.token := rfl
@[simp] theorem Block.softReset_resets : (b.softReset).resets = b.resets := rfl

/-! ## The hardware reset (R240) -/

@[simp] theorem Block.hwReset_status : (b.hwReset).status = Block.reset.status := rfl
@[simp] theorem Block.hwReset_einfo : (b.hwReset).einfo = Block.reset.einfo := rfl
@[simp] theorem Block.hwReset_inLen : (b.hwReset).inLen = Block.reset.inLen := rfl
@[simp] theorem Block.hwReset_lWin : (b.hwReset).lWin = Block.reset.lWin := rfl
@[simp] theorem Block.hwReset_lLook : (b.hwReset).lLook = Block.reset.lLook := rfl
@[simp] theorem Block.hwReset_hOrig : (b.hwReset).hOrig = Block.reset.hOrig := rfl
@[simp] theorem Block.hwReset_hPad : (b.hwReset).hPad = Block.reset.hPad := rfl
@[simp] theorem Block.hwReset_hClen : (b.hwReset).hClen = Block.reset.hClen := rfl
@[simp] theorem Block.hwReset_hRoot : (b.hwReset).hRoot = Block.reset.hRoot := rfl
@[simp] theorem Block.hwReset_hNnode : (b.hwReset).hNnode = Block.reset.hNnode := rfl
@[simp] theorem Block.hwReset_hNsym : (b.hwReset).hNsym = Block.reset.hNsym := rfl
@[simp] theorem Block.hwReset_lNtok : (b.hwReset).lNtok = Block.reset.lNtok := rfl
@[simp] theorem Block.hwReset_freq : (b.hwReset).freq = Block.reset.freq := rfl
@[simp] theorem Block.hwReset_code : (b.hwReset).code = Block.reset.code := rfl
@[simp] theorem Block.hwReset_node : (b.hwReset).node = [] := rfl
@[simp] theorem Block.hwReset_input : (b.hwReset).input = [] := rfl
@[simp] theorem Block.hwReset_coded : (b.hwReset).coded = [] := rfl
@[simp] theorem Block.hwReset_token : (b.hwReset).token = [] := rfl
@[simp] theorem Block.hwReset_resets : (b.hwReset).resets = b.resets + 1 := rfl

/-! ## The flags (R42, R43) -/

@[simp] theorem Status.huffCleared_err : st.huffCleared.err = st.err := rfl
@[simp] theorem Status.huffCleared_estk : st.huffCleared.estk = st.estk := rfl
@[simp] theorem Status.huffCleared_tval : st.huffCleared.tval = false := rfl
@[simp] theorem Status.huffCleared_cval : st.huffCleared.cval = false := rfl
@[simp] theorem Status.huffCleared_pval : st.huffCleared.pval = false := rfl
@[simp] theorem Status.huffCleared_mempty : st.huffCleared.mempty = false := rfl
@[simp] theorem Status.huffCleared_lval : st.huffCleared.lval = st.lval := rfl
@[simp] theorem Status.freqChanged_err : st.freqChanged.err = st.err := rfl
@[simp] theorem Status.freqChanged_estk : st.freqChanged.estk = st.estk := rfl
@[simp] theorem Status.freqChanged_tval : st.freqChanged.tval = false := rfl
@[simp] theorem Status.freqChanged_cval : st.freqChanged.cval = false := rfl
@[simp] theorem Status.freqChanged_pval : st.freqChanged.pval = false := rfl
@[simp] theorem Status.freqChanged_mempty : st.freqChanged.mempty = st.mempty := rfl
@[simp] theorem Status.freqChanged_lval : st.freqChanged.lval = st.lval := rfl
@[simp] theorem Status.treeBuilt_err : st.treeBuilt.err = st.err := rfl
@[simp] theorem Status.treeBuilt_estk : st.treeBuilt.estk = st.estk := rfl
@[simp] theorem Status.treeBuilt_tval : st.treeBuilt.tval = true := rfl
@[simp] theorem Status.treeBuilt_cval : st.treeBuilt.cval = false := rfl
@[simp] theorem Status.treeBuilt_pval : st.treeBuilt.pval = false := rfl
@[simp] theorem Status.treeBuilt_mempty : st.treeBuilt.mempty = st.mempty := rfl
@[simp] theorem Status.treeBuilt_lval : st.treeBuilt.lval = st.lval := rfl
@[simp] theorem Status.codesAssigned_err : st.codesAssigned.err = st.err := rfl
@[simp] theorem Status.codesAssigned_estk : st.codesAssigned.estk = st.estk := rfl
@[simp] theorem Status.codesAssigned_tval : st.codesAssigned.tval = st.tval := rfl
@[simp] theorem Status.codesAssigned_cval : st.codesAssigned.cval = true := rfl
@[simp] theorem Status.codesAssigned_pval : st.codesAssigned.pval = false := rfl
@[simp] theorem Status.codesAssigned_mempty : st.codesAssigned.mempty = st.mempty := rfl
@[simp] theorem Status.codesAssigned_lval : st.codesAssigned.lval = st.lval := rfl
@[simp] theorem Status.lzChanged_err : st.lzChanged.err = st.err := rfl
@[simp] theorem Status.lzChanged_estk : st.lzChanged.estk = st.estk := rfl
@[simp] theorem Status.lzChanged_tval : st.lzChanged.tval = st.tval := rfl
@[simp] theorem Status.lzChanged_cval : st.lzChanged.cval = st.cval := rfl
@[simp] theorem Status.lzChanged_pval : st.lzChanged.pval = st.pval := rfl
@[simp] theorem Status.lzChanged_mempty : st.lzChanged.mempty = st.mempty := rfl
@[simp] theorem Status.lzChanged_lval : st.lzChanged.lval = false := rfl
@[simp] theorem Status.lzDone_err : st.lzDone.err = st.err := rfl
@[simp] theorem Status.lzDone_estk : st.lzDone.estk = st.estk := rfl
@[simp] theorem Status.lzDone_tval : st.lzDone.tval = st.tval := rfl
@[simp] theorem Status.lzDone_cval : st.lzDone.cval = st.cval := rfl
@[simp] theorem Status.lzDone_pval : st.lzDone.pval = st.pval := rfl
@[simp] theorem Status.lzDone_mempty : st.lzDone.mempty = st.mempty := rfl
@[simp] theorem Status.lzDone_lval : st.lzDone.lval = true := rfl
@[simp] theorem Status.inputChanged_err : st.inputChanged.err = st.err := rfl
@[simp] theorem Status.inputChanged_estk : st.inputChanged.estk = st.estk := rfl
@[simp] theorem Status.inputChanged_tval : st.inputChanged.tval = st.tval := rfl
@[simp] theorem Status.inputChanged_cval : st.inputChanged.cval = st.cval := rfl
@[simp] theorem Status.inputChanged_pval : st.inputChanged.pval = false := rfl
@[simp] theorem Status.inputChanged_mempty : st.inputChanged.mempty = st.mempty := rfl
@[simp] theorem Status.inputChanged_lval : st.inputChanged.lval = false := rfl
@[simp] theorem Status.packed_err (n : Word) : (st.packed n).err = st.err := rfl
@[simp] theorem Status.packed_estk (n : Word) : (st.packed n).estk = st.estk := rfl
@[simp] theorem Status.packed_tval (n : Word) : (st.packed n).tval = st.tval := rfl
@[simp] theorem Status.packed_cval (n : Word) : (st.packed n).cval = st.cval := rfl
@[simp] theorem Status.packed_pval (n : Word) : (st.packed n).pval = true := rfl
@[simp] theorem Status.packed_mempty (n : Word) : (st.packed n).mempty = (n == 0) := rfl
@[simp] theorem Status.packed_lval (n : Word) : (st.packed n).lval = st.lval := rfl
@[simp] theorem Status.reset_err : Status.reset.err = .ok := rfl
@[simp] theorem Status.reset_estk : Status.reset.estk = false := rfl
@[simp] theorem Status.reset_tval : Status.reset.tval = false := rfl
@[simp] theorem Status.reset_cval : Status.reset.cval = false := rfl
@[simp] theorem Status.reset_pval : Status.reset.pval = false := rfl
@[simp] theorem Status.reset_mempty : Status.reset.mempty = false := rfl
@[simp] theorem Status.reset_lval : Status.reset.lval = false := rfl

/-! ## hclrEffect -/

@[simp] theorem hclrEffect_status : (hclrEffect b).status = b.status.huffCleared := rfl
@[simp] theorem hclrEffect_einfo : (hclrEffect b).einfo = b.einfo := rfl
@[simp] theorem hclrEffect_inLen : (hclrEffect b).inLen = b.inLen := rfl
@[simp] theorem hclrEffect_lWin : (hclrEffect b).lWin = b.lWin := rfl
@[simp] theorem hclrEffect_lLook : (hclrEffect b).lLook = b.lLook := rfl
@[simp] theorem hclrEffect_hOrig : (hclrEffect b).hOrig = 0 := rfl
@[simp] theorem hclrEffect_hPad : (hclrEffect b).hPad = 0 := rfl
@[simp] theorem hclrEffect_hClen : (hclrEffect b).hClen = 0 := rfl
@[simp] theorem hclrEffect_hRoot : (hclrEffect b).hRoot = noNode := rfl
@[simp] theorem hclrEffect_hNnode : (hclrEffect b).hNnode = 0 := rfl
@[simp] theorem hclrEffect_hNsym : (hclrEffect b).hNsym = 0 := rfl
@[simp] theorem hclrEffect_lNtok : (hclrEffect b).lNtok = b.lNtok := rfl
@[simp] theorem hclrEffect_freq : (hclrEffect b).freq = Vector.replicate 256 0 := rfl
@[simp] theorem hclrEffect_code : (hclrEffect b).code = Vector.replicate 256 [] := rfl
@[simp] theorem hclrEffect_node : (hclrEffect b).node = b.node := rfl
@[simp] theorem hclrEffect_input : (hclrEffect b).input = b.input := rfl
@[simp] theorem hclrEffect_coded : (hclrEffect b).coded = b.coded := rfl
@[simp] theorem hclrEffect_token : (hclrEffect b).token = b.token := rfl
@[simp] theorem hclrEffect_resets : (hclrEffect b).resets = b.resets := rfl

/-! ## hcntEffect -/

@[simp] theorem hcntEffect_status : (hcntEffect b).status = b.status.freqChanged := rfl
@[simp] theorem hcntEffect_einfo : (hcntEffect b).einfo = b.einfo := rfl
@[simp] theorem hcntEffect_inLen : (hcntEffect b).inLen = b.inLen := rfl
@[simp] theorem hcntEffect_lWin : (hcntEffect b).lWin = b.lWin := rfl
@[simp] theorem hcntEffect_lLook : (hcntEffect b).lLook = b.lLook := rfl
@[simp] theorem hcntEffect_hOrig : (hcntEffect b).hOrig = b.hOrig := rfl
@[simp] theorem hcntEffect_hPad : (hcntEffect b).hPad = b.hPad := rfl
@[simp] theorem hcntEffect_hClen : (hcntEffect b).hClen = b.hClen := rfl
@[simp] theorem hcntEffect_hRoot : (hcntEffect b).hRoot = b.hRoot := rfl
@[simp] theorem hcntEffect_hNnode : (hcntEffect b).hNnode = b.hNnode := rfl
@[simp] theorem hcntEffect_hNsym : (hcntEffect b).hNsym = b.hNsym := rfl
@[simp] theorem hcntEffect_lNtok : (hcntEffect b).lNtok = b.lNtok := rfl
@[simp] theorem hcntEffect_freq : (hcntEffect b).freq = countFreq b.inputBytes := rfl
@[simp] theorem hcntEffect_code : (hcntEffect b).code = b.code := rfl
@[simp] theorem hcntEffect_node : (hcntEffect b).node = b.node := rfl
@[simp] theorem hcntEffect_input : (hcntEffect b).input = b.input := rfl
@[simp] theorem hcntEffect_coded : (hcntEffect b).coded = b.coded := rfl
@[simp] theorem hcntEffect_token : (hcntEffect b).token = b.token := rfl
@[simp] theorem hcntEffect_resets : (hcntEffect b).resets = b.resets := rfl

/-! ## hbldEffect -/

@[simp] theorem hbldEffect_status : (hbldEffect b).status = b.status.treeBuilt := rfl
@[simp] theorem hbldEffect_einfo : (hbldEffect b).einfo = b.einfo := rfl
@[simp] theorem hbldEffect_inLen : (hbldEffect b).inLen = b.inLen := rfl
@[simp] theorem hbldEffect_lWin : (hbldEffect b).lWin = b.lWin := rfl
@[simp] theorem hbldEffect_lLook : (hbldEffect b).lLook = b.lLook := rfl
@[simp] theorem hbldEffect_hOrig : (hbldEffect b).hOrig = b.hOrig := rfl
@[simp] theorem hbldEffect_hPad : (hbldEffect b).hPad = b.hPad := rfl
@[simp] theorem hbldEffect_hClen : (hbldEffect b).hClen = b.hClen := rfl
@[simp] theorem hbldEffect_hRoot : (hbldEffect b).hRoot = (buildTree b.freq).root := rfl
@[simp] theorem hbldEffect_hNnode : (hbldEffect b).hNnode = BitVec.ofNat 10 (buildTree b.freq).nodes.length := rfl
@[simp] theorem hbldEffect_hNsym : (hbldEffect b).hNsym = BitVec.ofNat 9 (buildTree b.freq).nsym := rfl
@[simp] theorem hbldEffect_lNtok : (hbldEffect b).lNtok = b.lNtok := rfl
@[simp] theorem hbldEffect_freq : (hbldEffect b).freq = b.freq := rfl
@[simp] theorem hbldEffect_code : (hbldEffect b).code = b.code := rfl
@[simp] theorem hbldEffect_node : (hbldEffect b).node = b.node.writeFirst (buildTree b.freq).nodes := rfl
@[simp] theorem hbldEffect_input : (hbldEffect b).input = b.input := rfl
@[simp] theorem hbldEffect_coded : (hbldEffect b).coded = b.coded := rfl
@[simp] theorem hbldEffect_token : (hbldEffect b).token = b.token := rfl
@[simp] theorem hbldEffect_resets : (hbldEffect b).resets = b.resets := rfl

/-! ## hasnEffect -/

@[simp] theorem hasnEffect_status : (hasnEffect b).status = b.status.codesAssigned := rfl
@[simp] theorem hasnEffect_einfo : (hasnEffect b).einfo = b.einfo := rfl
@[simp] theorem hasnEffect_inLen : (hasnEffect b).inLen = b.inLen := rfl
@[simp] theorem hasnEffect_lWin : (hasnEffect b).lWin = b.lWin := rfl
@[simp] theorem hasnEffect_lLook : (hasnEffect b).lLook = b.lLook := rfl
@[simp] theorem hasnEffect_hOrig : (hasnEffect b).hOrig = b.hOrig := rfl
@[simp] theorem hasnEffect_hPad : (hasnEffect b).hPad = b.hPad := rfl
@[simp] theorem hasnEffect_hClen : (hasnEffect b).hClen = b.hClen := rfl
@[simp] theorem hasnEffect_hRoot : (hasnEffect b).hRoot = b.hRoot := rfl
@[simp] theorem hasnEffect_hNnode : (hasnEffect b).hNnode = b.hNnode := rfl
@[simp] theorem hasnEffect_hNsym : (hasnEffect b).hNsym = b.hNsym := rfl
@[simp] theorem hasnEffect_lNtok : (hasnEffect b).lNtok = b.lNtok := rfl
@[simp] theorem hasnEffect_freq : (hasnEffect b).freq = b.freq := rfl
@[simp] theorem hasnEffect_code : (hasnEffect b).code = assignCodes b.nodeAt b.hRoot := rfl
@[simp] theorem hasnEffect_node : (hasnEffect b).node = b.node := rfl
@[simp] theorem hasnEffect_input : (hasnEffect b).input = b.input := rfl
@[simp] theorem hasnEffect_coded : (hasnEffect b).coded = b.coded := rfl
@[simp] theorem hasnEffect_token : (hasnEffect b).token = b.token := rfl
@[simp] theorem hasnEffect_resets : (hasnEffect b).resets = b.resets := rfl

/-! ## hpckEffect -/

@[simp] theorem hpckEffect_status : (hpckEffect b).status = b.status.packed b.inLen := rfl
@[simp] theorem hpckEffect_einfo : (hpckEffect b).einfo = b.einfo := rfl
@[simp] theorem hpckEffect_inLen : (hpckEffect b).inLen = b.inLen := rfl
@[simp] theorem hpckEffect_lWin : (hpckEffect b).lWin = b.lWin := rfl
@[simp] theorem hpckEffect_lLook : (hpckEffect b).lLook = b.lLook := rfl
@[simp] theorem hpckEffect_hOrig : (hpckEffect b).hOrig = b.inLen := rfl
@[simp] theorem hpckEffect_hPad : (hpckEffect b).hPad = BitVec.ofNat 3 (padCount b.stream.length) := rfl
@[simp] theorem hpckEffect_hClen :
    (hpckEffect b).hClen = BitVec.ofNat 32 ((b.stream.length + padCount b.stream.length) / 8) := rfl
@[simp] theorem hpckEffect_hRoot : (hpckEffect b).hRoot = b.hRoot := rfl
@[simp] theorem hpckEffect_hNnode : (hpckEffect b).hNnode = b.hNnode := rfl
@[simp] theorem hpckEffect_hNsym : (hpckEffect b).hNsym = b.hNsym := rfl
@[simp] theorem hpckEffect_lNtok : (hpckEffect b).lNtok = b.lNtok := rfl
@[simp] theorem hpckEffect_freq : (hpckEffect b).freq = b.freq := rfl
@[simp] theorem hpckEffect_code : (hpckEffect b).code = b.code := rfl
@[simp] theorem hpckEffect_node : (hpckEffect b).node = b.node := rfl
@[simp] theorem hpckEffect_input : (hpckEffect b).input = b.input := rfl
@[simp] theorem hpckEffect_coded : (hpckEffect b).coded = Memory.writeFirst b.coded (packedBytes b.stream) := rfl
@[simp] theorem hpckEffect_token : (hpckEffect b).token = b.token := rfl
@[simp] theorem hpckEffect_resets : (hpckEffect b).resets = b.resets := rfl

/-! ## lclrEffect -/

@[simp] theorem lclrEffect_status : (lclrEffect b).status = b.status.lzChanged := rfl
@[simp] theorem lclrEffect_einfo : (lclrEffect b).einfo = b.einfo := rfl
@[simp] theorem lclrEffect_inLen : (lclrEffect b).inLen = b.inLen := rfl
@[simp] theorem lclrEffect_lWin : (lclrEffect b).lWin = b.lWin := rfl
@[simp] theorem lclrEffect_lLook : (lclrEffect b).lLook = b.lLook := rfl
@[simp] theorem lclrEffect_hOrig : (lclrEffect b).hOrig = b.hOrig := rfl
@[simp] theorem lclrEffect_hPad : (lclrEffect b).hPad = b.hPad := rfl
@[simp] theorem lclrEffect_hClen : (lclrEffect b).hClen = b.hClen := rfl
@[simp] theorem lclrEffect_hRoot : (lclrEffect b).hRoot = b.hRoot := rfl
@[simp] theorem lclrEffect_hNnode : (lclrEffect b).hNnode = b.hNnode := rfl
@[simp] theorem lclrEffect_hNsym : (lclrEffect b).hNsym = b.hNsym := rfl
@[simp] theorem lclrEffect_lNtok : (lclrEffect b).lNtok = 0 := rfl
@[simp] theorem lclrEffect_freq : (lclrEffect b).freq = b.freq := rfl
@[simp] theorem lclrEffect_code : (lclrEffect b).code = b.code := rfl
@[simp] theorem lclrEffect_node : (lclrEffect b).node = b.node := rfl
@[simp] theorem lclrEffect_input : (lclrEffect b).input = b.input := rfl
@[simp] theorem lclrEffect_coded : (lclrEffect b).coded = b.coded := rfl
@[simp] theorem lclrEffect_token : (lclrEffect b).token = b.token := rfl
@[simp] theorem lclrEffect_resets : (lclrEffect b).resets = b.resets := rfl

/-! ## lcmpEffect -/

@[simp] theorem lcmpEffect_status : (lcmpEffect b).status = b.status.lzDone := rfl
@[simp] theorem lcmpEffect_einfo : (lcmpEffect b).einfo = b.einfo := rfl
@[simp] theorem lcmpEffect_inLen : (lcmpEffect b).inLen = b.inLen := rfl
@[simp] theorem lcmpEffect_lWin : (lcmpEffect b).lWin = b.lWin := rfl
@[simp] theorem lcmpEffect_lLook : (lcmpEffect b).lLook = b.lLook := rfl
@[simp] theorem lcmpEffect_hOrig : (lcmpEffect b).hOrig = b.hOrig := rfl
@[simp] theorem lcmpEffect_hPad : (lcmpEffect b).hPad = b.hPad := rfl
@[simp] theorem lcmpEffect_hClen : (lcmpEffect b).hClen = b.hClen := rfl
@[simp] theorem lcmpEffect_hRoot : (lcmpEffect b).hRoot = b.hRoot := rfl
@[simp] theorem lcmpEffect_hNnode : (lcmpEffect b).hNnode = b.hNnode := rfl
@[simp] theorem lcmpEffect_hNsym : (lcmpEffect b).hNsym = b.hNsym := rfl
@[simp] theorem lcmpEffect_lNtok : (lcmpEffect b).lNtok = BitVec.ofNat 32 b.lzTokens.length := rfl
@[simp] theorem lcmpEffect_freq : (lcmpEffect b).freq = b.freq := rfl
@[simp] theorem lcmpEffect_code : (lcmpEffect b).code = b.code := rfl
@[simp] theorem lcmpEffect_node : (lcmpEffect b).node = b.node := rfl
@[simp] theorem lcmpEffect_input : (lcmpEffect b).input = b.input := rfl
@[simp] theorem lcmpEffect_coded : (lcmpEffect b).coded = b.coded := rfl
@[simp] theorem lcmpEffect_token : (lcmpEffect b).token = b.token.writeFirst (b.lzTokens.map encodeToken) := rfl
@[simp] theorem lcmpEffect_resets : (lcmpEffect b).resets = b.resets := rfl

end Sys2Proof.Machine
end

