-- ==== Sys2Proof/Laws/Ops.lean ====
section
/-! SUPPORT. What the shared operations can do, said once: the end of a command, the order of bits, the padding. -/

namespace Sys2Proof.Machine

/-! ## The end of a command (R110, R210, R217) -/

theorem runChecked_of_fails {check : Block → Option (ErrCode × Word)} {effect : Block → Block} {s : State} {e : ErrCode}
    {info : Word} (h : check s.blk = some (e, info)) :
    runChecked check effect s = .next (s.onBlock (Block.raise e info)) := by
  simp [runChecked, h]

theorem runChecked_of_passes {check : Block → Option (ErrCode × Word)} {effect : Block → Block} {s : State}
    (h : check s.blk = none) : runChecked check effect s = .next (s.onBlock fun b => (effect b).succeed) := by
  simp [runChecked, h]

/-- Everything `runChecked` can do: it answers a next state, which differs in the block only; either the check raised its
error, or the effect happened whole and ERR is 0. -/
theorem runChecked_cases (check : Block → Option (ErrCode × Word)) (effect : Block → Block) (s : State) :
    (∃ e info, check s.blk = some (e, info) ∧ runChecked check effect s = .next (s.onBlock (Block.raise e info))) ∨
      (check s.blk = none ∧ runChecked check effect s = .next (s.onBlock fun b => (effect b).succeed)) := by
  cases h : check s.blk with
  | none => exact .inr ⟨rfl, runChecked_of_passes h⟩
  | some p => exact .inl ⟨p.1, p.2, rfl, runChecked_of_fails h⟩

/-- A command without checks completes with its whole effect. -/
theorem runChecked_noCheck (effect : Block → Block) (s : State) :
    runChecked noCheck effect s = .next (s.onBlock fun b => (effect b).succeed) := rfl

theorem lenCheck_of_le {b : Block} (h : b.inLen.toNat ≤ Config.nMax) : lenCheck b = none := by
  simp [lenCheck, Nat.not_lt.2 h]

theorem lenCheck_of_lt {b : Block} (h : Config.nMax < b.inLen.toNat) : lenCheck b = some (.len, b.inLen) := by
  simp [lenCheck, h]

@[simp] theorem inputBytes_length (b : Block) : b.inputBytes.length = b.inLen.toNat := by simp [Block.inputBytes]

/-- The input bytes read entry by entry (R26, R74). -/
theorem inputBytes_getElem? (b : Block) (k : Nat) (h : k < b.inLen.toNat) : b.inputBytes[k]? = some (b.inputAt k) := by
  simp [Block.inputBytes, h]

/-! ## The padding (R125) -/

theorem padCount_lt (t : Nat) : padCount t < 8 := Nat.mod_lt _ (by omega)

theorem padCount_add_mod (t : Nat) : (t + padCount t) % 8 = 0 := by
  unfold padCount; omega

theorem padCount_eq_zero_iff (t : Nat) : padCount t = 0 ↔ t % 8 = 0 := by
  unfold padCount; omega

/-! ## The order of bits (R66) -/

theorem bytesMsb_cons8 (b0 b1 b2 b3 b4 b5 b6 b7 : Bool) (rest : Bits) :
    bytesMsb (b0 :: b1 :: b2 :: b3 :: b4 :: b5 :: b6 :: b7 :: rest) =
      byteOfBits [b0, b1, b2, b3, b4, b5, b6, b7] :: bytesMsb rest := rfl

@[simp] theorem bytesMsb_nil : bytesMsb [] = [] := rfl

/-- A string of at least eight bits is its first eight and the rest. -/
theorem exists_eq_cons8 (xs : Bits) (h : 8 ≤ xs.length) : ∃ b0 b1 b2 b3 b4 b5 b6 b7 rest,
    xs = b0 :: b1 :: b2 :: b3 :: b4 :: b5 :: b6 :: b7 :: rest := by
  rcases xs with _ | ⟨b0, _ | ⟨b1, _ | ⟨b2, _ | ⟨b3, _ | ⟨b4, _ | ⟨b5, _ | ⟨b6, _ | ⟨b7, rest⟩⟩⟩⟩⟩⟩⟩⟩ <;>
    first
    | (simp at h; done)
    | exact ⟨_, _, _, _, _, _, _, _, _, rfl⟩

theorem bytesMsb_of_short (xs : Bits) (h : xs.length < 8) : bytesMsb xs = [] := by
  rcases xs with _ | ⟨b0, _ | ⟨b1, _ | ⟨b2, _ | ⟨b3, _ | ⟨b4, _ | ⟨b5, _ | ⟨b6, _ | ⟨b7, rest⟩⟩⟩⟩⟩⟩⟩⟩ <;>
    first
    | rfl
    | (simp at h; omega)

theorem bytesMsb_length (xs : Bits) : (bytesMsb xs).length = xs.length / 8 := by
  induction hn : xs.length / 8 generalizing xs with
  | zero => rw [bytesMsb_of_short xs (by omega)]; rfl
  | succ n ih =>
    obtain ⟨b0, b1, b2, b3, b4, b5, b6, b7, rest, rfl⟩ := exists_eq_cons8 xs (by omega)
    rw [bytesMsb_cons8, List.length_cons, ih rest]
    simp at hn; omega

/-- The eight bits of a byte made of eight bits. -/
theorem bitsOfByte_byteOfBits : ∀ b0 b1 b2 b3 b4 b5 b6 b7 : Bool,
    bitsOfByte (byteOfBits [b0, b1, b2, b3, b4, b5, b6, b7]) = [b0, b1, b2, b3, b4, b5, b6, b7] := by decide

@[simp] theorem bitsOfByte_length (y : Byte) : (bitsOfByte y).length = 8 := rfl

@[simp] theorem bitsMsb_nil : bitsMsb [] = [] := rfl

@[simp] theorem bitsMsb_cons (y : Byte) (ys : List Byte) : bitsMsb (y :: ys) = bitsOfByte y ++ bitsMsb ys := rfl

theorem bitsMsb_length (ys : List Byte) : (bitsMsb ys).length = 8 * ys.length := by
  induction ys with
  | nil => rfl
  | cons y ys ih => simp [ih]; omega

/-- How many bytes the packed stream has (R126). -/
theorem packedBytes_length (stream : Bits) :
    (packedBytes stream).length = (stream.length + padCount stream.length) / 8 := by
  simp [packedBytes, bytesMsb_length]

/-- A packed stream of codes of at most 255 bits fits CODED (R9). -/
theorem bitStream_length_le (code : Byte → Bits) (bytes : List Byte) (m : Nat) (h : ∀ x, (code x).length ≤ m) :
    (bitStream code bytes).length ≤ m * bytes.length := by
  induction bytes with
  | nil => simp [bitStream]
  | cons x xs ih =>
    have hx := h x
    simp only [bitStream, List.flatMap_cons, List.length_append, List.length_cons] at ih ⊢
    rw [Nat.mul_succ]; omega

/-- Bit `j` of the number of a bit string is its `j`-th bit (R37(b)). -/
theorem testBit_natOfBits (xs : Bits) (j : Nat) : (natOfBits xs).testBit j = xs.getD j false := by
  induction xs generalizing j with
  | nil => simp [natOfBits]
  | cons x xs ih =>
    cases j with
    | zero => cases x <;> simp [natOfBits, Nat.testBit_zero]
    | succ j =>
      have : (x.toNat + 2 * natOfBits xs) / 2 = natOfBits xs := by cases x <;> (simp; try omega)
      rw [natOfBits, Nat.testBit_succ, this, ih]
      simp

end Sys2Proof.Machine
end

