-- ==== Sys2Proof/Laws/Huffman.lean ====
section
/-! SUPPORT. What the functions of the HUF unit can do, said once: the priority structure, the size of the tree, the depth
of the codes, and that each stage makes its valid flag true. -/

namespace Sys2Proof.Machine

/-! ## Counting (R112) -/

/-- One turn of the counting loop at a symbol. -/
theorem tableGet_count_step (t : Vector Word 256) (x y : Byte) :
    tableGet (tableSet t x (tableGet t x + 1)) y = if x = y then tableGet t y + 1 else tableGet t y := by
  rw [tableGet_tableSet]
  by_cases h : x = y
  · subst h; simp
  · simp [h]

/-! ## The leaves (R115) -/

theorem leavesOf_eq_map (freq : Vector Word 256) :
    leavesOf freq = (codedSymbols freq).map fun x => leafNode x (tableGet freq x) := by
  rw [leavesOf, tableEntries_eq_map, List.filterMap_map]
  unfold codedSymbols
  induction symbols with
  | nil => rfl
  | cons x xs ih =>
    by_cases h : tableGet freq x = 0#32
    · simpa [h] using ih
    · simpa [h] using ih

theorem leavesOf_length (freq : Vector Word 256) : (leavesOf freq).length = (codedSymbols freq).length := by
  simp [leavesOf_eq_map]

theorem codedSymbols_length_le (freq : Vector Word 256) : (codedSymbols freq).length ≤ 256 := by
  simpa [codedSymbols] using List.length_filter_le (fun x => decide (tableGet freq x ≠ 0)) symbols

@[simp] theorem mem_codedSymbols (freq : Vector Word 256) (x : Byte) : x ∈ codedSymbols freq ↔ tableGet freq x ≠ 0 := by
  simp [codedSymbols]

/-! ## The priority structure (R116, R117) -/

theorem leastLive_mem (x : LiveNode) (xs : List LiveNode) : leastLive x xs ∈ x :: xs := by
  unfold leastLive
  induction xs generalizing x with
  | nil => simp
  | cons y ys ih =>
    rw [List.foldl_cons]
    have h := ih (if y.before x then y else x)
    rcases List.mem_cons.1 h with h | h
    · rw [h]; split <;> simp
    · exact List.mem_cons_of_mem _ (List.mem_cons_of_mem _ h)

/-- Everything `takeLeast` can do: on a Q that is not empty it answers a member of Q and Q without it. -/
theorem takeLeast_spec {live : List LiveNode} (h : live ≠ []) :
    ∃ a rest, takeLeast live = some (a, rest) ∧ a ∈ live ∧ live.Perm (a :: rest) := by
  cases live with
  | nil => exact absurd rfl h
  | cons x xs =>
    exact ⟨leastLive x xs, _, rfl, leastLive_mem x xs, List.perm_cons_erase (leastLive_mem x xs)⟩

/-- One turn of the merge loop, while two nodes are live. -/
theorem mergeLoop_succ (fuel : Nat) (nodes : List NodeEntry) {live : List LiveNode} (h : 2 ≤ live.length) :
    ∃ a b rest, a ∈ live ∧ b ∈ live ∧ live.Perm (a :: b :: rest) ∧
      mergeLoop (fuel + 1) nodes live =
        mergeLoop fuel (nodes ++ [innerNode (a.freq + b.freq) (BitVec.ofNat 9 a.ix) (BitVec.ofNat 9 b.ix)])
          (rest ++ [{ freq := a.freq + b.freq, ix := nodes.length }]) := by
  obtain ⟨a, r1, h1, ha, p1⟩ := takeLeast_spec (live := live) (by rintro rfl; simp at h)
  have hl1 := p1.length_eq
  obtain ⟨b, r2, h2, hb, p2⟩ := takeLeast_spec (live := r1) (by rintro rfl; simp at hl1; omega)
  refine ⟨a, b, r2, ha, p1.mem_iff.2 (List.mem_cons_of_mem _ hb), p1.trans (p2.cons a), ?_⟩
  rw [mergeLoop, h1]; simp only [h2]

/-- With at most one live node the loop has nothing left to do. -/
theorem mergeLoop_of_short (fuel : Nat) (nodes : List NodeEntry) {live : List LiveNode} (h : live.length ≤ 1) :
    mergeLoop fuel nodes live = nodes := by
  cases fuel with
  | zero => rfl
  | succ fuel =>
    rcases live with _ | ⟨x, _ | ⟨y, ys⟩⟩
    · rfl
    · simp [mergeLoop, takeLeast, leastLive]
    · simp at h

/-- k live nodes are merged in k - 1 rounds (R95, R116). -/
theorem mergeLoop_length (fuel : Nat) (nodes : List NodeEntry) (live : List LiveNode) (h : live.length ≤ fuel + 1) :
    (mergeLoop fuel nodes live).length = nodes.length + (live.length - 1) := by
  induction fuel generalizing nodes live with
  | zero => rw [mergeLoop_of_short 0 nodes (by omega)]; omega
  | succ fuel ih =>
    by_cases h2 : 2 ≤ live.length
    · obtain ⟨a, b, rest, -, -, p, e⟩ := mergeLoop_succ fuel nodes h2
      have hl := p.length_eq
      simp only [List.length_cons] at hl
      rw [e, ih _ _ (by simp; omega)]
      simp; omega
    · rw [mergeLoop_of_short _ nodes (by omega)]; omega

/-- The nodes already made stay where they are. -/
theorem mergeLoop_prefix (fuel : Nat) (nodes : List NodeEntry) (live : List LiveNode) :
    nodes <+: mergeLoop fuel nodes live := by
  induction fuel generalizing nodes live with
  | zero => exact List.prefix_rfl
  | succ fuel ih =>
    by_cases h2 : 2 ≤ live.length
    · obtain ⟨a, b, rest, -, -, -, e⟩ := mergeLoop_succ fuel nodes h2
      rw [e]
      exact (List.prefix_append _ _).trans (ih _ _)
    · rw [mergeLoop_of_short _ nodes (by omega)]

/-! ## The size of the tree (R120) -/

theorem buildTree_nsym (freq : Vector Word 256) : (buildTree freq).nsym = (codedSymbols freq).length := by
  rw [← leavesOf_length]
  unfold buildTree
  split <;> simp_all

theorem node_count (n : Nat) : n + 1 + 1 + (n + 1 + 1 - 1) = 2 * (n + 1 + 1) - 1 := by omega

theorem node_count_le (n : Nat) (h : n ≤ 256) : 2 * n - 1 ≤ Config.nodeMax := by unfold Config.nodeMax; omega

theorem buildTree_length (freq : Vector Word 256) :
    (buildTree freq).nodes.length =
      match (codedSymbols freq).length with
      | 0 => 0
      | 1 => 2
      | k => 2 * k - 1 := by
  rw [← leavesOf_length]
  unfold buildTree
  split
  · simp_all
  · simp_all
  · rename_i l0 l1 ls h
    rw [h]
    simp only [List.length_cons]
    rw [mergeLoop_length]
    · simp only [List.length_cons, List.length_map, List.length_zipIdx]
      exact node_count ls.length
    · simp

theorem buildTree_length_le (freq : Vector Word 256) : (buildTree freq).nodes.length ≤ Config.nodeMax := by
  have h := codedSymbols_length_le freq
  rw [buildTree_length]
  split
  · exact Nat.zero_le _
  · exact Nat.le_of_ble_eq_true rfl
  · exact node_count_le _ h

theorem buildTree_nsym_le (freq : Vector Word 256) : (buildTree freq).nsym ≤ 256 := by
  rw [buildTree_nsym]; exact codedSymbols_length_le freq

/-! ## The depth of the codes (R12(e), R121) -/

/-- `assign` gives no code longer than its path and its depth allow. -/
theorem assignFrom_length_le (node : Nat → NodeEntry) (fuel : Nat) (x : NodeIx) (path : Bits) (codes : Vector Bits 256)
    (m : Nat) (hp : path.length + fuel ≤ m + 1) (hc : ∀ y, (tableGet codes y).length ≤ m) (y : Byte) :
    (tableGet (assignFrom node fuel x path codes) y).length ≤ m := by
  induction fuel generalizing x path codes y with
  | zero => exact hc y
  | succ fuel ih =>
    have hstep : ∀ bit c z, (∀ w, (tableGet c w).length ≤ m) →
        (tableGet (assignFrom node fuel z (path ++ [bit]) c) y).length ≤ m := fun bit c z h =>
      ih z (path ++ [bit]) c (by simp; omega) h y
    rw [assignFrom]
    split
    · rw [tableGet_tableSet]
      split
      · omega
      · exact hc y
    · have hleft : ∀ w, (tableGet (if (node x.toNat).left = noNode then codes
          else assignFrom node fuel (node x.toNat).left (path ++ [false]) codes) w).length ≤ m := by
        intro w
        split
        · exact hc w
        · exact ih _ _ _ (by simp; omega) hc w
      dsimp only
      split
      · exact hleft y
      · exact hstep true _ _ hleft

/-- No code is longer than 255 bits (R12(e), R37). -/
theorem assignCodes_length_le (node : Nat → NodeEntry) (root : NodeIx) (x : Byte) :
    (tableGet (assignCodes node root) x).length ≤ Config.codeMax := by
  unfold assignCodes
  split
  · simp
  · exact assignFrom_length_le node _ _ _ _ _ (by simp) (by simp) x

/-! ## Each stage makes its flag true (R24) -/

theorem TreeTrue_of_hbld (b : Block) : (hbldEffect b).TreeTrue := by
  have hlen := buildTree_length_le b.freq
  have hsym := buildTree_nsym_le b.freq
  unfold Config.nodeMax at hlen
  refine ⟨rfl, ?_, ?_, fun k e hk => ?_⟩
  · simp only [hbldEffect_hNnode, hbldEffect_freq, BitVec.toNat_ofNat]; omega
  · simp only [hbldEffect_hNsym, hbldEffect_freq, BitVec.toNat_ofNat]; omega
  · have : (hbldEffect b).nodeAt k = ((buildTree b.freq).nodes[k]?).getD (b.nodeAt k) :=
      Block.nodeAt_writeFirst b _ k
    rw [this]
    rw [hbldEffect_freq] at hk
    simp [hk]

theorem CodesTrue_of_hasn (b : Block) : (hasnEffect b).CodesTrue := rfl

theorem CodesBounded_of_CodesTrue {b : Block} (h : b.CodesTrue) : b.CodesBounded := by
  intro x
  rw [Block.codeOf, h]
  exact assignCodes_length_le _ _ _

/-- The bit count of a stream of bounded codes (R12(c)). -/
theorem stream_length_le {b : Block} (h : b.CodesBounded) : b.stream.length ≤ 255 * b.inLen.toNat := by
  have := bitStream_length_le b.codeOf b.inputBytes 255 h
  simpa [Block.stream] using this

/-- The packed bytes fit CODED (R9). -/
theorem packedBytes_length_le {b : Block} (hn : b.inLen.toNat ≤ Config.nMax) (h : b.CodesBounded) :
    (packedBytes b.stream).length ≤ Config.codedCap := by
  have h1 := stream_length_le h
  have h2 := padCount_lt b.stream.length
  have h3 := padCount_add_mod b.stream.length
  rw [packedBytes_length]
  unfold Config.codedCap
  omega

/-- H_CLEN holds the whole count of packed bytes (R31, R126). -/
theorem hpckEffect_hClen_toNat {b : Block} (hn : b.inLen.toNat ≤ Config.nMax) (h : b.CodesBounded) :
    (hpckEffect b).hClen.toNat = (packedBytes b.stream).length := by
  have h1 := packedBytes_length_le hn h
  unfold Config.codedCap Config.nMax at h1
  rw [hpckEffect_hClen, BitVec.toNat_ofNat, ← packedBytes_length]
  omega

/-- `CODED[0..H_CLEN)` after the pack is the packed stream (R126). -/
theorem codedBytes_of_hpck {b : Block} (hn : b.inLen.toNat ≤ Config.nMax) (h : b.CodesBounded) :
    (hpckEffect b).codedBytes = packedBytes b.stream := by
  rw [Block.codedBytes, hpckEffect_hClen_toNat hn h]
  refine List.ext_getElem (by simp) fun k h1 h2 => ?_
  have : (hpckEffect b).codedAt k = ((packedBytes b.stream)[k]?).getD (b.codedAt k) := Block.codedAt_writeFirst b _ k
  simp [this, h2]

theorem PackTrue_of_hpck {b : Block} (hn : b.inLen.toNat ≤ Config.nMax) (h : b.CodesBounded)
    (hc : ∀ x ∈ b.inputBytes, b.codeOf x ≠ []) : (hpckEffect b).PackTrue := by
  have hp := padCount_lt b.stream.length
  refine ⟨hn, hc, rfl, rfl, ?_, ?_, codedBytes_of_hpck hn h⟩
  · show (BitVec.ofNat 3 (padCount b.stream.length)).toNat = padCount b.stream.length
    rw [BitVec.toNat_ofNat]; omega
  · rw [hpckEffect_hClen_toNat hn h, packedBytes_length]; rfl

end Sys2Proof.Machine
end

