-- ==== Sys2Proof/Laws/Lz.lean ====
section
/-! SUPPORT. What the functions of the LZ unit can do, said once: the match length, the choice of a candidate, one round,
the loop, and that LCMP makes its valid flag true. -/

namespace Sys2Proof.Machine

/-! ## The match length (R156) -/

theorem LzJob.extend_bounds (j : LzJob) (p i fuel len : Nat) :
    len ≤ j.extend p i fuel len ∧ j.extend p i fuel len ≤ len + fuel ∧
      ∀ t, len ≤ t → t < j.extend p i fuel len → i + t < j.n ∧ p + t < i ∧ j.byteAt (p + t) = j.byteAt (i + t) := by
  induction fuel generalizing len with
  | zero => exact ⟨Nat.le_refl _, Nat.le_refl _, fun t h1 h2 => absurd h2 (Nat.not_lt.2 h1)⟩
  | succ fuel ih =>
    rw [LzJob.extend]
    split
    · rename_i h
      obtain ⟨h1, h2, h3⟩ := ih (len + 1)
      refine ⟨by omega, by omega, fun t ht1 ht2 => ?_⟩
      rcases Nat.eq_or_lt_of_le ht1 with rfl | ht
      · exact h
      · exact h3 t ht ht2
    · exact ⟨Nat.le_refl _, Nat.le_add_right _ _, fun t h1 h2 => absurd h2 (Nat.not_lt.2 h1)⟩

theorem LzJob.mlen_le_look (j : LzJob) (p i : Nat) : j.mlen p i ≤ j.look := by
  simpa [LzJob.mlen] using (j.extend_bounds p i j.look 0).2.1

/-- Inside the match length everything R156 asks holds: the input is not left, the source stays before `i`, the bytes agree. -/
theorem LzJob.mlen_inside (j : LzJob) (p i t : Nat) (h : t < j.mlen p i) :
    i + t < j.n ∧ p + t < i ∧ j.byteAt (p + t) = j.byteAt (i + t) :=
  (j.extend_bounds p i j.look 0).2.2 t (Nat.zero_le _) h

/-- A match ends inside the input and its source ends before it (R156, R164). -/
theorem LzJob.mlen_fits (j : LzJob) (p i : Nat) (h : 0 < j.mlen p i) : i + j.mlen p i ≤ j.n ∧ p + j.mlen p i ≤ i := by
  have := j.mlen_inside p i (j.mlen p i - 1) (by omega)
  omega

/-! ## The choice among candidates (R155, R157) -/

/-- Everything the search loop can answer: the best it started from, or a candidate inside the window with its length. -/
theorem LzJob.foldl_better_cases (j : LzJob) (i : Nat) (ps : List Nat) (best : Nat × Nat) :
    ps.foldl (j.better i) best = best ∨
      ∃ p ∈ ps, i - p ≤ j.window ∧ ps.foldl (j.better i) best = (j.mlen p i, p) ∧ best.1 < j.mlen p i := by
  induction ps generalizing best with
  | nil => exact .inl rfl
  | cons q ps ih =>
    rw [List.foldl_cons]
    by_cases h : i - q ≤ j.window ∧ best.1 < j.mlen q i
    · have hb : j.better i best q = (j.mlen q i, q) := by simp [LzJob.better, h]
      rw [hb]
      rcases ih (j.mlen q i, q) with e | ⟨p, hp, hw, e, hlt⟩
      · exact .inr ⟨q, by simp, h.1, e, h.2⟩
      · exact .inr ⟨p, by simp [hp], hw, e, h.2.trans hlt⟩
    · have hb : j.better i best q = best := by simp only [LzJob.better, if_neg h]
      rw [hb]
      rcases ih best with e | ⟨p, hp, hw, e, hlt⟩
      · exact .inl e
      · exact .inr ⟨p, by simp [hp], hw, e, hlt⟩

/-- A search that found something found a candidate of the list, inside the window, at its match length. -/
theorem LzJob.bestOf_pos (j : LzJob) (i : Nat) (ps : List Nat) (h : 0 < (j.bestOf i ps).1) :
    (j.bestOf i ps).2 ∈ ps ∧ i - (j.bestOf i ps).2 ≤ j.window ∧
      (j.bestOf i ps).1 = j.mlen (j.bestOf i ps).2 i := by
  rcases j.foldl_better_cases i ps (0, 0) with e | ⟨p, hp, hw, e, -⟩
  · rw [LzJob.bestOf, e] at h; exact absurd h (lt_irrefl 0)
  · rw [LzJob.bestOf, e]; exact ⟨hp, hw, rfl⟩

/-- No candidate inside the window is longer than the best (R157). -/
theorem LzJob.le_foldl_better (j : LzJob) (i : Nat) (ps : List Nat) (best : Nat × Nat) :
    best.1 ≤ (ps.foldl (j.better i) best).1 ∧
      ∀ p ∈ ps, i - p ≤ j.window → j.mlen p i ≤ (ps.foldl (j.better i) best).1 := by
  induction ps generalizing best with
  | nil => exact ⟨Nat.le_refl _, by simp⟩
  | cons q ps ih =>
    rw [List.foldl_cons]
    have hb : best.1 ≤ (j.better i best q).1 ∧ (i - q ≤ j.window → j.mlen q i ≤ (j.better i best q).1) := by
      unfold LzJob.better
      split
      · rename_i h; exact ⟨h.2.le, fun _ => Nat.le_refl _⟩
      · rename_i h; exact ⟨Nat.le_refl _, fun hw => Nat.le_of_not_lt fun hl => h ⟨hw, hl⟩⟩
    obtain ⟨h1, h2⟩ := ih (j.better i best q)
    refine ⟨hb.1.trans h1, fun p hp hw => ?_⟩
    rcases List.mem_cons.1 hp with rfl | hp
    · exact (hb.2 hw).trans h1
    · exact h2 p hp hw

/-! ## The dictionary (R154, R159, R160, R165) -/

theorem LzDict.get_append (d : LzDict) (key key' : LzKey) (q : Nat) :
    (LzDict.append d key q).get key' = if key = key' then d.get key' ++ [q] else d.get key' := by
  induction d with
  | nil => by_cases h : key = key' <;> simp [LzDict.append, LzDict.get, h]
  | cons e d ih =>
    obtain ⟨k, ps⟩ := e
    by_cases h1 : k = key
    · subst h1
      by_cases h2 : k = key' <;> simp [LzDict.append, LzDict.get, h2]
    · by_cases h2 : k = key'
      · subst h2
        simp [LzDict.append, LzDict.get, h1, Ne.symm h1]
      · simp [LzDict.append, LzDict.get, h1, h2, ih]

/-- A registration adds one position. -/
theorem LzDict.occupancy_append (d : LzDict) (key : LzKey) (q : Nat) :
    (LzDict.append d key q).occupancy = d.occupancy + 1 := by
  induction d with
  | nil => simp [LzDict.append, LzDict.occupancy]
  | cons e d ih =>
    obtain ⟨k, ps⟩ := e
    by_cases h : k = key
    · simp [LzDict.append, LzDict.occupancy, h]; omega
    · simp only [LzDict.append, LzDict.occupancy, h, if_false, List.map_cons, List.sum_cons] at ih ⊢
      omega

/-- `register` adds at most one position (R159). -/
theorem LzJob.occupancy_register_le (j : LzJob) (d : LzDict) (q : Nat) :
    (j.register d q).occupancy ≤ d.occupancy + 1 := by
  unfold LzJob.register
  split
  · exact (LzDict.occupancy_append _ _ _).le
  · omega

/-! ## One round and the loop (R152) -/

@[simp] theorem LzJob.advance_i (j : LzJob) (r : LzRun) (n : Nat) : (j.advance r n).i = r.i + n := by
  unfold LzJob.advance; split <;> rfl

@[simp] theorem LzJob.advance_toks (j : LzJob) (r : LzRun) (n : Nat) : (j.advance r n).toks = r.toks := by
  unfold LzJob.advance; split <;> rfl

/-- Everything a round can do to the position and the tokens: one match found by the search, or one literal (R158). -/
theorem LzJob.round_cases (j : LzJob) (r : LzRun) :
    (∃ p ∈ r.dict.get (j.keyAt r.i), r.i - p ≤ j.window ∧ Config.minMatch ≤ j.mlen p r.i ∧
        j.search r.dict r.i = (j.mlen p r.i, p) ∧ (j.round r).i = r.i + j.mlen p r.i ∧
        (j.round r).toks = r.toks ++ [.backRef (r.i - p) (j.mlen p r.i)]) ∨
      ((j.search r.dict r.i).1 < Config.minMatch ∧ (j.round r).i = r.i + 1 ∧
        (j.round r).toks = r.toks ++ [.lit (j.byteAt r.i)]) := by
  by_cases h : Config.minMatch ≤ (j.search r.dict r.i).1
  · have hpos : 0 < (j.search r.dict r.i).1 := by unfold Config.minMatch at h; omega
    obtain ⟨hm, hw, he⟩ := j.bestOf_pos r.i _ hpos
    refine .inl ⟨(j.search r.dict r.i).2, hm, hw, he ▸ h, Prod.ext he rfl, ?_, ?_⟩
    · simp only [LzJob.round, if_pos h, advance_i]; exact congrArg _ he
    · simp only [LzJob.round, if_pos h, advance_toks]
      exact congrArg (fun l => r.toks ++ [Token.backRef _ l]) he
  · refine .inr ⟨by omega, ?_, ?_⟩ <;> simp [LzJob.round, if_neg h]

/-- Everything a round can do to the dictionary: it registers the positions it advances by, and may then compact. -/
theorem LzJob.round_dict (j : LzJob) (r : LzRun) : (j.round r).i = r.i + j.stepOf r ∧
    ((j.round r).dict = j.filled r (j.stepOf r) ∧ (j.round r).adv = r.adv + j.stepOf r ∧ r.adv + j.stepOf r < j.prune ∨
      (j.round r).dict = j.compact (j.filled r (j.stepOf r)) (r.i + j.stepOf r) ∧ (j.round r).adv = 0 ∧
        j.prune ≤ r.adv + j.stepOf r) := by
  by_cases h : Config.minMatch ≤ (j.search r.dict r.i).1 <;>
    simp only [LzJob.round, LzJob.stepOf, h, if_true, if_false, advance_i, true_and] <;>
    unfold LzJob.advance <;> split <;> rename_i h' <;> dsimp only at h' <;> simp <;> omega

theorem LzJob.stepOf_le (j : LzJob) (r : LzRun) : j.stepOf r ≤ max j.look 1 := by
  unfold LzJob.stepOf
  split
  · rename_i h
    have hpos : 0 < (j.search r.dict r.i).1 := by unfold Config.minMatch at h; omega
    have he := (j.bestOf_pos r.i _ hpos).2.2
    have hl := j.mlen_le_look (j.bestOf r.i (r.dict.get (j.keyAt r.i))).2 r.i
    unfold LzJob.search
    omega
  · omega

/-- One more registration adds at most one position. -/
theorem LzJob.occupancy_filled_le (j : LzJob) (r : LzRun) (m : Nat) :
    (j.filled r m).occupancy ≤ r.dict.occupancy + m := by
  induction m with
  | zero => simp [LzJob.filled]
  | succ m ih =>
    have h := j.occupancy_register_le (j.filled r m) (r.i + m)
    have e : j.filled r (m + 1) = j.register (j.filled r m) (r.i + m) := by
      simp [LzJob.filled, List.range'_concat]
    rw [e]; omega

/-- A round advances by at least 1 and never beyond the input. -/
theorem LzJob.round_i (j : LzJob) (r : LzRun) (h : 3 ≤ j.n - r.i) :
    r.i < (j.round r).i ∧ (j.round r).i ≤ j.n ∧ (j.round r).toks.length = r.toks.length + 1 := by
  rcases j.round_cases r with ⟨p, -, -, h3, -, hi, ht⟩ | ⟨-, hi, ht⟩
  · have hfit := j.mlen_fits p r.i (by unfold Config.minMatch at h3; omega)
    unfold Config.minMatch at h3
    rw [hi, ht]
    refine ⟨by omega, hfit.1, by simp⟩
  · rw [hi, ht]
    refine ⟨by omega, by omega, by simp⟩

/-- The induction over the rounds, packaged: what holds at the start of the loop and is kept by a round holds at its end. -/
theorem LzJob.rounds_induction (j : LzJob) (motive : LzRun → Prop) (fuel : Nat) (r : LzRun) (h0 : motive r)
    (hs : ∀ r, 3 ≤ j.n - r.i → motive r → motive (j.round r)) : motive (j.rounds fuel r) := by
  induction fuel generalizing r with
  | zero => exact h0
  | succ fuel ih =>
    rw [LzJob.rounds]
    split
    · exact h0
    · exact ih _ (hs r (by omega) h0)

/-- With as many rounds as there are bytes left, the loop ends because fewer than three bytes remain (R95, R152). -/
theorem LzJob.rounds_done (j : LzJob) (fuel : Nat) (r : LzRun) (h : j.n - r.i ≤ fuel + 2) :
    j.n - (j.rounds fuel r).i < 3 := by
  induction fuel generalizing r with
  | zero => show j.n - r.i < 3; omega
  | succ fuel ih =>
    rw [LzJob.rounds]
    split
    · assumption
    · have := j.round_i r (by omega)
      exact ih _ (by omega)

/-- LCMP emits at most one token per input byte (R163), so the tokens fit TOKEN (R9). -/
theorem LzJob.tokens_length_le (j : LzJob) : j.tokens.length ≤ j.n := by
  have h : (j.rounds j.n LzRun.start).toks.length ≤ (j.rounds j.n LzRun.start).i ∧ (j.rounds j.n LzRun.start).i ≤ j.n := by
    refine j.rounds_induction (fun r => r.toks.length ≤ r.i ∧ r.i ≤ j.n) j.n _ ⟨Nat.le_refl _, Nat.zero_le _⟩ ?_
    rintro r h3 ⟨h1, -⟩
    have := j.round_i r h3
    omega
  simp only [LzJob.tokens, LzJob.flush, List.length_append, List.length_map, List.length_range']
  omega

@[simp] theorem lzJobOf_n (bytes : Array Byte) (w l p : Nat) : (lzJobOf bytes w l p).n = bytes.size := rfl

theorem lzTokens_length_le (b : Block) : b.lzTokens.length ≤ b.inLen.toNat := by
  have := LzJob.tokens_length_le (lzJobOf b.inputBytes.toArray b.lWin.toNat b.lLook.toNat Config.pruneInterval)
  simpa [Block.lzTokens] using this

/-- The bytes the job of a block works on are its input (R152). -/
theorem lzJobOf_byteAt (b : Block) (w l p k : Nat) (h : k < b.inLen.toNat) :
    (lzJobOf b.inputBytes.toArray w l p).byteAt k = b.inputAt k := by
  simp [lzJobOf, Block.inputBytes, h]

/-! ## LCMP makes its flag true (R24) -/

/-- L_NTOK holds the whole count of tokens (R35). -/
theorem lcmpEffect_lNtok_toNat {b : Block} (hn : b.inLen.toNat ≤ Config.nMax) :
    (lcmpEffect b).lNtok.toNat = b.lzTokens.length := by
  have := lzTokens_length_le b
  unfold Config.nMax at hn
  rw [lcmpEffect_lNtok, BitVec.toNat_ofNat]
  omega

theorem TokensTrue_of_lcmp {b : Block} (hn : b.inLen.toNat ≤ Config.nMax) : (lcmpEffect b).TokensTrue := by
  refine ⟨hn, ?_⟩
  rw [Block.tokenWords, lcmpEffect_lNtok_toNat hn]
  refine List.ext_getElem (by simp [Block.lzTokens]; rfl) fun k h1 h2 => ?_
  have : (lcmpEffect b).tokenAt k = ((b.lzTokens.map encodeToken)[k]?).getD (b.tokenAt k) :=
    Block.tokenAt_writeFirst b _ k
  have h3 : k < b.lzTokens.length := by simpa using h1
  simp only [List.getElem_map, List.getElem_range, this]
  simp only [List.getElem?_map, List.getElem?_eq_getElem h3]
  rfl

end Sys2Proof.Machine
end

