-- ==== Sys2Proof/Machine/Script.lean ====
section
/-! DEFINITION. The script notation of a host (30_encoding.md R96, R98): the pseudo-operations as the operations each
stands for. -/

namespace Sys2Proof.Machine.Script

/-- `WR4 <name>, v` (R96). -/
def wr4 (l : WordLoc) (v : Word) : HostOp := .wr4 (BitVec.ofNat 32 l.addr) v

/-- `WR1 <name>, v` (R96). -/
def wr1 (l : ByteLoc) (v : Byte) : HostOp := .wr1 (BitVec.ofNat 32 l.addr) v

/-- `RD4 <name>` (R96); its value is the reply, so it also stands for `EXPECT` of a word location (R98). -/
def rd4 (l : WordLoc) : HostOp := .rd4 (BitVec.ofNat 32 l.addr)

/-- `RD1 <name>` (R96); its value is the reply, so it also stands for `EXPECT` of a byte location (R98). -/
def rd1 (l : ByteLoc) : HostOp := .rd1 (BitVec.ofNat 32 l.addr)

/-- `CMD <mnemonic>` (R98). -/
def cmd (i : Instr) : List HostOp := [wr4 .cmd (encode i)]

/-- `LOAD_IN_HEX b0 b1 ...` (R98): the bytes in order, then IN_LEN. -/
def loadIn (bytes : List Byte) : List HostOp :=
  bytes.zipIdx.map (fun p => wr1 (.input p.2) p.1) ++ [wr4 .inLen (BitVec.ofNat 32 bytes.length)]

/-- The bytes of an ASCII text, one per character (R98). -/
def ascii (text : String) : List Byte := text.toList.map fun c => BitVec.ofNat 8 c.toNat

/-- `LOAD_IN "<text>"` (R98). -/
def loadText (text : String) : List HostOp := loadIn (ascii text)

/-- `LOAD_FREQ {s0: c0, ...}` (R98): all 256 words in ascending order, 0 where the list has no entry. -/
def loadFreq (entries : List (Byte × Word)) : List HostOp :=
  symbols.map fun s => wr4 (.freq s) ((entries.lookup s).getD 0)

/-- `CLR_ESTK` (R98). -/
def clrEstk : List HostOp := [wr4 .status 0x00000100]

end Sys2Proof.Machine.Script
end

