-- ==== Sys2Proof/Laws/Bus.lean ====
section
/-! SUPPORT. What a command and a host operation can do, said once. -/

namespace Sys2Proof.Machine

/-! ## Each command is its checks and its effect -/

variable (s : State)

theorem exec_nop : exec .nop s = runChecked noCheck id s := rfl
theorem exec_rst : exec .rst s = runChecked noCheck Block.softReset s := rfl
theorem exec_hclr : exec .hclr s = runChecked noCheck hclrEffect s := rfl
theorem exec_hcnt : exec .hcnt s = runChecked lenCheck hcntEffect s := rfl
theorem exec_hbld : exec .hbld s = runChecked noCheck hbldEffect s := rfl
theorem exec_hasn : exec .hasn s = runChecked hasnCheck hasnEffect s := rfl
theorem exec_hpck : exec .hpck s = runChecked hpckCheck hpckEffect s := rfl
theorem exec_henc : exec .henc s = runChecked lenCheck hencEffect s := rfl
theorem exec_lclr : exec .lclr s = runChecked noCheck lclrEffect s := rfl
theorem exec_lcmp : exec .lcmp s = runChecked lenCheck lcmpEffect s := rfl

/-- The commands as checks and effects, the one place where all ten stand together. -/
theorem exec_is_runChecked (i : Instr) : ∃ check effect, ∀ s, exec i s = runChecked check effect s ∧
    (i, check, effect) ∈ [(Instr.nop, noCheck, id), (.rst, noCheck, Block.softReset), (.hclr, noCheck, hclrEffect),
      (.hcnt, lenCheck, hcntEffect), (.hbld, noCheck, hbldEffect), (.hasn, hasnCheck, hasnEffect),
      (.hpck, hpckCheck, hpckEffect), (.henc, lenCheck, hencEffect), (.lclr, noCheck, lclrEffect),
      (.lcmp, lenCheck, lcmpEffect)] := by
  cases i
  case nop => exact ⟨noCheck, id, fun s => ⟨rfl, by simp⟩⟩
  case rst => exact ⟨noCheck, Block.softReset, fun s => ⟨rfl, by simp⟩⟩
  case hclr => exact ⟨noCheck, hclrEffect, fun s => ⟨rfl, by simp⟩⟩
  case hcnt => exact ⟨lenCheck, hcntEffect, fun s => ⟨rfl, by simp⟩⟩
  case hbld => exact ⟨noCheck, hbldEffect, fun s => ⟨rfl, by simp⟩⟩
  case hasn => exact ⟨hasnCheck, hasnEffect, fun s => ⟨rfl, by simp⟩⟩
  case hpck => exact ⟨hpckCheck, hpckEffect, fun s => ⟨rfl, by simp⟩⟩
  case henc => exact ⟨lenCheck, hencEffect, fun s => ⟨rfl, by simp⟩⟩
  case lclr => exact ⟨noCheck, lclrEffect, fun s => ⟨rfl, by simp⟩⟩
  case lcmp => exact ⟨lenCheck, lcmpEffect, fun s => ⟨rfl, by simp⟩⟩

/-- What the checks of HPCK say when they pass (R129). -/
theorem hpckCheck_eq_none_iff (b : Block) : hpckCheck b = none ↔
    b.inLen.toNat ≤ Config.nMax ∧ b.status.cval = true ∧ firstUncoded b = none := by
  unfold hpckCheck lenCheck
  by_cases h1 : Config.nMax < b.inLen.toNat
  · simp [h1, Nat.not_le.2 h1]
  · by_cases h2 : b.status.cval = true <;> simp [h1, h2, Nat.not_lt.1 h1]

theorem firstUncoded_eq_none_iff (b : Block) : firstUncoded b = none ↔ ∀ x ∈ b.inputBytes, b.codeOf x ≠ [] := by
  simp [firstUncoded, List.findIdx?_eq_none_iff]

/-! ## The host's operations -/

@[simp] theorem locateWord_zero : locateWord 0 = some .cmd := rfl

/-- A step with operations left does the first of them, with the rest left (R15). -/
theorem step_of_host {s : State} {op : HostOp} {rest : List HostOp} (h : s.host = op :: rest) :
    step s = hostStep op { s with host := rest } := by
  simp [step, h]

/-- Everything one host operation can do to the block: nothing, a byte write, a word write of a location that is not CMD,
the error entry of an illegal command word, a command, or the hardware reset. -/
theorem hostStep_cases (op : HostOp) : ∃ s' : State, s'.blk = s.blk ∧ s'.host = s.host ∧
    (hostStep op s = .next s' ∨
      (∃ a v l, op = .wr1 a v ∧ locateByte a = some l ∧ hostStep op s = .next (s'.onBlock fun b => b.writeByte v l)) ∨
      (∃ a v l, op = .wr4 a v ∧ locateWord a = some l ∧ l ≠ .cmd ∧
        hostStep op s = .next (s'.onBlock fun b => b.writeWord v l)) ∨
      (∃ a v r, op = .wr4 a v ∧ locateWord a = some .cmd ∧ decode v = .reject r ∧
        hostStep op s = .next (s'.onBlock (Block.raise .op v))) ∨
      (∃ a v i, op = .wr4 a v ∧ locateWord a = some .cmd ∧ decode v = .instr i ∧ hostStep op s = exec i s') ∨
      (op = .hwReset ∧ hostStep op s = .next (s'.onBlock Block.hwReset))) := by
  cases op with
  | rd1 a =>
    cases h : locateByte a with
    | none => exact ⟨s.answer .busError, rfl, rfl, .inl (by simp [hostStep, h])⟩
    | some l => exact ⟨s.answer (.byte (s.blk.readByte l)), rfl, rfl, .inl (by simp [hostStep, h])⟩
  | rd4 a =>
    cases h : locateWord a with
    | none => exact ⟨s.answer .busError, rfl, rfl, .inl (by simp [hostStep, h])⟩
    | some l => exact ⟨s.answer (.word (s.blk.readWord l)), rfl, rfl, .inl (by simp [hostStep, h])⟩
  | wr1 a v =>
    cases h : locateByte a with
    | none => exact ⟨s.answer .busError, rfl, rfl, .inl (by simp [hostStep, h])⟩
    | some l => exact ⟨s.answer .ok, rfl, rfl, .inr (.inl ⟨a, v, l, rfl, h, by simp [hostStep, h]⟩)⟩
  | wr4 a v =>
    cases h : locateWord a with
    | none => exact ⟨s.answer .busError, rfl, rfl, .inl (by simp [hostStep, h])⟩
    | some l =>
      by_cases hl : l = .cmd
      · subst hl
        cases hd : decode v with
        | instr i =>
          exact ⟨s.answer .ok, rfl, rfl, .inr (.inr (.inr (.inr (.inl
            ⟨a, v, i, rfl, h, hd, by simp [hostStep, h, runCommand, hd]⟩))))⟩
        | reject r =>
          exact ⟨s.answer .ok, rfl, rfl, .inr (.inr (.inr (.inl
            ⟨a, v, r, rfl, h, hd, by simp [hostStep, h, runCommand, hd]⟩)))⟩
      · refine ⟨s.answer .ok, rfl, rfl, .inr (.inr (.inl ⟨a, v, l, rfl, h, hl, ?_⟩))⟩
        cases l <;> first | exact absurd rfl hl | simp [hostStep, h]
  | hwReset => exact ⟨s, rfl, rfl, .inr (.inr (.inr (.inr (.inr ⟨rfl, rfl⟩))))⟩

end Sys2Proof.Machine
end

