-- ==== Sys2Proof/Laws/PerInstr.lean ====
section
/-! SUPPORT. Statements for all commands, one lemma per constructor of Instr. -/

namespace Sys2Proof.Laws.WordOfCommand

/-- The command word has the opcode in bits 7:0 and zeros in bits 31:8 (R90), and the command is well formed. -/
def Statement (i : Instr) : Prop :=
  i.wf = true ∧ opField (encode i) = opcode i ∧ rsvField (encode i) = 0 ∧ (encode i).toNat = (opcode i).toNat

theorem nop : Statement .nop := by refine ⟨rfl, ?_, ?_, ?_⟩ <;> decide
theorem rst : Statement .rst := by refine ⟨rfl, ?_, ?_, ?_⟩ <;> decide
theorem hclr : Statement .hclr := by refine ⟨rfl, ?_, ?_, ?_⟩ <;> decide
theorem hcnt : Statement .hcnt := by refine ⟨rfl, ?_, ?_, ?_⟩ <;> decide
theorem hbld : Statement .hbld := by refine ⟨rfl, ?_, ?_, ?_⟩ <;> decide
theorem hasn : Statement .hasn := by refine ⟨rfl, ?_, ?_, ?_⟩ <;> decide
theorem hpck : Statement .hpck := by refine ⟨rfl, ?_, ?_, ?_⟩ <;> decide
theorem henc : Statement .henc := by refine ⟨rfl, ?_, ?_, ?_⟩ <;> decide
theorem lclr : Statement .lclr := by refine ⟨rfl, ?_, ?_, ?_⟩ <;> decide
theorem lcmp : Statement .lcmp := by refine ⟨rfl, ?_, ?_, ?_⟩ <;> decide

end Sys2Proof.Laws.WordOfCommand
end

