-- ==== Sys2Proof/Tests/Slice0.lean ====
section
/-! SUPPORT. The model's own tests: ill-formed terms, words written out from the encoding, one step per command with the
values of 95_test_vectors.md, and a witness for the hypotheses of each obligation. -/

namespace Sys2Proof.Tests

open Sys2Proof Sys2Proof.Machine Sys2Proof.Machine.Script

set_option Elab.async false

/-! ## Small states -/

/-- The state an outcome ends in; the reset state where it does not end in one. -/
def after : Host.Outcome State Fault Refusal → State
  | .next t => t
  | .fault _ => State.reset
  | .refused _ => State.reset

/-- From reset, IN = the bytes and IN_LEN their number. -/
def withInput (bytes : List Byte) : State :=
  { State.reset with
    blk := { Block.reset with
      input := bytes.zipIdx.map fun p => (p.2, p.1), inLen := BitVec.ofNat 32 bytes.length } }

/-- The same with the bytes of a text. -/
def withText (text : String) : State := withInput (ascii text)

/-- From reset, FREQ as listed and 0 elsewhere. -/
def withFreq (entries : List (Byte × Word)) : State :=
  { State.reset with
    blk := { Block.reset with freq := entries.foldl (fun t e => tableSet t e.1 e.2) (Vector.replicate 256 0) } }

/-- From reset, IN_LEN as given. -/
def withLen (n : Word) : State := State.onBlock (fun b => { b with inLen := n }) State.reset

/-- From reset, the host's next operation is `op`. -/
def withOp (op : HostOp) : State := { State.reset with host := [op] }

/-- One command on a state. -/
def run (i : Instr) (s : State) : State := after (exec i s)

/-- The four words of NODE[k] (R38). -/
def nodeWords (s : State) (k : Nat) : List Word := [0, 1, 2, 3].map fun w => s.blk.readWord (.node k w)

/-- STATUS, EINFO, H_NSYM, H_NNODE, H_ROOT. -/
def shape (s : State) : List Nat :=
  [WordLoc.status, .einfo, .hNsym, .hNnode, .hRoot].map fun l => (s.blk.readWord l).toNat

/-! ## Ill-formed terms are refused (one for each check) -/

theorem test_wf_offset_zero : Token.wf 32768 258 (.backRef 0 3) = false := by decide
theorem test_wf_offset_beyond_window : Token.wf 6 258 (.backRef 7 3) = false := by decide
theorem test_wf_length_two : Token.wf 32768 258 (.backRef 1 2) = false := by decide
theorem test_wf_length_beyond_lookahead : Token.wf 32768 258 (.backRef 300 259) = false := by decide
theorem test_wf_leaf_with_child :
    NodeEntry.wf { leaf := true, sym := 97, freq := 1, left := 0, right := noNode } = false := by decide
theorem test_wf_inner_with_symbol :
    NodeEntry.wf { leaf := false, sym := 97, freq := 2, left := 0, right := 1 } = false := by decide
theorem test_wf_padding_beyond_bits : Meta.fits 0 (.triple (Vector.replicate 256 0) 3 0) = false := by decide
theorem test_wf_node_511 : WordLoc.inMap (.node 511 0) = false := by decide
theorem test_wf_token_cap : WordLoc.inMap (.token 1048576) = false := by decide
theorem test_wf_input_cap : ByteLoc.inMap (.input 1048576) = false := by decide
theorem test_wf_coded_cap : ByteLoc.inMap (.coded 33423360) = false := by decide
theorem test_wf_accepts : Token.wf 32768 258 (.backRef 32768 258) = true ∧ Token.wf 0 0 (.lit 255) = true ∧
    Instr.wf .henc = true := by decide

/-! ## Words written out bit by bit (R90, R91, R97) -/

theorem test_decode_system : decode 0b00000000000000000000000000000000#32 = .instr .nop ∧
    decode 0b00000000000000000000000000000001#32 = .instr .rst := by decide
theorem test_decode_huffman : decode 0b00000000000000000000000000010000#32 = .instr .hclr ∧
    decode 0b00000000000000000000000000010001#32 = .instr .hcnt ∧
    decode 0b00000000000000000000000000010010#32 = .instr .hbld ∧
    decode 0b00000000000000000000000000010011#32 = .instr .hasn ∧
    decode 0b00000000000000000000000000010100#32 = .instr .hpck ∧
    decode 0b00000000000000000000000000010101#32 = .instr .henc := by decide
theorem test_decode_lz : decode 0b00000000000000000000000000100000#32 = .instr .lclr ∧
    decode 0b00000000000000000000000000100001#32 = .instr .lcmp := by decide
/-- V-E1: the illegal words. -/
theorem test_decode_rejects : decode 0x00000002#32 = .reject .unassignedOpcode ∧
    decode 0x00000016#32 = .reject .unassignedOpcode ∧ decode 0x0000001F#32 = .reject .unassignedOpcode ∧
    decode 0x00000022#32 = .reject .unassignedOpcode ∧ decode 0x000000FF#32 = .reject .unassignedOpcode ∧
    decode 0x00000115#32 = .reject .reservedBits ∧ decode 0xFFFFFFFF#32 = .reject .reservedBits := by decide
theorem test_decodeTableWord : decodeTableWord 32 0x21 = some .lcmp ∧ decodeTableWord 32 0x115 = none ∧
    decodeTableWord 8 0x15 = some .henc := by decide
/-- V-L1, V-L9: token words. -/
theorem test_token_words : encodeToken (.lit 0x61) = 0x00000061#32 ∧ encodeToken (.backRef 3 3) = 0x80030003#32 ∧
    encodeToken (.backRef 12 3) = 0x8003000C#32 ∧
    decodeToken 0b10000000000001000000000000000111#32 = .backRef 7 4 := by decide

/-! ## One step per command, values from 95_test_vectors.md -/

/-- V-E1, V-E2: after an illegal word, NOP. -/
theorem test_nop_keeps_sticky :
    shape (run .nop (after (step (withOp (.wr4 0 0x00000002))))) = [0x100, 2, 0, 0, 0x1FF] := by decide +kernel
/-- V-E8, on the state of V-H2 after an E_OP. -/
theorem test_rst_registers :
    let s := run .rst (State.onBlock (Block.raise .op 2) (run .henc (withText "abracadabra")))
    shape s = [0, 0, 0, 0, 0x1FF] ∧ s.blk.inLen = 0 ∧ s.blk.lWin = 32768 ∧ s.blk.lLook = 258 ∧
      s.blk.freqOf 97 = 0 ∧ s.blk.readWord (.clen 97) = 0 := by decide +kernel
theorem test_rst_memories :
    let s := run .rst (run .henc (withText "abracadabra"))
    s.blk.readByte (.input 0) = 0x61 ∧ s.blk.readByte (.coded 0) = 0x6E ∧ s.blk.readWord (.node 8 1) = 0xB := by
  decide +kernel
/-- V-E9. -/
theorem test_hclr : let s := run .hclr (run .lcmp (run .henc (withText "ab")))
    shape s = [0x2000, 0, 0, 0, 0x1FF] ∧ s.blk.freqOf 97 = 0 ∧ s.blk.codeOf 98 = [] ∧ s.blk.hOrig = 0 ∧
      s.blk.hPad = 0 ∧ s.blk.hClen = 0 ∧ s.blk.inLen = 2 ∧ s.blk.readByte (.coded 0) = 0x40 := by decide +kernel
/-- V-H2, V-H19. -/
theorem test_hcnt : let s := run .hcnt (withText "abracadabra")
    [97, 98, 99, 100, 114, 115].map s.blk.freqOf = [5, 2, 1, 1, 2, 0] ∧ s.blk.readWord .status = 0 := by
  decide +kernel
/-- V-E3. -/
theorem test_hcnt_too_long :
    shape (run .hcnt (withLen 0x00100001)) =
      [0x102, 0x00100001, 0, 0, 0x1FF] := by decide +kernel
/-- V-H7: the tie between a leaf and an internal node. -/
theorem test_hbld_tie : let s := run .hbld (withFreq [(97, 1), (98, 1), (99, 2)])
    shape s = [0x200, 0, 3, 5, 4] ∧ nodeWords s 3 = [0, 2, 0, 0x00010000] ∧ nodeWords s 4 = [0, 4, 0, 0x00030002] := by
  decide +kernel
/-- V-H18: sums wider than 32 bits. -/
theorem test_hbld_wide : let s := run .hbld (withFreq [(0, 0xFFFFFFFF), (7, 1), (255, 0xFFFFFFFF)])
    nodeWords s 3 = [0, 0, 1, 0x00000001] ∧ nodeWords s 4 = [0, 0xFFFFFFFF, 1, 0x00030002] := by decide +kernel
/-- V-H16: the code lengths 1 to 7. -/
theorem test_hasn :
    let s := run .hasn (run .hbld (withFreq [(65, 1), (66, 1), (67, 2), (68, 3), (69, 5), (70, 8), (71, 13), (72, 21)]))
    s.blk.codeOf 72 = [false] ∧ s.blk.codeOf 71 = [true, false] ∧
      s.blk.codeOf 65 = [true, true, true, true, true, true, false] ∧
      s.blk.codeOf 66 = [true, true, true, true, true, true, true] ∧ s.blk.readWord .status = 0x600 := by decide +kernel
/-- V-E4. -/
theorem test_hasn_too_early : shape (run .hasn State.reset) = [0x103, 0x13, 0, 0, 0x1FF] := by decide +kernel
/-- V-H17: a table that is not the input's own; the state is that of `LOAD_FREQ`, HBLD, HASN, `LOAD_IN`. -/
def foreignTable (text : String) : State :=
  State.onBlock (fun b => { b with input := (withText text).blk.input, inLen := (withText text).blk.inLen })
    (run .hasn (run .hbld (withFreq [(97, 2), (98, 1)])))
theorem test_hpck : let s := run .hpck (foreignTable "bbbab")
    s.blk.codedBytes = [0x10] ∧ s.blk.hPad = 3 ∧ s.blk.hClen = 1 ∧ s.blk.hOrig = 5 ∧
      s.blk.readWord .status = 0xE00 := by decide +kernel
/-- P3: the third byte has no code. -/
theorem test_hpck_no_code : let s := run .hpck (foreignTable "abc")
    shape s = [0x704, 2, 2, 3, 2] ∧ s.blk.hClen = 0 := by decide +kernel
/-- V-H2. -/
theorem test_henc : let s := run .henc (withText "abracadabra")
    shape s = [0xE00, 0, 5, 9, 8] ∧ s.blk.codedBytes = [0x6E, 0x8A, 0xDC] ∧ s.blk.hPad = 1 ∧ s.blk.hOrig = 11 ∧
      [97, 98, 99, 100, 114].map (fun x => s.blk.readWord (.cbits x 0)) = [0, 3, 1, 5, 7] ∧
      nodeWords s 4 = [0x00007201, 2, 0, 0x01FF01FF] ∧ nodeWords s 8 = [0, 0xB, 0, 0x00070000] := by decide +kernel
/-- V-H3. -/
theorem test_henc_empty : let s := run .henc State.reset
    shape s = [0x1E00, 0, 0, 0, 0x1FF] ∧ s.blk.hClen = 0 ∧ s.blk.coded = [] ∧ s.blk.node = [] := by decide +kernel
/-- V-E9. -/
theorem test_lclr : let s := run .lclr (run .lcmp (withText "ab"))
    s.blk.readWord .status = 0 ∧ s.blk.lNtok = 0 ∧ s.blk.readWord (.token 0) = 0x61 := by decide +kernel
/-- V-L6: the earliest candidate wins. -/
theorem test_lcmp_tie : (run .lcmp (withText "abcXabcYabc")).blk.tokenWords =
    [0x61, 0x62, 0x63, 0x58, 0x80030004, 0x59, 0x80030008] := by decide +kernel
/-- V-L9: lookahead 4 cuts the match. -/
theorem test_lcmp_lookahead :
    (run .lcmp (State.onBlock (fun b => { b with lLook := 4 }) (withText "abcdefabcdef"))).blk.tokenWords =
      [0x61, 0x62, 0x63, 0x64, 0x65, 0x66, 0x80040006, 0x65, 0x66] := by decide +kernel

/-! ## One bus operation (V-E5, V-E6, V-E7) -/

theorem test_bus_errors : (∀ op ∈ [HostOp.wr1 0x00000000 0x15, .rd1 0x00000004, .rd4 0x00000002, .rd4 0x00000034,
      .rd4 0x000003FC, .rd4 0x00000C00, .rd4 0x00005FF0, .rd4 0x10000000, .rd1 0x10100000, .rd1 0x40000000,
      .rd4 0x40000002, .rd1 0x21FE0000, .rd4 0x40400000],
    (after (step (withOp op))).reply = some .busError ∧ (after (step (withOp op))).blk.status = Status.reset) := by
  decide +kernel
theorem test_bus_last_locations : locateWord 0x00005FEC = some (.node 510 3) ∧
    locateByte 0x100FFFFF = some (.input 1048575) ∧ locateByte 0x21FDFFFF = some (.coded 33423359) ∧
    locateWord 0x403FFFFC = some (.token 1048575) ∧ locateWord 0x00001C40 = some (.cbits 98 0) ∧
    locateWord 0x00000584 = some (.freq 97) := by decide +kernel
theorem test_bus_fields : let b := Block.reset
    (b.writeWord 0x00012345 .lWin).readWord .lWin = 0x00002345 ∧ (b.writeWord 0xFFFFFFFF .lLook).readWord .lLook = 0x1FF ∧
      (b.writeWord 0xFFFFFFFF (.freq 0)).readWord (.freq 0) = 0xFFFFFFFF ∧
      (b.writeByte 0xAB (.input 0)).readByte (.input 0) = 0xAB := by decide +kernel
/-- R211: the codes of the five results. -/
theorem test_error_codes : [ErrCode.ok, .op, .len, .seq, .noCode].map ErrCode.toByte = [0, 1, 2, 3, 4] := by decide
theorem test_bus_read_only : Block.reset.writeWord 5 .hOrig = Block.reset := rfl
/-- V-E5: invalidation. -/
theorem test_bus_invalidates : let b := (run .lcmp (run .henc (withText "ab"))).blk
    b.readWord .status = 0x2E00 ∧ (b.writeWord 258 .lLook).readWord .status = 0xE00 ∧
      (b.writeWord 2 .inLen).readWord .status = 0x600 ∧ (b.writeByte 0 (.input 5)).readWord .status = 0x600 ∧
      (b.writeWord 1 (.freq 97)).readWord .status = 0x2000 := by decide +kernel

/-! ## The reference inverses (V-R2, V-R3, V-R6, V-R7) -/

theorem test_hdec : let f := (withFreq [(97, 5), (98, 2), (99, 1), (100, 1), (114, 2)]).blk.freq
    let g := (withFreq [(97, 4)]).blk.freq
    hdec [0x6E, 0x8A, 0xDC, 0xFF] (.triple f 1 11) = some (ascii "abracadabra") ∧
      hdec [] (.triple f 3 0) = none ∧ hdec [0x80] (.triple g 4 4) = none := by decide +kernel
theorem test_lzdec : lzdec [.lit 0x61, .lit 0x62, .backRef 2 5] = some (ascii "abababa") ∧
    lzdec [.lit 0x61, .backRef 2 1] = none ∧ lzdec [.lit 0x61, .backRef 0 1] = none := by decide +kernel

/-! ## A block whose valid flags tell the truth -/

/-- After HENC on an input whose bytes all get a code, all Huffman flags tell the truth. -/
theorem flagsTrue_henc (b : Block) (hn : b.inLen.toNat ≤ Config.nMax) (hl : b.status.lval = false)
    (hc : ∀ x ∈ b.inputBytes, (hasnEffect (hbldEffect (hcntEffect (hclrEffect b)))).codeOf x ≠ []) :
    (hencEffect b).FlagsTrue ∧ (hencEffect b).status.tval = true ∧ (hencEffect b).status.cval = true ∧
      (hencEffect b).status.pval = true := by
  have hp : (hencEffect b).PackTrue := PackTrue_of_hpck hn (CodesBounded_of_CodesTrue (CodesTrue_of_hasn _)) hc
  have ht : (hencEffect b).TreeTrue := TreeTrue_of_hbld (hcntEffect (hclrEffect b))
  have hcd : (hencEffect b).CodesTrue := CodesTrue_of_hasn (hbldEffect (hcntEffect (hclrEffect b)))
  refine ⟨⟨fun _ => ht, fun _ => ⟨rfl, hcd⟩, fun _ => ⟨rfl, hp⟩, fun h => ?_⟩, rfl, rfl, rfl⟩
  have : (hencEffect b).status.lval = b.status.lval := rfl
  rw [this, hl] at h
  exact absurd h (by decide)

/-- The block after HENC on a text. -/
def encoded (text : String) : Block := hencEffect (withText text).blk

theorem encoded_aab : (encoded "aab").FlagsTrue ∧ (encoded "aab").status.tval = true ∧
    (encoded "aab").status.cval = true ∧ (encoded "aab").status.pval = true :=
  flagsTrue_henc _ (by decide) rfl (by decide +kernel)

theorem encoded_a : (encoded "a").FlagsTrue ∧ (encoded "a").status.tval = true ∧
    (encoded "a").status.cval = true ∧ (encoded "a").status.pval = true :=
  flagsTrue_henc _ (by decide) rfl (by decide +kernel)

/-- A one-operation state and the list it starts with. -/
theorem withOp_host (op : HostOp) : (withOp op).host = op :: [] := rfl

/-! ## Witnesses: states and operands that meet the hypotheses of each obligation -/

/-- The list of operations with one CMD write, for every word; and illegal words at the ends of the ranges of R93. -/
theorem witness_IllegalWordsFailWithEOp : (∀ v, (withOp (.wr4 0 v)).host = .wr4 0 v :: []) ∧
    ∀ v ∈ [(0x02 : Word), 0x0F, 0x16, 0x1F, 0x22, 0xFF, 0x100, 0x80000015, 0xFFFFFFFF],
      v.toNat ∉ [0x00, 0x01, 0x10, 0x11, 0x12, 0x13, 0x14, 0x15, 0x20, 0x21] := ⟨fun _ => rfl, by simp⟩

theorem witness_TokenWordsRoundTrip : ∀ t ∈ [Token.lit 0, .lit 255, .backRef 1 3, .backRef 65535 511],
    t.wf 65535 511 = true := by decide

/-- The first and the last location of each row of R62. -/
theorem witness_AddressMapIsTheTable :
    (∀ l ∈ [WordLoc.cmd, .lNtok, .freq 0, .freq 255, .clen 0, .clen 255, .cbits 0 0, .cbits 255 7, .node 0 0, .node 510 3,
        .token 0, .token 1048575],
      l.inMap = true ∧ ((BitVec.ofNat 32 l.addr).toNat = l.addr ∧ locateWord (BitVec.ofNat 32 l.addr) = some l)) ∧
    ∀ l ∈ [ByteLoc.input 0, .input 1048575, .coded 0, .coded 33423359],
      l.inMap = true ∧ ((BitVec.ofNat 32 l.addr).toNat = l.addr ∧ locateByte (BitVec.ofNat 32 l.addr) = some l) := by
  decide +kernel

/-- 0x34 starts no word, 0x10100000 no byte; 0x4 is a word location and 0x10000000 a byte location. -/
theorem witness_RefusedAccessesAreBusErrors :
    (∀ l : WordLoc, l.inMap = true → l.addr ≠ (0x34 : Addr).toNat) ∧
      (∀ l : ByteLoc, l.inMap = true → l.addr ≠ (0x10100000 : Addr).toNat) ∧
      (WordLoc.status.inMap = true ∧ WordLoc.status.addr = (4 : Addr).toNat) ∧
      ((ByteLoc.input 0).inMap = true ∧ (ByteLoc.input 0).addr = (0x10000000 : Addr).toNat) := by
  refine ⟨fun l _ => ?_, fun l h => ?_, by decide, by decide⟩
  · show l.addr ≠ 0x34
    cases l <;> simp only [WordLoc.addr, ne_eq] <;> omega
  · show l.addr ≠ 0x10100000
    cases l <;> simp only [ByteLoc.inMap, decide_eq_true_eq] at h <;>
      simp only [ByteLoc.addr, Config.nMax, ne_eq] at h ⊢ <;> omega

theorem witness_ReadsReturnTheLocationAndChangeNothing :
    (∀ l ∈ [WordLoc.status, .token 1048575],
      l.inMap = true ∧ (withOp (.rd4 (BitVec.ofNat 32 l.addr))).host = .rd4 (BitVec.ofNat 32 l.addr) :: []) ∧
    ∀ l ∈ [ByteLoc.input 1048575, .coded 33423359],
      l.inMap = true ∧ (withOp (.rd1 (BitVec.ofNat 32 l.addr))).host = .rd1 (BitVec.ofNat 32 l.addr) :: [] := by
  decide

theorem witness_ReadOnlyWritesAreIgnored :
    (∀ l ∈ [WordLoc.einfo, .lNtok, .clen 255, .cbits 255 7, .node 510 3, .token 1048575], l.inMap = true ∧
      (withOp (.wr4 (BitVec.ofNat 32 l.addr) 5)).host = .wr4 (BitVec.ofNat 32 l.addr) 5 :: []) ∧
    (33423359 < Config.codedCap ∧ (withOp (.wr1 (BitVec.ofNat 32 (ByteLoc.coded 33423359).addr) 5)).host =
      .wr1 (BitVec.ofNat 32 (ByteLoc.coded 33423359).addr) 5 :: []) ∧
    (withOp (.rd4 0)).host = .rd4 0 :: [] := by decide

theorem witness_StatusReadsItsFieldsAndClearsOnlyEstk : (withOp (.wr4 0x4 0x100)).host = .wr4 0x4 0x100 :: [] := rfl

theorem witness_ReservedBitsReadZeroAndIgnoreWrites : (0xFFFFFEFF : Word).getLsbD 8 = false := by decide

theorem witness_CodeViewsShowTheCode : (encoded "aab").CodesBounded :=
  CodesBounded_of_CodesTrue (encoded_aab.1.2.1 encoded_aab.2.2.1).2

theorem witness_HostWritesStoreAndInvalidate :
    (∀ a v, (withOp (.wr4 a v)).host = .wr4 a v :: []) ∧ (∀ a v, (withOp (.wr1 a v)).host = .wr1 a v :: []) ∧
      0 < Config.nMax ∧ 1048575 < Config.nMax ∧ decode 0x15 = .instr .henc ∧
      ∀ l ∈ [WordLoc.einfo, .lNtok, .clen 255, .cbits 255 7, .node 510 3, .token 1048575],
        l.inMap = true ∧ l ∉ [WordLoc.cmd, .status, .inLen, .lWin, .lLook] ∧ ∀ x ∈ [(0 : Byte), 255], l ≠ .freq x :=
  ⟨fun _ _ => rfl, fun _ _ => rfl, by decide, by decide, by decide, by decide⟩

theorem witness_WrittenLocationsReadBack : ByteLoc.input 1 ≠ .input 0 ∧ WordLoc.freq 1 ≠ .freq 0 ∧
    WordLoc.freq 1 ≠ .status ∧ WordLoc.lWin ≠ .inLen ∧ WordLoc.lLook ≠ .lWin ∧ WordLoc.inLen ≠ .lLook := by decide

theorem witness_StepRunsTheDecodedCommand :
    (withOp (.wr4 0 0x12)).host = .wr4 0 0x12 :: [] ∧ decode 0x12 = .instr .hbld ∧
      decodeTableWord 32 0x12 = some .hbld := by decide

theorem witness_EveryStepCompletes : State.reset.host = [] ∧ (withOp .hwReset).host = .hwReset :: [] := ⟨rfl, rfl⟩

/-- IN_LEN one above N_MAX; no tree; no codes; an input whose third byte is the first without a code. -/
theorem witness_ErrorsAreRaisedInPriorityOrder :
    Config.nMax < (withLen 0x00100001).blk.inLen.toNat ∧ State.reset.blk.status.tval = false ∧
      (State.reset.blk.inLen.toNat ≤ Config.nMax ∧ State.reset.blk.status.cval = false) ∧
      let b := (foreignTable "abc").blk
      b.inLen.toNat ≤ Config.nMax ∧ b.status.cval = true ∧ 2 < b.inLen.toNat ∧ b.codeOf (b.inputAt 2) = [] ∧
        ∀ j, j < 2 → b.codeOf (b.inputAt j) ≠ [] := by decide +kernel

/-- Each of the three ways: hardware reset, RST, a write of STATUS. -/
theorem witness_StickyErrorIsClearedOnlyByHostOrReset :
    ∀ op ∈ [HostOp.hwReset, .wr4 0 (encode .rst), .wr4 4 0x100],
      let s := State.onBlock (Block.raise .op 2) (withOp op)
      Completes (step s) ∧ s.blk.status.estk = true ∧ (after (step s)).blk.status.estk = false := by
  have h : ∀ op ∈ [HostOp.hwReset, .wr4 0 (encode .rst), .wr4 4 0x100],
      let s := State.onBlock (Block.raise .op 2) (withOp op)
      s.blk.status.estk = true ∧ (after (step s)).blk.status.estk = false := by decide +kernel
  intro op hop
  refine ⟨?_, h op hop⟩
  simp only [List.mem_cons, List.not_mem_nil, or_false] at hop
  rcases hop with rfl | rfl | rfl <;> exact ⟨_, rfl⟩

/-- Also for RstRestoresRegistersAndKeepsMemories. -/
theorem witness_SuccessKeepsStickyAndInfo : Instr.nop ≠ .rst ∧
    exec .nop State.reset = .next State.reset ∧ State.reset.blk.status.err = .ok := ⟨by decide, rfl, rfl⟩

theorem witness_HardwareResetForgetsEverything : (withOp .hwReset).host = .hwReset :: [] := rfl

/-- IN_LEN = N_MAX, the greatest accepted, and N_MAX + 1. -/
theorem witness_HcntCountsTheInput : (withLen 0x00100000).blk.inLen.toNat ≤ Config.nMax ∧
    Config.nMax < (withLen 0x00100001).blk.inLen.toNat := by decide

/-- Tables with 0, 1, 2 and 256 symbols; HBLD completes on each. -/
theorem witness_HbldOfOneOrNoSymbol :
    (codedSymbols State.reset.blk.freq).length = 0 ∧ (codedSymbols (withFreq [(255, 4)]).blk.freq).length = 1 ∧
      Completes (exec .hbld State.reset) ∧ Completes (exec .hbld (withFreq [(255, 4)])) :=
  ⟨by decide +kernel, by decide +kernel, ⟨_, rfl⟩, ⟨_, rfl⟩⟩

theorem witness_HbldMakesTheLeavesInOrder :
    (codedSymbols (withFreq [(255, 4), (0, 0xFFFFFFFF)]).blk.freq)[0]? = some 0 ∧
      (codedSymbols (withFreq [(255, 4), (0, 0xFFFFFFFF)]).blk.freq)[1]? = some 255 := by decide +kernel

theorem witness_HbldMergesTheTwoLeastLiveNodes :
    ((codedSymbols (withFreq [(0, 1), (255, 4)]).blk.freq).length = 2 ∧ 2 ≤ 2 ∧ 2 ≤ 2 ∧ 2 < 2 * 2 - 1) ∧
      ((codedSymbols (Vector.replicate 256 (1 : Word))).length = 256 ∧ 256 ≤ 510 ∧ 510 < 2 * 256 - 1) := by decide +kernel

theorem witness_HbldMakesATree :
    (codedSymbols (withFreq [(0, 1), (9, 1), (255, 4)]).blk.freq).length = 3 ∧
      Completes (exec .hbld (withFreq [(0, 1), (9, 1), (255, 4)])) ∧
      (3 ≤ 3 ∧ 3 < 2 * 3 - 1) ∧ 3 < 2 * 3 - 2 ∧ 3 + 1 < 2 * 3 - 1 :=
  ⟨by decide +kernel, ⟨_, rfl⟩, by decide, by decide, by decide⟩

theorem witness_HasnAssignsThePathToEachLeaf :
    ((encoded "aab").status.tval = true ∧ (encoded "aab").FlagsTrue) ∧ State.reset.blk.status.tval = false :=
  ⟨⟨encoded_aab.2.1, encoded_aab.1⟩, rfl⟩

theorem witness_CodesArePrefixFree : (encoded "aab").FlagsTrue ∧ (encoded "aab").status.cval = true ∧
    (encoded "aab").codeOf 0x61 ≠ [] ∧ (encoded "aab").codeOf 0x61 <+: (encoded "aab").codeOf 0x61 :=
  ⟨encoded_aab.1, encoded_aab.2.2.1, by decide +kernel, List.prefix_rfl⟩

/-- Two symbols, and one. -/
theorem witness_CodesAreComplete : (encoded "aab").FlagsTrue ∧ (encoded "aab").status.cval = true ∧
    2 ≤ (encoded "aab").hNsym.toNat ∧ (encoded "a").FlagsTrue ∧ (encoded "a").status.cval = true ∧
    (encoded "a").hNsym = 1 :=
  ⟨encoded_aab.1, encoded_aab.2.2.1, by decide +kernel, encoded_a.1, encoded_a.2.2.1, by decide +kernel⟩

theorem witness_BytesAreFilledFromTheTopBit :
    (List.replicate 8 true).length % 8 = 0 ∧ 0 < (List.replicate 8 true).length / 8 ∧ 0 < [(0x80 : Byte)].length ∧ 7 < 8 := by
  decide

theorem witness_HpckPacksTheCodes : (encoded "aab").CodesBounded ∧ (encoded "aab").inLen.toNat ≤ Config.nMax ∧
    (encoded "aab").status.cval = true ∧
    (∀ k, k < (encoded "aab").inLen.toNat → (encoded "aab").codeOf ((encoded "aab").inputAt k) ≠ []) ∧
    [true, true, false] = (List.range (encoded "aab").inLen.toNat).flatMap
      (fun k => (encoded "aab").codeOf ((encoded "aab").inputAt k)) :=
  ⟨witness_CodeViewsShowTheCode, by decide, encoded_aab.2.2.1, by decide +kernel, by decide +kernel⟩

/-- For HencEncodesTheInput, HencIsTheStageSequence, HencOfDegenerateInputs, LcmpEmitsTheGreedyParse: the empty input, an
input of one byte value, and IN_LEN = N_MAX. -/
theorem witness_HencOfDegenerateInputs : State.reset.blk.inLen.toNat ≤ Config.nMax ∧ State.reset.blk.inLen = 0 ∧
    (withLen 0x00100000).blk.inLen.toNat ≤ Config.nMax ∧ 0 < (withText "aaa").blk.inLen.toNat ∧
    ∀ k, k < (withText "aaa").blk.inLen.toNat → (withText "aaa").blk.inputAt k = 0x61 := by decide +kernel

/-- Two states with the input "ab", one of them with other counts and another window. -/
theorem witness_HencDependsOnTheInputAlone :
    let s := withText "ab"
    let s' := State.onBlock (fun b => { b with freq := Vector.replicate 256 7, lWin := 1 }) s
    s.blk.inLen = s'.blk.inLen ∧ s.blk.inputBytes = s'.blk.inputBytes ∧ s.blk.inLen.toNat ≤ Config.nMax ∧
      Completes (exec .henc s) ∧ Completes (exec .henc s') :=
  ⟨rfl, rfl, by decide, ⟨_, rfl⟩, ⟨_, rfl⟩⟩

theorem witness_HuffmanRoundTrip : (encoded "aab").FlagsTrue ∧ (encoded "aab").status.pval = true :=
  ⟨encoded_aab.1, encoded_aab.2.2.2⟩

theorem witness_HdecExitsAndLength :
    8 * ([] : List Byte).length < (1 : BitVec 3).toNat ∧ (7 : BitVec 3).toNat ≤ 8 * [(0 : Byte)].length ∧
      (∀ x, tableGet (Vector.replicate 256 (0 : Word)) x = 0) ∧ (1 : Word) ≠ 0 ∧
      hdec [0x00] (.triple (withFreq [(97, 4)]).blk.freq 4 4) = some (ascii "aaaa") := by
  refine ⟨by decide, by decide, fun x => ?_, by decide, by decide +kernel⟩
  simp [tableGet]

/-- A counted symbol; 16 bits less 1 with 16 symbols expected; V-R3's byte 80, whose first bit is 1; and in V-R3's
one-symbol tree the child to the left, a leaf, and the missing child to the right; in V-H7's tree an inner child. -/
theorem witness_HdecExitsAndLength_walk :
    tableGet (withFreq [(97, 4)]).blk.freq 97 ≠ 0 ∧ (1 : BitVec 3).toNat ≤ 8 * [(0x6E : Byte), 0x8A].length ∧
      8 * [(0x6E : Byte), 0x8A].length - (1 : BitVec 3).toNat < (16 : Word).toNat ∧
      ((codedSymbols (withFreq [(97, 4)]).blk.freq).length = 1 ∧ 0 < (4 : Word).toNat ∧
        0 < 8 * [(0x80 : Byte)].length - (4 : BitVec 3).toNat ∧ (bitsMsb [0x80]).getD 0 false = true) ∧
      (let t := buildTree (withFreq [(97, 4)]).blk.freq
       (t.nodes[1]?).map (fun e => (e.left, e.right)) = some (0, 0x1FF) ∧ (t.nodes[0]?).map (·.leaf) = some true) ∧
      let t := buildTree (withFreq [(97, 1), (98, 1), (99, 2)]).blk.freq
      (t.nodes[4]?).map (·.right) = some 3 ∧ (t.nodes[3]?).map (·.leaf) = some false := by decide +kernel

/-- V-L1; also for LcmpMatchesNeverOverlap. -/
theorem witness_LcmpTokensAreWellFormed : (withText "aaaaaaaa").blk.inLen.toNat ≤ Config.nMax ∧
    Completes (exec .lcmp (withText "aaaaaaaa")) ∧
    Token.backRef 3 3 ∈ (lcmpEffect (withText "aaaaaaaa").blk).tokens := ⟨by decide, ⟨_, rfl⟩, by decide +kernel⟩

/-- An interval of 1, and a round (the fourth of V-L1) that registers three positions. -/
theorem witness_DictionaryStaysBounded : 1 ≤ (lzJobOf #[] 0 0 1).prune ∧
    let j := lzJobOf (ascii "aaaaaaaa").toArray 32768 258 1
    1 ≤ j.prune ∧ 3 ≤ j.stepOf (j.rounds 3 LzRun.start) := by decide +kernel

theorem witness_LzRoundTrip : (lcmpEffect (withText "aaaaaaaa").blk).FlagsTrue ∧
    (lcmpEffect (withText "aaaaaaaa").blk).status.lval = true := by
  refine ⟨⟨fun h => ?_, fun h => ?_, fun h => ?_, fun _ => TokensTrue_of_lcmp (by decide)⟩, rfl⟩ <;>
    exact absurd h (by decide)

theorem witness_LzdecCopiesByteByByte : (0 < 1 ∨ ([] : List Byte).length < 0) ∧
    1 ≤ 1 ∧ 1 ≤ [(0x61 : Byte)].length ∧ 6 < 7 := by decide

/-- For the four frame statements: each command on a small state completes. -/
theorem witness_frames : ∀ i : Instr, Completes (exec i (withText "ab")) := by
  intro i; cases i <;> exact ⟨_, rfl⟩

theorem witness_StoringCommandsKeepTheRest : (withText "ab").blk.CodesBounded := by
  intro x
  simp [withText, withInput, Block.codeOf, tableGet, Block.reset]

/-- A state with a step ahead and true flags that are 1. -/
theorem witness_ValidFlagsStayTrue :
    let s : State := { blk := encoded "aab", host := [.wr1 0x10000000 0x62], reply := none }
    s.blk.FlagsTrue ∧ s.blk.status.pval = true ∧ Completes (step s) := ⟨encoded_aab.1, encoded_aab.2.2.2, ⟨_, rfl⟩⟩

theorem witness_MemoriesStayCanonical :
    let s : State := { blk := (withText "ab").blk, host := [.wr4 0 0x15], reply := none }
    s.blk.MemoriesWf ∧ s.blk.CodesBounded ∧ Completes (step s) :=
  ⟨by unfold Block.MemoriesWf; decide +kernel, witness_StoringCommandsKeepTheRest, ⟨_, rfl⟩⟩

end Sys2Proof.Tests
end

section
/-! The address map read from a location to its address and back (20_memory.md R62), one host write as one step (R61, R67),
and what a host write stores and invalidates (10_state.md R43). -/

namespace Sys2Proof.Machine

/-! ## A location is found at its own address (R62) -/

/-- A word location is the one that a 4-byte access at its address reaches (R62, R63). -/
theorem locateWord_of_addr {l : WordLoc} {a : Addr} (h : l.inMap = true) (ha : l.addr = a.toNat) :
    locateWord a = some l := by
  cases l
  case freq x =>
    have hx : (0x400 + 4 * x.toNat - 0x400) / 4 = x.toNat := by omega
    simp (disch := omega) only [locateWord, ← ha, WordLoc.addr, if_pos, if_neg, hx, BitVec.ofNat_toNat, BitVec.setWidth_eq]
  case clen x =>
    have hx : (0x800 + 4 * x.toNat - 0x800) / 4 = x.toNat := by omega
    simp (disch := omega) only [locateWord, ← ha, WordLoc.addr, if_pos, if_neg, hx, BitVec.ofNat_toNat, BitVec.setWidth_eq]
  case cbits x j =>
    have hx : (0x1000 + 32 * x.toNat + 4 * j.toNat - 0x1000) / 32 = x.toNat := by omega
    have hj : (0x1000 + 32 * x.toNat + 4 * j.toNat - 0x1000) / 4 % 8 = j.toNat := by omega
    simp (disch := omega) only [locateWord, ← ha, WordLoc.addr, if_pos, if_neg, hx, hj, BitVec.ofNat_toNat,
      BitVec.setWidth_eq]
  case node k w =>
    have hk : k < Config.nodeMax := of_decide_eq_true h
    have hk' : (0x4000 + 16 * k + 4 * w.toNat - 0x4000) / 16 = k := by omega
    have hw : (0x4000 + 16 * k + 4 * w.toNat - 0x4000) / 4 % 4 = w.toNat := by omega
    simp (disch := omega) only [locateWord, ← ha, WordLoc.addr, if_pos, if_neg, hk', hw, BitVec.ofNat_toNat,
      BitVec.setWidth_eq]
  case token k =>
    have hk : k < Config.tokenCap := of_decide_eq_true h
    have hn : Config.nodeMax = 511 := rfl
    have hk' : (0x40000000 + 4 * k - 0x40000000) / 4 = k := by omega
    simp (disch := omega) only [locateWord, ← ha, WordLoc.addr, if_pos, if_neg, hk']
  all_goals simp only [locateWord, ← ha, WordLoc.addr]; rfl

/-- A byte location is the one that a 1-byte access at its address reaches (R62, R64). -/
theorem locateByte_of_addr {l : ByteLoc} {a : Addr} (h : l.inMap = true) (ha : l.addr = a.toNat) :
    locateByte a = some l := by
  cases l
  case input k =>
    have hk : k < Config.nMax := of_decide_eq_true h
    simp (disch := omega) only [locateByte, ← ha, ByteLoc.addr, if_pos, if_neg, Nat.add_sub_cancel_left]
  case coded k =>
    have hk : k < Config.codedCap := of_decide_eq_true h
    have hn : Config.nMax = 1048576 := rfl
    simp (disch := omega) only [locateByte, ← ha, ByteLoc.addr, if_pos, if_neg, Nat.add_sub_cancel_left]

/-- Every address of R62 fits in the 32-bit address space (R60). -/
theorem WordLoc.addr_lt {l : WordLoc} (h : l.inMap = true) : l.addr < 2 ^ 32 := by
  cases l
  case node k w =>
    have hk : k < 511 := of_decide_eq_true h
    simp only [WordLoc.addr]; omega
  case token k =>
    have hk : k < 1048576 := of_decide_eq_true h
    simp only [WordLoc.addr]; omega
  all_goals simp only [WordLoc.addr]; omega

/-- Every address of R62 fits in the 32-bit address space (R60). -/
theorem ByteLoc.addr_lt {l : ByteLoc} (h : l.inMap = true) : l.addr < 2 ^ 32 := by
  cases l
  case input k =>
    have hk : k < 1048576 := of_decide_eq_true h
    simp only [ByteLoc.addr]; omega
  case coded k =>
    have hk : k < 33423360 := of_decide_eq_true h
    simp only [ByteLoc.addr]; omega

theorem locateWord_ofNat_addr {l : WordLoc} (h : l.inMap = true) : locateWord (BitVec.ofNat 32 l.addr) = some l :=
  locateWord_of_addr h (by rw [BitVec.toNat_ofNat, Nat.mod_eq_of_lt (WordLoc.addr_lt h)])

theorem locateByte_ofNat_addr {l : ByteLoc} (h : l.inMap = true) : locateByte (BitVec.ofNat 32 l.addr) = some l :=
  locateByte_of_addr h (by rw [BitVec.toNat_ofNat, Nat.mod_eq_of_lt (ByteLoc.addr_lt h)])

/-! ## One host write is one step (R61) -/

section
variable {s : State} {rest : List HostOp}

/-- A 4-byte write at a location other than CMD does the write of that location and answers `ok`. -/
theorem step_wr4 {l : WordLoc} (hl : l.inMap = true) (hc : l ≠ .cmd) {v : Word}
    (h : s.host = .wr4 (BitVec.ofNat 32 l.addr) v :: rest) :
    step s = .next { blk := s.blk.writeWord v l, host := rest, reply := some .ok } := by
  rw [step_of_host h]
  cases l
  case cmd => exact absurd rfl hc
  all_goals simp only [hostStep, locateWord_ofNat_addr hl]; rfl

/-- A 1-byte write at a location does the write of that location and answers `ok`. -/
theorem step_wr1 {l : ByteLoc} (hl : l.inMap = true) {y : Byte}
    (h : s.host = .wr1 (BitVec.ofNat 32 l.addr) y :: rest) :
    step s = .next { blk := s.blk.writeByte y l, host := rest, reply := some .ok } := by
  rw [step_of_host h]
  simp only [hostStep, locateByte_ofNat_addr hl]
  rfl

/-- A write of a command word to CMD runs that command (R23, R90). -/
theorem step_wr4_cmd {v : Word} {i : Instr} (hd : decode v = .instr i) (h : s.host = .wr4 0 v :: rest) :
    step s = exec i { s with host := rest, reply := some .ok } := by
  rw [step_of_host h]
  simp only [hostStep, locateWord_zero, runCommand, hd]
  rfl

end

/-! ## What a write of a location does to the block -/

/-- A host write of STATUS leaves every valid flag, and MEMPTY, as they were (R24, R43). -/
theorem Block.writeWord_status_flags (b : Block) (v : Word) :
    (b.writeWord v .status).status = { b.status with estk := (b.writeWord v .status).status.estk } := by
  unfold Block.writeWord
  by_cases hv : v.getLsbD 8 = true
  · rw [if_pos hv]; rfl
  · rw [if_neg hv]

/-- Only STATUS, IN_LEN, L_WIN, L_LOOK and FREQ are changed by a 4-byte write; the other locations ignore it (R67). -/
theorem Block.writeWord_of_ignored (b : Block) (v : Word) (l : WordLoc)
    (hl : l ∉ [WordLoc.cmd, .status, .inLen, .lWin, .lLook]) (hf : ∀ x, l ≠ .freq x) : b.writeWord v l = b := by
  cases l
  case status | inLen | lWin | lLook => simp at hl
  case freq x => exact absurd rfl (hf x)
  all_goals rfl

/-- Settles O13: each address is that of its location, and the step is the write of that location. -/
theorem hostWritesStoreAndInvalidate : Obligations.HostWritesStoreAndInvalidate := by
  unfold Obligations.HostWritesStoreAndInvalidate
  intro s rest v y
  refine ⟨fun x h => ?freq, fun k hk h => ?input, fun h => ?inLen, fun h => ?lWin, fun h => ?lLook,
    fun i hd h => ?cmd, fun h => ?status, fun k hk h => ?coded, fun l hl hw hf h => ?ignored⟩
  case freq => exact step_wr4 (l := .freq x) rfl nofun h
  case input => exact step_wr1 (l := .input k) (decide_eq_true hk) h
  case inLen => exact step_wr4 (l := .inLen) rfl (by decide) h
  case lWin =>
    rw [step_wr4 (l := .lWin) rfl (by decide) h, Block.writeWord, ← BitVec.setWidth_eq_extractLsb' (by decide)]
    rfl
  case lLook =>
    rw [step_wr4 (l := .lLook) rfl (by decide) h, Block.writeWord, ← BitVec.setWidth_eq_extractLsb' (by decide)]
    rfl
  case cmd => exact step_wr4_cmd hd h
  case status =>
    refine ⟨_, step_wr4 (l := .status) rfl (by decide) h, ?_⟩
    rw [Block.writeWord_status_flags]
    exact ⟨rfl, rfl, rfl, rfl, rfl⟩
  case coded => exact ⟨_, step_wr1 (l := .coded k) (decide_eq_true hk) h, rfl⟩
  case ignored =>
    have hc : l ≠ .cmd := by rintro rfl; simp at hw
    exact ⟨_, step_wr4 hl hc h, s.blk.writeWord_of_ignored v l hw hf⟩

end Sys2Proof.Machine
end

section
/-! The registers and tables right after reset, and as the host reads them (10_state.md R46). -/

namespace Sys2Proof.Machine

/-! ## The tables of the reset block -/

@[simp] theorem Block.freqOf_reset (x : Byte) : Block.reset.freqOf x = 0 := tableGet_replicate 0 x

@[simp] theorem Block.codeOf_reset (x : Byte) : Block.reset.codeOf x = [] := tableGet_replicate [] x

theorem Block.reset_atResetValues : Block.reset.AtResetValues :=
  ⟨rfl, rfl, rfl, rfl, rfl, rfl, rfl, rfl, rfl, rfl, rfl, rfl, Block.freqOf_reset, Block.codeOf_reset⟩

/-! ## The views of an empty code (R37) -/

@[simp] theorem codeWord_nil (j : BitVec 3) : codeWord [] j = 0 := by
  simp [codeWord, wordOfBits, natOfBits]

/-- Settles O21: every field by its definition, the tables entry by entry, and the views of the empty codes. -/
theorem resetLeavesTheResetValues : Obligations.ResetLeavesTheResetValues := by
  unfold Obligations.ResetLeavesTheResetValues
  refine ⟨Block.reset_atResetValues, rfl, fun x => ?_, fun x j => ?_⟩
  all_goals simp [State.reset, Block.readWord]

end Sys2Proof.Machine
end

section
/-! The address map read from an address back to its location, so that an access which reaches no location is a bus error
(20_memory.md R62 to R64, R219); the ignored writes, and CMD's reads (R67). -/

namespace Sys2Proof.Machine

/-! ## What a locator finds lies at the address (R62) -/

theorem inMap_and_addr_of_locateReg {n : Nat} {l : WordLoc} (h : locateReg n = some l) :
    l.inMap = true ∧ l.addr = n := by
  unfold locateReg at h
  split at h <;> cases h <;> exact ⟨rfl, rfl⟩

/-- The locator of 4-byte accesses is the table of R62 read backwards. -/
theorem locateWord_eq_some_iff {a : Addr} {l : WordLoc} :
    locateWord a = some l ↔ l.inMap = true ∧ l.addr = a.toNat := by
  refine ⟨fun h => ?_, fun ⟨hl, ha⟩ => locateWord_of_addr hl ha⟩
  simp only [locateWord] at h
  split_ifs at h
  case pos => exact inMap_and_addr_of_locateReg h
  all_goals
    cases h
    simp only [WordLoc.inMap, WordLoc.addr, BitVec.toNat_ofNat, decide_eq_true_eq, true_and]
    omega

/-- The locator of 1-byte accesses is the table of R62 read backwards. -/
theorem locateByte_eq_some_iff {a : Addr} {l : ByteLoc} :
    locateByte a = some l ↔ l.inMap = true ∧ l.addr = a.toNat := by
  refine ⟨fun h => ?_, fun ⟨hl, ha⟩ => locateByte_of_addr hl ha⟩
  simp only [locateByte] at h
  split_ifs at h
  all_goals
    cases h
    simp only [ByteLoc.inMap, ByteLoc.addr, decide_eq_true_eq]
    omega

theorem locateWord_eq_none {a : Addr} (h : ∀ l : WordLoc, l.inMap = true → l.addr ≠ a.toNat) : locateWord a = none :=
  Option.eq_none_iff_forall_ne_some.2 fun l hl =>
    have ⟨hm, ha⟩ := locateWord_eq_some_iff.1 hl
    h l hm ha

theorem locateByte_eq_none {a : Addr} (h : ∀ l : ByteLoc, l.inMap = true → l.addr ≠ a.toNat) : locateByte a = none :=
  Option.eq_none_iff_forall_ne_some.2 fun l hl =>
    have ⟨hm, ha⟩ := locateByte_eq_some_iff.1 hl
    h l hm ha

/-! ## Word and byte locations are apart (R62) -/

/-- The byte locations lie above every table and below the TOKEN memory. -/
theorem ByteLoc.addr_bounds {l : ByteLoc} (h : l.inMap = true) : 0x10000000 ≤ l.addr ∧ l.addr < 0x40000000 := by
  cases l
  case input k =>
    have hk : k < 1048576 := of_decide_eq_true h
    simp only [ByteLoc.addr]; omega
  case coded k =>
    have hk : k < 33423360 := of_decide_eq_true h
    simp only [ByteLoc.addr]; omega

/-- A word location is a register or table entry, below every memory of bytes, or a word of TOKEN, above them. -/
theorem WordLoc.addr_low_or_high {l : WordLoc} (h : l.inMap = true) : l.addr < 0x10000000 ∨ 0x40000000 ≤ l.addr := by
  cases l
  case node k w =>
    have hk : k < 511 := of_decide_eq_true h
    simp only [WordLoc.addr]; omega
  all_goals simp only [WordLoc.addr]; omega

theorem WordLoc.addr_ne_byteLoc_addr {l : WordLoc} {l' : ByteLoc} (h : l.inMap = true) (h' : l'.inMap = true) :
    l.addr ≠ l'.addr := by
  have hw := WordLoc.addr_low_or_high h
  have hb := ByteLoc.addr_bounds h'
  omega

/-! ## A host access as one step (R61, R63, R64, R219) -/

section
variable {a : Addr}

theorem refuses_byte_accesses (h : locateByte a = none) : Refuses (.rd1 a) ∧ ∀ v, Refuses (.wr1 a v) := by
  refine ⟨fun s rest hs => ?_, fun v s rest hs => ?_⟩
  all_goals rw [step_of_host hs]; simp only [hostStep, h]; rfl

theorem refuses_word_accesses (h : locateWord a = none) : Refuses (.rd4 a) ∧ ∀ v, Refuses (.wr4 a v) := by
  refine ⟨fun s rest hs => ?_, fun v s rest hs => ?_⟩
  all_goals rw [step_of_host hs]; simp only [hostStep, h]; rfl

variable {s : State} {rest : List HostOp}

/-- A 4-byte read at a location answers the value of that location and changes nothing (R69). -/
theorem step_rd4 {l : WordLoc} (hl : l.inMap = true) (h : s.host = .rd4 (BitVec.ofNat 32 l.addr) :: rest) :
    step s = .next { s with host := rest, reply := some (.word (s.blk.readWord l)) } := by
  rw [step_of_host h]
  simp only [hostStep, locateWord_ofNat_addr hl]
  rfl

/-- A 4-byte write of a read-only location is accepted and changes nothing (R67). -/
theorem step_wr4_of_ignored {l : WordLoc} (hl : l.inMap = true)
    (hw : l ∉ [WordLoc.cmd, .status, .inLen, .lWin, .lLook]) (hf : ∀ x, l ≠ .freq x) {v : Word}
    (h : s.host = .wr4 (BitVec.ofNat 32 l.addr) v :: rest) :
    step s = .next { s with host := rest, reply := some .ok } := by
  have hc : l ≠ .cmd := by rintro rfl; simp at hw
  rw [step_wr4 hl hc h, Block.writeWord_of_ignored _ _ _ hw hf]

end

/-- Settles O6: where no location of the width is, the locator finds none; and a location of the other width excludes
one of this width, because word and byte locations are apart. -/
theorem refusedAccessesAreBusErrors : Obligations.RefusedAccessesAreBusErrors := by
  unfold Obligations.RefusedAccessesAreBusErrors
  intro a
  refine ⟨fun h => ?noByte, fun h => ?noWord, fun l hl ha => ?wordLoc, fun l hl ha => ?byteLoc⟩
  case noByte => exact refuses_byte_accesses (locateByte_eq_none h)
  case noWord => exact refuses_word_accesses (locateWord_eq_none h)
  case wordLoc =>
    exact refuses_byte_accesses (locateByte_eq_none fun l' hl' => ha ▸ (WordLoc.addr_ne_byteLoc_addr hl hl').symm)
  case byteLoc =>
    exact refuses_word_accesses (locateWord_eq_none fun l' hl' => ha ▸ WordLoc.addr_ne_byteLoc_addr hl' hl)

/-- Settles O8: none of the read-only word locations is one that a write changes, a write of CODED leaves the block by
definition, and CMD reads as 0. -/
theorem readOnlyWritesAreIgnored : Obligations.ReadOnlyWritesAreIgnored := by
  unfold Obligations.ReadOnlyWritesAreIgnored
  refine ⟨fun l v s rest hl hro h => ?word, fun k v s rest hk h => ?coded, fun s rest h => ?cmd⟩
  case word =>
    rcases hro with hreg | ⟨x, rfl⟩ | ⟨x, j, rfl⟩ | ⟨k, w, rfl⟩ | ⟨k, rfl⟩
    case inl =>
      refine step_wr4_of_ignored hl ?_ ?_ h
      · exact (by decide : ∀ l ∈ [WordLoc.einfo, .hOrig, .hPad, .hClen, .hRoot, .hNnode, .hNsym, .lNtok],
          l ∉ [WordLoc.cmd, .status, .inLen, .lWin, .lLook]) l hreg
      · rintro x rfl
        simp at hreg
    all_goals exact step_wr4_of_ignored hl (by simp) nofun h
  case coded => exact step_wr1 (l := .coded k) (decide_eq_true hk) h
  case cmd => exact step_rd4 (l := .cmd) rfl h

end Sys2Proof.Machine
end

section
/-! The order of bits in the packed stream, bit by bit, and its inverse (20_memory.md R66). -/

namespace Sys2Proof.Machine

/-! ## One byte and its eight bits -/

/-- Bit `t` of a byte's bits has the weight `2^(7-t)`. -/
theorem bitsOfByte_getD (y : Byte) {t : Nat} (ht : t < 8) :
    ((bitsOfByte y).getD t false).toNat = y.toNat / 2 ^ (7 - t) % 2 := by
  have hb : bitsOfByte y = (List.range 8).map fun t => y.getLsbD (7 - t) := rfl
  rw [hb, List.getD_eq_getElem?_getD, List.getElem?_map, List.getElem?_range ht]
  exact Nat.toNat_testBit _ _

/-- A byte is the sum of its bits with their weights. -/
theorem toNat_eq_sum_bitsOfByte (y : Byte) :
    y.toNat = ((List.range 8).map fun t => ((bitsOfByte y).getD t false).toNat * 2 ^ (7 - t)).sum := by
  calc y.toNat = ((List.range 8).map fun t => y.toNat / 2 ^ (7 - t) % 2 * 2 ^ (7 - t)).sum := by
        have := y.isLt
        simp only [List.range, List.range.loop, List.map_cons, List.map_nil, List.sum_cons, List.sum_nil]
        omega
    _ = _ := congrArg List.sum (List.map_congr_left fun t ht => by rw [bitsOfByte_getD y (List.mem_range.1 ht)])

theorem bitsOfByte_injective : Function.Injective bitsOfByte := fun y y' h =>
  BitVec.eq_of_toNat_eq (by rw [toNat_eq_sum_bitsOfByte, h, ← toNat_eq_sum_bitsOfByte])

theorem byteOfBits_bitsOfByte (y : Byte) : byteOfBits (bitsOfByte y) = y :=
  bitsOfByte_injective (bitsOfByte_byteOfBits _ _ _ _ _ _ _ _)

/-! ## Strings of bytes -/

theorem bitsMsb_bytesMsb (xs : Bits) (h : xs.length % 8 = 0) : bitsMsb (bytesMsb xs) = xs := by
  induction hn : xs.length / 8 generalizing xs with
  | zero =>
    have hx : xs = [] := List.eq_nil_of_length_eq_zero (by omega)
    rw [hx]; rfl
  | succ n ih =>
    obtain ⟨b0, b1, b2, b3, b4, b5, b6, b7, rest, rfl⟩ := exists_eq_cons8 xs (by omega)
    simp only [List.length_cons] at h hn
    rw [bytesMsb_cons8, bitsMsb_cons, bitsOfByte_byteOfBits, ih rest (by omega) (by omega)]
    rfl

theorem bytesMsb_bitsMsb (ys : List Byte) : bytesMsb (bitsMsb ys) = ys := by
  induction ys with
  | nil => rfl
  | cons y ys ih =>
    calc bytesMsb (bitsMsb (y :: ys)) = byteOfBits (bitsOfByte y) :: bytesMsb (bitsMsb ys) := rfl
      _ = y :: ys := by rw [byteOfBits_bitsOfByte, ih]

/-- Bit `8*j + t` of the bits of a byte string is bit `t` of its byte `j`. -/
theorem bitsMsb_getD (ys : List Byte) {j t : Nat} (hj : j < ys.length) (ht : t < 8) :
    (bitsMsb ys).getD (8 * j + t) false = (bitsOfByte (ys.getD j 0)).getD t false := by
  induction ys generalizing j with
  | nil => simp at hj
  | cons y ys ih =>
    rw [bitsMsb_cons]
    cases j with
    | zero => rw [List.getD_append _ _ _ _ (by simpa using ht)]; simp
    | succ j =>
      have hs : 8 * (j + 1) + t - (bitsOfByte y).length = 8 * j + t := by rw [bitsOfByte_length]; omega
      rw [List.getD_append_right _ _ _ _ (by rw [bitsOfByte_length]; omega), hs, ih (by simpa using hj)]
      simp

/-- Settles O35: a byte is the sum of its own bits, and the two functions are inverse, so that the bits of a string are
those of its bytes. -/
theorem bytesAreFilledFromTheTopBit : Obligations.BytesAreFilledFromTheTopBit := by
  unfold Obligations.BytesAreFilledFromTheTopBit
  refine ⟨fun xs hx => ⟨bytesMsb_length xs, bitsMsb_bytesMsb xs hx, fun j hj => ?byte⟩,
    fun ys => ⟨bytesMsb_bitsMsb ys, bitsMsb_length ys, fun j t hj ht => ?bit⟩⟩
  case byte =>
    rw [toNat_eq_sum_bitsOfByte]
    refine congrArg List.sum (List.map_congr_left fun t ht => ?_)
    rw [← bitsMsb_getD _ (by rwa [bytesMsb_length]) (List.mem_range.1 ht), bitsMsb_bytesMsb xs hx]
  case bit => rw [bitsMsb_getD ys hj ht, bitsOfByte_getD _ ht]

end Sys2Proof.Machine
end

section
/-! The decoder and the encoder of command words are inverse (30_encoding.md R90, R91), and the step of an illegal word
(R93, R212). -/

namespace Sys2Proof

/-! ## The fields of a command word (R90) -/

theorem Laws.WordOfCommand.all : ∀ i, Laws.WordOfCommand.Statement i
  | .nop => nop
  | .rst => rst
  | .hclr => hclr
  | .hcnt => hcnt
  | .hbld => hbld
  | .hasn => hasn
  | .hpck => hpck
  | .henc => henc
  | .lclr => lclr
  | .lcmp => lcmp

@[simp] theorem opField_encode (i : Instr) : opField (encode i) = opcode i :=
  have ⟨_, hop, _, _⟩ := Laws.WordOfCommand.all i
  hop

@[simp] theorem rsvField_encode (i : Instr) : rsvField (encode i) = 0 :=
  have ⟨_, _, hrsv, _⟩ := Laws.WordOfCommand.all i
  hrsv

@[simp] theorem toNat_encode (i : Instr) : (encode i).toNat = (opcode i).toNat :=
  have ⟨_, _, _, hn⟩ := Laws.WordOfCommand.all i
  hn

/-- A word is its two fields, `rsv` above `op`. -/
theorem rsvField_append_opField (v : Word) : rsvField v ++ opField v = v :=
  BitVec.extractLsb'_append_extractLsb'_eq_extractLsb' rfl |>.trans BitVec.extractLsb'_eq_self

/-- A word with zeros in `rsv` and the opcode of a command in `op` is the word of that command. -/
theorem eq_encode_of_fields {v : Word} {i : Instr} (hrsv : rsvField v = 0) (hop : opField v = opcode i) :
    v = encode i := by
  rw [← rsvField_append_opField v, hrsv, hop, encode]

/-! ## The opcode map read both ways (R91) -/

@[simp] theorem decodeOp_opcode (i : Instr) : decodeOp (opcode i) = .instr i := by
  cases i <;> rfl

theorem decodeOp_eq_instr_iff {op : Byte} {i : Instr} : decodeOp op = .instr i ↔ op = opcode i := by
  refine ⟨fun h => ?_, fun h => h ▸ decodeOp_opcode i⟩
  unfold decodeOp at h
  split at h <;> cases h
  all_goals exact BitVec.eq_of_toNat_eq ‹_›

@[simp] theorem decode_encode (i : Instr) : decode (encode i) = .instr i := by
  simp [decode]

theorem decode_eq_instr_iff {v : Word} {i : Instr} : decode v = .instr i ↔ v = encode i := by
  refine ⟨fun h => ?_, fun h => h ▸ decode_encode i⟩
  unfold decode at h
  split_ifs at h with hrsv
  exact eq_encode_of_fields hrsv (decodeOp_eq_instr_iff.1 h)

/-- Settles O2: the fields determine the word, and the opcode map is one to one. -/
theorem onlyTheTenWordsAreCommands : Obligations.OnlyTheTenWordsAreCommands := by
  unfold Obligations.OnlyTheTenWordsAreCommands
  refine ⟨fun v i => decode_eq_instr_iff, rsvField_encode, ?_⟩
  simp only [opField_encode, opcode, and_self]

/-! ## The illegal words (R93) -/

theorem toNat_encode_mem (i : Instr) :
    (encode i).toNat ∈ [0x00, 0x01, 0x10, 0x11, 0x12, 0x13, 0x14, 0x15, 0x20, 0x21] := by
  rw [toNat_encode]
  cases i <;> decide

/-- A word that is the word of no command is rejected. -/
theorem exists_decode_eq_reject {v : Word} (h : ∀ i, v ≠ encode i) : ∃ r, decode v = .reject r := by
  cases hd : decode v with
  | instr i => exact absurd (decode_eq_instr_iff.1 hd) (h i)
  | reject r => exact ⟨r, rfl⟩

end Sys2Proof

namespace Sys2Proof.Machine

/-- A write of a rejected word to CMD is the error entry of E_OP with that word (R93, R212). -/
theorem step_wr4_cmd_reject {s : State} {rest : List HostOp} {v : Word} {r : Reject} (hd : decode v = .reject r)
    (h : s.host = .wr4 0 v :: rest) :
    step s = .next { blk := s.blk.raise .op v, host := rest, reply := some .ok } := by
  rw [step_of_host h]
  simp only [hostStep, locateWord_zero, runCommand, hd]
  rfl

/-- Settles O3: every command's word is in the list, so any other word is rejected, and the step is the error entry. -/
theorem illegalWordsFailWithEOp : Obligations.IllegalWordsFailWithEOp := by
  unfold Obligations.IllegalWordsFailWithEOp
  intro s v rest h hv
  have hne : ∀ i, v ≠ encode i := fun i hi => hv (hi ▸ toNat_encode_mem i)
  obtain ⟨r, hd⟩ := exists_decode_eq_reject hne
  exact step_wr4_cmd_reject hd h

end Sys2Proof.Machine
end

section
/-! What HCLR and HCNT leave in the state (40_huffman_commands.md R111, R112), and when each error is raised (R129, R213 to
R216). -/

namespace Sys2Proof.Machine

/-! ## The end in success changes no table and no memory (R110) -/

@[simp] theorem Block.succeed_freqOf (b : Block) (x : Byte) : b.succeed.freqOf x = b.freqOf x := rfl

@[simp] theorem Block.succeed_codeOf (b : Block) (x : Byte) : b.succeed.codeOf x = b.codeOf x := rfl

@[simp] theorem Block.succeed_nodeAt (b : Block) (k : Nat) : b.succeed.nodeAt k = b.nodeAt k := rfl

@[simp] theorem Block.succeed_codedAt (b : Block) (k : Nat) : b.succeed.codedAt k = b.codedAt k := rfl

@[simp] theorem Block.succeed_codedBytes (b : Block) : b.succeed.codedBytes = b.codedBytes := rfl

/-! ## HCLR (R111) -/

@[simp] theorem hclrEffect_freqOf (b : Block) (x : Byte) : (hclrEffect b).freqOf x = 0 := tableGet_replicate 0 x

@[simp] theorem hclrEffect_codeOf (b : Block) (x : Byte) : (hclrEffect b).codeOf x = [] := tableGet_replicate [] x

/-- Settles O25: HCLR has no check, and its effect is the list of writes of R111. -/
theorem hclrClearsTheHuffmanState : Obligations.HclrClearsTheHuffmanState := by
  unfold Obligations.HclrClearsTheHuffmanState
  refine ⟨decode_encode .hclr, fun s => ⟨_, exec_hclr s, fun x => ?_, fun x => ?_, rfl⟩⟩
  · simp
  · simp

/-! ## The checks (R129, R213 to R216) -/

theorem hasnCheck_of_tree {b : Block} (h : b.status.tval = true) : hasnCheck b = none := by
  simp [hasnCheck, h]

theorem hasnCheck_of_no_tree {b : Block} (h : b.status.tval = false) : hasnCheck b = some (.seq, 0x13) := by
  simp [hasnCheck, h]

theorem hpckCheck_of_lt {b : Block} (h : Config.nMax < b.inLen.toNat) : hpckCheck b = some (.len, b.inLen) := by
  simp [hpckCheck, lenCheck_of_lt h]

theorem hpckCheck_of_no_codes {b : Block} (hn : b.inLen.toNat ≤ Config.nMax) (hc : b.status.cval = false) :
    hpckCheck b = some (.seq, 0x14) := by
  simp [hpckCheck, lenCheck_of_le hn, hc]

theorem hpckCheck_of_firstUncoded {b : Block} {k : Nat} (hn : b.inLen.toNat ≤ Config.nMax) (hc : b.status.cval = true)
    (hk : firstUncoded b = some k) : hpckCheck b = some (.noCode, BitVec.ofNat 32 k) := by
  simp [hpckCheck, lenCheck_of_le hn, hc, hk]

/-- The least index whose byte has no code is the one reported (R129). -/
theorem firstUncoded_eq_some {b : Block} {k : Nat} (hk : k < b.inLen.toNat) (h : b.codeOf (b.inputAt k) = [])
    (hmin : ∀ j, j < k → b.codeOf (b.inputAt j) ≠ []) : firstUncoded b = some k := by
  rw [firstUncoded, List.findIdx?_eq_some_iff_getElem]
  refine ⟨by simpa using hk, ?_, fun j hj => ?_⟩
  · simp [Block.inputBytes, h]
  · simp [Block.inputBytes, hmin j hj]

/-- Settles O18: each check is made in its place, the error entry is that of the first that fails, and the five commands
without checks succeed. -/
theorem errorsAreRaisedInPriorityOrder : Obligations.ErrorsAreRaisedInPriorityOrder := by
  unfold Obligations.ErrorsAreRaisedInPriorityOrder
  intro s
  refine ⟨fun hn => ?len, fun ht => ?noTree, fun hn hc => ?noCodes, fun hn hc k hk h hmin => ?noCode, ?never⟩
  case len =>
    have hlen := lenCheck_of_lt hn
    simp only [List.forall_mem_cons]
    exact ⟨runChecked_of_fails hlen, runChecked_of_fails (hpckCheck_of_lt hn), runChecked_of_fails hlen,
      runChecked_of_fails hlen, nofun⟩
  case noTree => exact runChecked_of_fails (hasnCheck_of_no_tree ht)
  case noCodes => exact runChecked_of_fails (hpckCheck_of_no_codes hn hc)
  case noCode => exact runChecked_of_fails (hpckCheck_of_firstUncoded hn hc (firstUncoded_eq_some hk h hmin))
  case never =>
    simp only [List.forall_mem_cons]
    exact ⟨⟨_, exec_nop s, rfl⟩, ⟨_, exec_rst s, rfl⟩, ⟨_, exec_hclr s, rfl⟩, ⟨_, exec_hbld s, rfl⟩,
      ⟨_, exec_lclr s, rfl⟩, nofun⟩

/-! ## HCNT (R112) -/

/-- The counting loop adds to each entry, modulo 2^32, how often its symbol stands among the bytes. -/
theorem tableGet_foldl_count (bytes : List Byte) (t : Vector Word 256) (y : Byte) :
    tableGet (bytes.foldl (fun t x => tableSet t x (tableGet t x + 1)) t) y =
      tableGet t y + BitVec.ofNat 32 (bytes.count y) := by
  induction bytes generalizing t with
  | nil => simp
  | cons x xs ih =>
    rw [List.foldl_cons, ih, tableGet_count_step, List.count_cons]
    by_cases h : x = y
    · simp only [h, if_true, beq_self_eq_true, Nat.add_comm (xs.count y) 1, BitVec.ofNat_add, ← BitVec.add_assoc]
      rfl
    · simp [h]

/-- While the bytes are fewer than 2^32, the table holds their exact counts (R12(a)). -/
theorem toNat_countFreq {bytes : List Byte} (h : bytes.length < 2 ^ 32) (x : Byte) :
    (tableGet (countFreq bytes) x).toNat = bytes.count x := by
  have hle : bytes.count x ≤ bytes.length := List.count_le_length
  rw [countFreq, tableGet_foldl_count, tableGet_replicate]
  simp only [BitVec.ofNat_eq_ofNat, BitVec.zero_add, BitVec.toNat_ofNat]
  exact Nat.mod_eq_of_lt (by omega)

/-- Every byte is counted for exactly one symbol. -/
theorem sum_count_symbols (bytes : List Byte) : (symbols.map fun x => bytes.count x).sum = bytes.length := by
  have hcard := Multiset.sum_count_eq_card (s := symbols.toFinset) (m := (bytes : Multiset Byte)) fun x _ =>
    List.mem_toFinset.2 (mem_symbols x)
  simpa only [Multiset.coe_count, Multiset.coe_card, List.sum_toFinset _ symbols_nodup] using hcard

theorem hcntEffect_freqOf_toNat {b : Block} (hn : b.inLen.toNat ≤ Config.nMax) (x : Byte) :
    ((hcntEffect b).freqOf x).toNat = b.inputBytes.count x :=
  toNat_countFreq (by rw [inputBytes_length]; exact lt_of_le_of_lt hn (by decide)) x

/-- Settles O27: the loop counts exactly, because at most N_MAX bytes are counted, and the counts of all symbols add up to
the number of bytes. -/
theorem hcntCountsTheInput : Obligations.HcntCountsTheInput := by
  unfold Obligations.HcntCountsTheInput
  refine ⟨decode_encode .hcnt, fun s => ⟨fun hn => ?inRange, fun hn => ?tooLong⟩⟩
  case inRange =>
    have hcount := hcntEffect_freqOf_toNat hn
    refine ⟨_, runChecked_of_passes (lenCheck_of_le hn), hcount, ?_, rfl⟩
    calc (symbols.map fun x => ((hcntEffect s.blk).freqOf x).toNat).sum
        = (symbols.map fun x => s.blk.inputBytes.count x).sum := by simp only [hcount]
      _ = s.blk.inLen.toNat := by rw [sum_count_symbols, inputBytes_length]
  case tooLong => exact runChecked_of_fails (lenCheck_of_lt hn)

end Sys2Proof.Machine
end

section
/-! What HPCK leaves in the state (40_huffman_commands.md R124 to R127). -/

namespace Sys2Proof.Machine

theorem Block.stream_eq_flatMap (b : Block) :
    b.stream = (List.range b.inLen.toNat).flatMap fun k => b.codeOf (b.inputAt k) := by
  rw [Block.stream, bitStream, Block.inputBytes, List.flatMap_map]

theorem Block.forall_mem_inputBytes {b : Block} {p : Byte → Prop} :
    (∀ x ∈ b.inputBytes, p x) ↔ ∀ k, k < b.inLen.toNat → p (b.inputAt k) := by
  simp [Block.inputBytes]

/-- The pack writes no byte of CODED from H_CLEN on (R126). -/
theorem hpckEffect_codedAt_of_le {b : Block} {k : Nat} (h : (packedBytes b.stream).length ≤ k) :
    (hpckEffect b).codedAt k = b.codedAt k := by
  have hread : (hpckEffect b).codedAt k = ((packedBytes b.stream)[k]?).getD (b.codedAt k) :=
    Block.codedAt_writeFirst b _ k
  rw [hread, List.getElem?_eq_none h, Option.getD_none]

/-- Settles O36: HPCK passes its checks, and what it leaves is the valid pack of the stream (`PackTrue_of_hpck`). -/
theorem hpckPacksTheCodes : Obligations.HpckPacksTheCodes := by
  unfold Obligations.HpckPacksTheCodes
  rintro s stream hb hn hc hcodes rfl
  rw [← Block.stream_eq_flatMap]
  have hall : ∀ x ∈ s.blk.inputBytes, s.blk.codeOf x ≠ [] := Block.forall_mem_inputBytes.2 hcodes
  have hcheck := (hpckCheck_eq_none_iff s.blk).2 ⟨hn, hc, (firstUncoded_eq_none_iff s.blk).2 hall⟩
  obtain ⟨-, -, -, -, hpad, hclen, hcoded⟩ := PackTrue_of_hpck hn hb hall
  have hstream : (hpckEffect s.blk).stream = s.blk.stream := rfl
  rw [hstream] at hpad hclen hcoded
  refine ⟨stream_length_le hb, _, runChecked_of_passes hcheck, hpad, ?clen, ?coded, fun k hk => ?beyond, rfl⟩
  case clen => rw [State.onBlock_blk, Block.succeed_hClen, Block.succeed_hPad, hclen, hpad]
  case coded => rw [State.onBlock_blk, Block.succeed_codedBytes, Block.succeed_hPad, hcoded, hpad, packedBytes]
  case beyond =>
    rw [State.onBlock_blk, Block.succeed_hClen, hpckEffect_hClen_toNat hn hb] at hk
    exact hpckEffect_codedAt_of_le hk

end Sys2Proof.Machine
end

section
/-! The tree builder by the number of symbols (40_huffman_commands.md R115, R118, R119): the leaves come first, and a table of
one symbol or of none has a tree of its own. -/

namespace Sys2Proof.Machine

/-- What a list holds at an index, every list that begins with it holds there too. -/
theorem getElem?_of_prefix {α : Type} {xs ys : List α} (h : xs <+: ys) {k : Nat} {x : α} (hx : xs[k]? = some x) :
    ys[k]? = some x := by
  obtain ⟨hk, rfl⟩ := List.getElem?_eq_some_iff.1 hx
  exact List.prefix_iff_getElem?.1 h k hk

/-! ## The tree by the number of leaves -/

/-- The leaves as live nodes, before the first merge (R116). -/
def leavesLive (freq : Vector Word 256) : List LiveNode :=
  (leavesOf freq).zipIdx.map fun p => { freq := p.1.freq, ix := p.2 }

theorem buildTree_of_no_leaf {freq : Vector Word 256} (h : leavesOf freq = []) :
    buildTree freq = { nodes := [], root := noNode, nsym := 0 } := by
  simp [buildTree, h]

theorem buildTree_of_one_leaf {freq : Vector Word 256} {l : NodeEntry} (h : leavesOf freq = [l]) :
    buildTree freq = { nodes := [l, innerNode l.freq 0 noNode], root := 1, nsym := 1 } := by
  simp [buildTree, h]

theorem buildTree_of_two_leaves {freq : Vector Word 256} (h : 2 ≤ (leavesOf freq).length) :
    (buildTree freq).nodes = mergeLoop (leavesOf freq).length (leavesOf freq) (leavesLive freq) ∧
      (buildTree freq).root = BitVec.ofNat 9 ((buildTree freq).nodes.length - 1) := by
  unfold buildTree leavesLive
  split <;> rename_i hl
  · simp [hl] at h
  · simp [hl] at h
  · rw [hl]
    exact ⟨rfl, rfl⟩

theorem buildTree_length_of_two {freq : Vector Word 256} (h : 2 ≤ (codedSymbols freq).length) :
    (buildTree freq).nodes.length = 2 * (codedSymbols freq).length - 1 := by
  rw [buildTree_length]
  split <;> omega

theorem buildTree_root_toNat {freq : Vector Word 256} (h : 2 ≤ (codedSymbols freq).length) :
    (buildTree freq).root.toNat = 2 * (codedSymbols freq).length - 2 := by
  have hle := codedSymbols_length_le freq
  rw [(buildTree_of_two_leaves (by rwa [leavesOf_length])).2, buildTree_length_of_two h, BitVec.toNat_ofNat]
  omega

/-- The leaves are the first nodes of every tree (R115). -/
theorem leavesOf_prefix_buildTree (freq : Vector Word 256) : leavesOf freq <+: (buildTree freq).nodes := by
  rcases hl : leavesOf freq with _ | ⟨l, _ | ⟨l', ls⟩⟩
  case nil => exact List.nil_prefix
  case cons.nil =>
    rw [buildTree_of_one_leaf hl]
    exact List.prefix_append [l] _
  case cons.cons =>
    rw [(buildTree_of_two_leaves (by simp [hl])).1, hl]
    exact mergeLoop_prefix _ _ _

/-- Node `k` is the leaf of the `k`-th symbol with a non-zero count (R115). -/
theorem buildTree_getElem?_leaf {freq : Vector Word 256} {k : Nat} {x : Byte} (h : (codedSymbols freq)[k]? = some x) :
    (buildTree freq).nodes[k]? = some (leafNode x (tableGet freq x)) := by
  refine getElem?_of_prefix (leavesOf_prefix_buildTree freq) ?_
  simp [leavesOf_eq_map, h]

/-! ## What HBLD leaves in NODE (R114) -/

theorem hbldEffect_nodeAt_of_getElem? {b : Block} {k : Nat} {e : NodeEntry} (h : (buildTree b.freq).nodes[k]? = some e) :
    (hbldEffect b).nodeAt k = e := by
  obtain ⟨-, -, -, hnode⟩ := TreeTrue_of_hbld b
  exact hnode k e h

theorem hbldEffect_nodeAt_of_le {b : Block} {k : Nat} (h : (buildTree b.freq).nodes.length ≤ k) :
    (hbldEffect b).nodeAt k = b.nodeAt k := by
  have hread : (hbldEffect b).nodeAt k = ((buildTree b.freq).nodes[k]?).getD (b.nodeAt k) :=
    Block.nodeAt_writeFirst b _ k
  rw [hread, List.getElem?_eq_none h, Option.getD_none]

/-- Settles O28: NODE holds the nodes of the tree, whose first ones are the leaves, and beyond them what it held before. -/
theorem hbldMakesTheLeavesInOrder : Obligations.HbldMakesTheLeavesInOrder := by
  unfold Obligations.HbldMakesTheLeavesInOrder
  intro s
  obtain ⟨-, hnnode, hnsym, -⟩ := TreeTrue_of_hbld s.blk
  refine ⟨_, exec_hbld s, ?nsym, fun k x hx => ?leaf, fun k hk => ?beyond, rfl⟩
  case nsym => exact hnsym.trans (buildTree_nsym _)
  case leaf => exact hbldEffect_nodeAt_of_getElem? (buildTree_getElem?_leaf hx)
  case beyond => exact hbldEffect_nodeAt_of_le (hnnode ▸ hk)

/-- Settles O29: the table of no leaf writes no node, and the table of one leaf writes that leaf and the synthetic root. -/
theorem hbldOfOneOrNoSymbol : Obligations.HbldOfOneOrNoSymbol := by
  unfold Obligations.HbldOfOneOrNoSymbol
  intro s t h
  obtain rfl : s.onBlock (fun b => (hbldEffect b).succeed) = t := by
    rw [exec_hbld, runChecked_noCheck] at h
    injection h
  simp only [State.onBlock_blk, Block.succeed_hNnode, Block.succeed_hRoot, Block.succeed_nodeAt, hbldEffect_hNnode,
    hbldEffect_hRoot, ← leavesOf_length]
  refine ⟨fun h0 => ?none, fun h1 => ?one⟩
  case none =>
    have htree := buildTree_of_no_leaf (List.eq_nil_of_length_eq_zero h0)
    rw [htree]
    exact ⟨rfl, rfl, fun k => hbldEffect_nodeAt_of_le (by simp [htree])⟩
  case one =>
    obtain ⟨l, hl⟩ := List.length_eq_one_iff.1 h1
    have htree := buildTree_of_one_leaf hl
    have hleaf : (hbldEffect s.blk).nodeAt 0 = l := hbldEffect_nodeAt_of_getElem? (by simp [htree])
    have hroot : (hbldEffect s.blk).nodeAt 1 = innerNode l.freq 0 noNode :=
      hbldEffect_nodeAt_of_getElem? (by simp [htree])
    rw [htree, hleaf, hroot]
    exact ⟨rfl, rfl, rfl⟩

end Sys2Proof.Machine
end

section
/-! The merges of HBLD (40_huffman_commands.md R116, R117): the priority structure answers the least key, and the merge loop
keeps the set Q of the rule. -/

namespace Sys2Proof.Machine

/-! ## The order of keys (R117) -/

theorem LiveNode.before_iff {x y : LiveNode} :
    x.before y = true ↔ x.freq.toNat < y.freq.toNat ∨ (x.freq.toNat = y.freq.toNat ∧ x.ix < y.ix) := by
  simp [LiveNode.before]

theorem LiveNode.before_irrefl (x : LiveNode) : x.before x = false := by
  simp [LiveNode.before]

/-- Keys are totally ordered: what is not before `z` is not before anything before `z`. -/
theorem LiveNode.not_before_trans {x y z : LiveNode} (hxy : y.before x = false) (hyz : z.before y = false) :
    z.before x = false := by
  rw [← Bool.not_eq_true, LiveNode.before_iff] at *
  omega

/-- No node of Q comes before the one that is extracted (R116). -/
theorem not_before_leastLive (x : LiveNode) (xs : List LiveNode) :
    ∀ y ∈ x :: xs, y.before (leastLive x xs) = false := by
  unfold leastLive
  induction xs generalizing x with
  | nil => simpa using x.before_irrefl
  | cons z zs ih =>
    rw [List.foldl_cons]
    have hmin := ih (if z.before x then z else x)
    have hhead := hmin _ List.mem_cons_self
    have hboth : x.before (if z.before x then z else x) = false ∧ z.before (if z.before x then z else x) = false := by
      by_cases hzx : z.before x = true
      · have hxz : x.before z = false := by
          rw [← Bool.not_eq_true, LiveNode.before_iff] at *
          omega
        simpa [hzx, z.before_irrefl] using hxz
      · simpa [hzx] using x.before_irrefl
    simp only [List.forall_mem_cons]
    exact ⟨LiveNode.not_before_trans hhead hboth.1, LiveNode.not_before_trans hhead hboth.2,
      fun y hy => hmin y (List.mem_cons_of_mem _ hy)⟩

/-- What `takeLeast` answers on a Q that is not empty: the node with the least key, and Q without it (R116). -/
theorem takeLeast_least {live : List LiveNode} (h : live ≠ []) :
    ∃ a rest, takeLeast live = some (a, rest) ∧ live.Perm (a :: rest) ∧ ∀ y ∈ live, y.before a = false := by
  cases live with
  | nil => exact absurd rfl h
  | cons x xs =>
    exact ⟨leastLive x xs, _, rfl, List.perm_cons_erase (leastLive_mem x xs), not_before_leastLive x xs⟩

/-- One turn of the merge loop, while two nodes are live: the node with the least key and the one with the next are merged. -/
theorem mergeLoop_succ_least (fuel : Nat) (nodes : List NodeEntry) {live : List LiveNode} (h : 2 ≤ live.length) :
    ∃ a b rest, live.Perm (a :: b :: rest) ∧ (∀ y ∈ b :: rest, y.before a = false) ∧ (∀ y ∈ rest, y.before b = false) ∧
      mergeLoop (fuel + 1) nodes live =
        mergeLoop fuel (nodes ++ [innerNode (a.freq + b.freq) (BitVec.ofNat 9 a.ix) (BitVec.ofNat 9 b.ix)])
          (rest ++ [{ freq := a.freq + b.freq, ix := nodes.length }]) := by
  obtain ⟨a, r1, h1, p1, m1⟩ := takeLeast_least (live := live) (by rintro rfl; simp at h)
  have hl1 := p1.length_eq
  obtain ⟨b, r2, h2, p2, m2⟩ := takeLeast_least (live := r1) (by rintro rfl; simp at hl1; omega)
  have hperm := p1.trans (p2.cons a)
  refine ⟨a, b, r2, hperm, fun y hy => m1 y (hperm.mem_iff.2 (List.mem_cons_of_mem _ hy)),
    fun y hy => m2 y (p2.mem_iff.2 (List.mem_cons_of_mem _ hy)), ?_⟩
  rw [mergeLoop, h1]; simp only [h2]

/-! ## The set Q (R116) -/

section
variable {node : Nat → NodeEntry} {k n : Nat}

/-- Making node `n` takes its two children out of Q and puts `n` itself in. -/
theorem liveBefore_succ_iff (hmerged : ∀ m, k ≤ m → m ≤ n → MergedAt node k m) (hk : k ≤ n) (q : Nat) :
    LiveBefore node k (n + 1) q ↔
      q = n ∨ LiveBefore node k n q ∧ q ≠ (node n).left.toNat ∧ q ≠ (node n).right.toNat := by
  constructor
  · rintro ⟨hq, hparent⟩
    obtain ⟨hleft, hright⟩ := hparent n hk (Nat.lt_succ_self n)
    rcases Nat.lt_succ_iff_lt_or_eq.1 hq with hlt | rfl
    · exact .inr ⟨⟨hlt, fun m hkm hm => hparent m hkm (Nat.lt_succ_of_lt hm)⟩, hleft.symm, hright.symm⟩
    · exact .inl rfl
  · rintro (rfl | ⟨⟨hq, hparent⟩, hleft, hright⟩)
    · refine ⟨Nat.lt_succ_self _, fun m hkm hm => ?_⟩
      obtain ⟨-, -, ⟨hl, -⟩, ⟨hr, -⟩, -⟩ := hmerged m hkm (Nat.le_of_lt_succ hm)
      omega
    · refine ⟨Nat.lt_succ_of_lt hq, fun m hkm hm => ?_⟩
      rcases Nat.lt_succ_iff_lt_or_eq.1 hm with hlt | rfl
      · exact hparent m hkm hlt
      · exact ⟨hleft.symm, hright.symm⟩

/-- What stands between two turns of the merge loop, when node `n` is the next to be made in a tree of `k` leaves: the live
nodes are those of the set Q of R116 with their frequencies, the nodes made so far are as R116 and R117 say, and the
frequencies still fit in their 40 bits when they are added. -/
structure Merging (node : Nat → NodeEntry) (k n : Nat) (live : List LiveNode) : Prop where
  nodup : live.Nodup
  mem_iff : ∀ x, x ∈ live ↔ LiveBefore node k n x.ix ∧ x.freq = (node x.ix).freq
  leaves_le : k ≤ n
  count : n + live.length = 2 * k
  fits : (live.map fun x => x.freq.toNat).sum < 2 ^ 40
  merged : ∀ m, k ≤ m → m < n → MergedAt node k m

/-- Q in another order is the same set. -/
theorem Merging.perm {live live' : List LiveNode} (h : Merging node k n live) (p : live.Perm live') :
    Merging node k n live' where
  nodup := p.nodup_iff.1 h.nodup
  mem_iff x := p.mem_iff.symm.trans (h.mem_iff x)
  leaves_le := h.leaves_le
  count := p.length_eq ▸ h.count
  fits := (p.map fun x => x.freq.toNat).sum_eq ▸ h.fits
  merged := h.merged

/-- A live node is determined by its index. -/
theorem Merging.eq_of_ix_eq {live : List LiveNode} (h : Merging node k n live) {x y : LiveNode} (hx : x ∈ live)
    (hy : y ∈ live) (hix : x.ix = y.ix) : x = y := by
  obtain ⟨-, hfx⟩ := (h.mem_iff x).1 hx
  obtain ⟨-, hfy⟩ := (h.mem_iff y).1 hy
  cases x; cases y
  simp_all

/-- Of two live nodes, the one that no key comes before has the lesser key. -/
theorem Merging.keyBefore {live : List LiveNode} (h : Merging node k n live) {x y : LiveNode} (hx : x ∈ live)
    (hy : y ∈ live) (hne : x ≠ y) (hleast : y.before x = false) : KeyBefore node x.ix y.ix := by
  obtain ⟨-, hfx⟩ := (h.mem_iff x).1 hx
  obtain ⟨-, hfy⟩ := (h.mem_iff y).1 hy
  have hix : x.ix ≠ y.ix := fun hix => hne (h.eq_of_ix_eq hx hy hix)
  rw [← Bool.not_eq_true, LiveNode.before_iff, hfx, hfy] at hleast
  unfold KeyBefore
  omega

section
variable {a b : LiveNode} {rest : List LiveNode}

/-- The node over two live nodes has them as its children and the exact sum of their frequencies: no index and no sum is
cut to its field (R38). -/
theorem Merging.innerNode_fields (h : Merging node k n (a :: b :: rest)) (hk : k ≤ 256)
    (hn : node n = innerNode (a.freq + b.freq) (BitVec.ofNat 9 a.ix) (BitVec.ofNat 9 b.ix)) :
    (node n).left.toNat = a.ix ∧ (node n).right.toNat = b.ix ∧ (node n).freq.toNat = a.freq.toNat + b.freq.toNat := by
  obtain ⟨⟨ha, -⟩, -⟩ := (h.mem_iff a).1 List.mem_cons_self
  obtain ⟨⟨hb, -⟩, -⟩ := (h.mem_iff b).1 (List.mem_cons_of_mem _ List.mem_cons_self)
  have hcount := h.count
  have hfits := h.fits
  simp only [List.length_cons] at hcount
  simp only [List.map_cons, List.sum_cons] at hfits
  simp only [hn, innerNode, BitVec.toNat_ofNat, BitVec.toNat_add]
  omega

/-- Merging the two live nodes with the least keys makes a node as R116 and R117 describe it. -/
theorem Merging.mergedAt (h : Merging node k n (a :: b :: rest)) (hk : k ≤ 256)
    (ha : ∀ y ∈ b :: rest, y.before a = false) (hb : ∀ y ∈ rest, y.before b = false)
    (hn : node n = innerNode (a.freq + b.freq) (BitVec.ofNat 9 a.ix) (BitVec.ofNat 9 b.ix)) : MergedAt node k n := by
  have hamem : a ∈ a :: b :: rest := List.mem_cons_self
  have hbmem : b ∈ a :: b :: rest := List.mem_cons_of_mem _ List.mem_cons_self
  obtain ⟨hlivea, hfa⟩ := (h.mem_iff a).1 hamem
  obtain ⟨hliveb, hfb⟩ := (h.mem_iff b).1 hbmem
  obtain ⟨hleft, hright, hsum⟩ := h.innerNode_fields hk hn
  have hab : a ≠ b := List.ne_of_not_mem_cons (List.nodup_cons.1 h.nodup).1
  refine ⟨by simp [hn, innerNode], by simp [hn, innerNode], ?_⟩
  rw [hleft, hright, hsum, hfa, hfb]
  refine ⟨hlivea, hliveb, h.keyBefore hamem hbmem hab (ha b List.mem_cons_self), fun q hq hqa hqb => ?next, rfl⟩
  case next =>
    have hy : (⟨(node q).freq, q⟩ : LiveNode) ∈ a :: b :: rest := (h.mem_iff _).2 ⟨hq, rfl⟩
    have hya : (⟨(node q).freq, q⟩ : LiveNode) ≠ a := fun e => hqa (congrArg LiveNode.ix e)
    have hyb : (⟨(node q).freq, q⟩ : LiveNode) ≠ b := fun e => hqb (congrArg LiveNode.ix e)
    have hrest := List.mem_of_ne_of_mem hyb (List.mem_of_ne_of_mem hya hy)
    exact h.keyBefore hbmem hy hyb.symm (hb _ hrest)

/-- One turn of the merge loop keeps what stands between two turns. -/
theorem Merging.step (h : Merging node k n (a :: b :: rest)) (hk : k ≤ 256)
    (ha : ∀ y ∈ b :: rest, y.before a = false) (hb : ∀ y ∈ rest, y.before b = false)
    (hn : node n = innerNode (a.freq + b.freq) (BitVec.ofNat 9 a.ix) (BitVec.ofNat 9 b.ix)) :
    Merging node k (n + 1) ({ freq := a.freq + b.freq, ix := n } :: rest) := by
  have hmerged : ∀ m, k ≤ m → m ≤ n → MergedAt node k m := fun m hkm hm =>
    (Nat.lt_or_eq_of_le hm).elim (h.merged m hkm) fun e => e ▸ h.mergedAt hk ha hb hn
  obtain ⟨hleft, hright, hsum⟩ := h.innerNode_fields hk hn
  have hfreq : (node n).freq = a.freq + b.freq := by rw [hn, innerNode]
  have hcount := h.count
  have hfits := h.fits
  obtain ⟨hanot, hbnot, hnodup⟩ : a ∉ b :: rest ∧ b ∉ rest ∧ rest.Nodup := by
    simpa only [List.nodup_cons] using h.nodup
  have hmem : ∀ x ∈ rest, x ∈ a :: b :: rest := fun x hx => List.mem_cons_of_mem _ (List.mem_cons_of_mem _ hx)
  refine ⟨?nodup, fun x => ?mem_iff, Nat.le_succ_of_le h.leaves_le, ?count, ?fits, fun m hkm hm =>
    hmerged m hkm (Nat.le_of_lt_succ hm)⟩
  case nodup =>
    refine List.nodup_cons.2 ⟨fun hx => ?_, hnodup⟩
    obtain ⟨⟨hlt, -⟩, -⟩ := (h.mem_iff _).1 (hmem _ hx)
    exact Nat.lt_irrefl n hlt
  case mem_iff =>
    rw [liveBefore_succ_iff hmerged h.leaves_le, hleft, hright, List.mem_cons]
    constructor
    · rintro (rfl | hx)
      · exact ⟨.inl rfl, hfreq.symm⟩
      · obtain ⟨hlive, hf⟩ := (h.mem_iff x).1 (hmem x hx)
        refine ⟨.inr ⟨hlive, fun e => ?_, fun e => ?_⟩, hf⟩
        · obtain rfl := h.eq_of_ix_eq (hmem x hx) List.mem_cons_self e
          exact hanot (List.mem_cons_of_mem _ hx)
        · obtain rfl := h.eq_of_ix_eq (hmem x hx) (List.mem_cons_of_mem _ List.mem_cons_self) e
          exact hbnot hx
    · rintro ⟨hix | ⟨hlive, hxa, hxb⟩, hf⟩
      · refine .inl ?_
        cases x
        simp_all
      · have hx := (h.mem_iff x).2 ⟨hlive, hf⟩
        exact .inr (List.mem_of_ne_of_mem (fun e => hxb (congrArg _ e))
          (List.mem_of_ne_of_mem (fun e => hxa (congrArg _ e)) hx))
  case count =>
    simp only [List.length_cons] at hcount ⊢
    omega
  case fits =>
    rw [hfreq] at hsum
    simp only [List.map_cons, List.sum_cons] at hfits ⊢
    omega

end

/-- The merge loop makes every internal node as R116 and R117 describe it. The nodes it has made stay where they are, so
the nodes of its result can be named before it runs. -/
theorem mergeLoop_mergedAt (hk : k ≤ 256) (fuel : Nat) (nodes : List NodeEntry) (live : List LiveNode)
    (hnode : ∀ i e, (mergeLoop fuel nodes live)[i]? = some e → node i = e) (hfuel : live.length ≤ fuel + 1)
    (h : Merging node k nodes.length live) : ∀ m, k ≤ m → m < 2 * k - 1 → MergedAt node k m := by
  induction fuel generalizing nodes live with
  | zero =>
    intro m hkm hm
    have hcount := h.count
    exact h.merged m hkm (by omega)
  | succ fuel ih =>
    have hcount := h.count
    by_cases h2 : 2 ≤ live.length
    · obtain ⟨a, b, rest, p, ha, hb, e⟩ := mergeLoop_succ_least fuel nodes h2
      have hlen := p.length_eq
      rw [e] at hnode
      have hn : node nodes.length = innerNode (a.freq + b.freq) (BitVec.ofNat 9 a.ix) (BitVec.ofNat 9 b.ix) := by
        refine hnode _ _ (getElem?_of_prefix (mergeLoop_prefix fuel _ _) ?_)
        simp
      refine ih _ _ hnode (by simp at hlen ⊢; omega) ?_
      rw [List.length_append]
      exact ((h.perm p).step hk ha hb hn).perm (List.perm_append_singleton _ _).symm
    · intro m hkm hm
      exact h.merged m hkm (by omega)

end

/-! ## The merges of HBLD -/

theorem mem_leavesLive {freq : Vector Word 256} {x : LiveNode} :
    x ∈ leavesLive freq ↔ ∃ e, (leavesOf freq)[x.ix]? = some e ∧ x.freq = e.freq := by
  simp only [leavesLive, List.mem_map, List.mem_zipIdx_iff_getElem?]
  constructor
  · rintro ⟨p, hp, rfl⟩
    exact ⟨p.1, hp, rfl⟩
  · rintro ⟨e, he, hf⟩
    exact ⟨(e, x.ix), he, by rw [← hf]⟩

@[simp] theorem leavesLive_length (freq : Vector Word 256) : (leavesLive freq).length = (leavesOf freq).length := by
  simp [leavesLive]

/-- A leaf's frequency is a word of FREQ (R115). -/
theorem freq_lt_of_mem_leavesOf {freq : Vector Word 256} {e : NodeEntry} (h : e ∈ leavesOf freq) :
    e.freq.toNat < 2 ^ 32 := by
  rw [leavesOf_eq_map] at h
  obtain ⟨x, -, rfl⟩ := List.mem_map.1 h
  simp only [leafNode, BitVec.toNat_setWidth]
  omega

/-- All counts together fit in the 40 bits of a node's frequency (R12(b), R38). -/
theorem sum_leavesLive_lt (freq : Vector Word 256) :
    ((leavesLive freq).map fun x => x.freq.toNat).sum < 2 ^ 40 := by
  have hle : ∀ f ∈ (leavesLive freq).map fun x => x.freq.toNat, f ≤ 2 ^ 32 - 1 := by
    rintro _ hf
    obtain ⟨x, hx, rfl⟩ := List.mem_map.1 hf
    obtain ⟨e, he, hxe⟩ := mem_leavesLive.1 hx
    have := freq_lt_of_mem_leavesOf (List.mem_of_getElem? he)
    rw [hxe]
    omega
  have hsum := List.sum_le_card_nsmul _ _ hle
  have hlen : (leavesOf freq).length ≤ 256 := leavesOf_length freq ▸ codedSymbols_length_le freq
  simp only [List.length_map, leavesLive_length, smul_eq_mul] at hsum
  omega

/-- Before the first merge Q holds the leaves. -/
theorem merging_leavesLive {freq : Vector Word 256} {node : Nat → NodeEntry}
    (hnode : ∀ i e, (leavesOf freq)[i]? = some e → node i = e) :
    Merging node (leavesOf freq).length (leavesOf freq).length (leavesLive freq) := by
  have hix : (leavesLive freq).map LiveNode.ix = List.range (leavesOf freq).length := by
    rw [leavesLive, List.map_map, List.range_eq_range', ← List.zipIdx_map_snd 0]
    rfl
  refine ⟨List.Nodup.of_map LiveNode.ix (hix ▸ List.nodup_range), fun x => ?mem_iff, le_rfl, ?count,
    sum_leavesLive_lt freq, fun m hkm hm => absurd hm (Nat.not_lt.2 hkm)⟩
  case mem_iff =>
    rw [mem_leavesLive]
    constructor
    · rintro ⟨e, he, hf⟩
      obtain ⟨hlt, -⟩ := List.getElem?_eq_some_iff.1 he
      exact ⟨⟨hlt, fun m hkm hm => absurd hm (Nat.not_lt.2 hkm)⟩, by rw [hnode _ e he, hf]⟩
    · rintro ⟨⟨hlt, -⟩, hf⟩
      have he := List.getElem?_eq_getElem hlt
      exact ⟨_, he, by rw [hf, hnode _ _ he]⟩
  case count =>
    rw [leavesLive_length]
    omega

/-- Every internal node of the tree of two or more symbols merges the two live nodes with the least keys (R116, R117). -/
theorem buildTree_mergedAt {freq : Vector Word 256} {node : Nat → NodeEntry} (h : 2 ≤ (codedSymbols freq).length)
    (hnode : ∀ i e, (buildTree freq).nodes[i]? = some e → node i = e) :
    ∀ m, (codedSymbols freq).length ≤ m → m < 2 * (codedSymbols freq).length - 1 →
      MergedAt node (codedSymbols freq).length m := by
  have hleaf : ∀ i e, (leavesOf freq)[i]? = some e → node i = e := fun i e he =>
    hnode i e (getElem?_of_prefix (leavesOf_prefix_buildTree freq) he)
  have hmerging := merging_leavesLive hleaf
  have hcount := hmerging.count
  rw [← leavesOf_length] at h ⊢
  rw [(buildTree_of_two_leaves h).1] at hnode
  exact mergeLoop_mergedAt (leavesOf_length freq ▸ codedSymbols_length_le freq) _ _ _ hnode (by omega) hmerging

/-- Settles O30: the merges of the loop, in the nodes that HBLD leaves in NODE. -/
theorem hbldMergesTheTwoLeastLiveNodes : Obligations.HbldMergesTheTwoLeastLiveNodes := by
  unfold Obligations.HbldMergesTheTwoLeastLiveNodes
  rintro s k rfl hk
  obtain ⟨-, hnnode, -, hnode⟩ := TreeTrue_of_hbld s.blk
  exact ⟨_, exec_hbld s, hnnode.trans (buildTree_length_of_two hk), buildTree_root_toNat hk, buildTree_mergedAt hk hnode⟩

end Sys2Proof.Machine
end

section
/-! The codes of HASN (40_huffman_commands.md R121): the traversal gives a symbol the path to its leaf wherever that path is
the only one, and the trees of HBLD have one path to each leaf. -/

namespace Sys2Proof

/-- The child that a branch leads to: 0 goes left and 1 goes right (R121). -/
def NodeEntry.child (e : NodeEntry) (bit : Bool) : NodeIx := if bit then e.right else e.left

@[simp] theorem NodeEntry.child_false (e : NodeEntry) : e.child false = e.left := rfl

@[simp] theorem NodeEntry.child_true (e : NodeEntry) : e.child true = e.right := rfl

end Sys2Proof

namespace Sys2Proof.Machine

section
variable {node : Nat → NodeEntry} {x n : NodeIx} {c : Bits} {y : Byte}

/-! ## Following a path -/

@[simp] theorem followPath_nil (node : Nat → NodeEntry) (x : NodeIx) : followPath node x [] = some x := rfl

theorem followPath_cons_eq_some {bit : Bool} :
    followPath node x (bit :: c) = some n ↔ (node x.toNat).leaf = false ∧ (node x.toNat).child bit ≠ noNode ∧
      followPath node ((node x.toNat).child bit) c = some n := by
  rw [followPath, NodeEntry.child]
  cases (node x.toNat).leaf
  · simp
  · simp

/-- The last branch of a path leaves an internal node that the branches before it lead to. -/
theorem followPath_concat_eq_some {bit : Bool} :
    followPath node x (c ++ [bit]) = some n ↔ ∃ p, followPath node x c = some p ∧ (node p.toNat).leaf = false ∧
      (node p.toNat).child bit ≠ noNode ∧ (node p.toNat).child bit = n := by
  induction c generalizing x with
  | nil => simp [followPath_cons_eq_some]
  | cons b c ih =>
    simp only [List.cons_append, followPath_cons_eq_some, ih]
    constructor
    · rintro ⟨hleaf, hchild, p, hp, hlast⟩
      exact ⟨p, ⟨hleaf, hchild, hp⟩, hlast⟩
    · rintro ⟨p, ⟨hleaf, hchild, hp⟩, hlast⟩
      exact ⟨hleaf, hchild, p, hp, hlast⟩

/-- The path `c` leads from `x` to a leaf with symbol `y` (R121). -/
def LeafAt (node : Nat → NodeEntry) (x : NodeIx) (c : Bits) (y : Byte) : Prop :=
  ∃ n, followPath node x c = some n ∧ (node n.toNat).leaf = true ∧ (node n.toNat).sym = y

theorem leafAt_nil_iff : LeafAt node x [] y ↔ (node x.toNat).leaf = true ∧ (node x.toNat).sym = y := by
  simp [LeafAt]

theorem leafAt_cons_iff {bit : Bool} :
    LeafAt node x (bit :: c) y ↔ (node x.toNat).leaf = false ∧ (node x.toNat).child bit ≠ noNode ∧
      LeafAt node ((node x.toNat).child bit) c y := by
  simp only [LeafAt, followPath_cons_eq_some]
  constructor
  · rintro ⟨n, ⟨hleaf, hchild, hn⟩, hsym⟩
    exact ⟨hleaf, hchild, n, hn, hsym⟩
  · rintro ⟨hleaf, hchild, n, hn, hsym⟩
    exact ⟨n, ⟨hleaf, hchild, hn⟩, hsym⟩

/-! ## The traversal (R121) -/

/-- What the traversal does with one branch of an internal node: it visits the child, if there is one. -/
def assignBranch (node : Nat → NodeEntry) (fuel : Nat) (x : NodeIx) (path : Bits) (bit : Bool) (codes : Vector Bits 256) :
    Vector Bits 256 :=
  if (node x.toNat).child bit = noNode then codes
  else assignFrom node fuel ((node x.toNat).child bit) (path ++ [bit]) codes

variable {fuel : Nat} {path : Bits} {codes : Vector Bits 256}

theorem assignFrom_leaf (h : (node x.toNat).leaf = true) :
    assignFrom node (fuel + 1) x path codes = tableSet codes (node x.toNat).sym path := by
  rw [assignFrom, if_pos h]

theorem assignFrom_inner (h : (node x.toNat).leaf = false) :
    assignFrom node (fuel + 1) x path codes =
      assignBranch node fuel x path true (assignBranch node fuel x path false codes) := by
  rw [assignFrom, if_neg (by simp [h])]
  rfl

/-- A symbol to whose leaves no path leads keeps its code. -/
theorem tableGet_assignFrom_of_no_leaf (h : ∀ c, ¬ LeafAt node x c y) :
    tableGet (assignFrom node fuel x path codes) y = tableGet codes y := by
  induction fuel generalizing x path codes with
  | zero => rfl
  | succ fuel ih =>
    cases hleaf : (node x.toNat).leaf with
    | true =>
      have hsym : (node x.toNat).sym ≠ y := fun hsym => h [] (leafAt_nil_iff.2 ⟨hleaf, hsym⟩)
      rw [assignFrom_leaf hleaf, tableGet_tableSet, if_neg hsym]
    | false =>
      have hbranch : ∀ bit codes, tableGet (assignBranch node fuel x path bit codes) y = tableGet codes y := by
        intro bit codes
        unfold assignBranch
        split_ifs with hchild
        · rfl
        · exact ih fun c hc => h (bit :: c) (leafAt_cons_iff.2 ⟨hleaf, hchild, hc⟩)
      rw [assignFrom_inner hleaf, hbranch, hbranch]

/-- A symbol to which one path leads gets that path as its code, if the traversal goes deep enough. -/
theorem tableGet_assignFrom_of_leafAt (huniq : ∀ c c', LeafAt node x c y → LeafAt node x c' y → c = c')
    (hc : LeafAt node x c y) (hfuel : c.length < fuel) :
    tableGet (assignFrom node fuel x path codes) y = path ++ c := by
  induction fuel generalizing x path codes c with
  | zero => exact absurd hfuel (Nat.not_lt_zero _)
  | succ fuel ih =>
    cases c with
    | nil =>
      obtain ⟨hleaf, rfl⟩ := leafAt_nil_iff.1 hc
      rw [assignFrom_leaf hleaf, tableGet_tableSet_self, List.append_nil]
    | cons bit c =>
      obtain ⟨hleaf, hchild, hc'⟩ := leafAt_cons_iff.1 hc
      have htaken : ∀ codes, tableGet (assignBranch node fuel x path bit codes) y = path ++ bit :: c := by
        intro codes
        have huniq' : ∀ c c', LeafAt node ((node x.toNat).child bit) c y →
            LeafAt node ((node x.toNat).child bit) c' y → c = c' := fun c₁ c₂ h₁ h₂ =>
          (List.cons.inj (huniq (bit :: c₁) (bit :: c₂) (leafAt_cons_iff.2 ⟨hleaf, hchild, h₁⟩)
            (leafAt_cons_iff.2 ⟨hleaf, hchild, h₂⟩))).2
        rw [assignBranch, if_neg hchild, ih huniq' hc' (Nat.lt_of_succ_lt_succ hfuel), List.append_assoc]
        rfl
      have hother : ∀ bit' codes, bit' ≠ bit →
          tableGet (assignBranch node fuel x path bit' codes) y = tableGet codes y := by
        intro bit' codes hne
        unfold assignBranch
        split_ifs with hno
        · rfl
        · refine tableGet_assignFrom_of_no_leaf fun c' hc' => ?_
          have heq := huniq (bit' :: c') (bit :: c) (leafAt_cons_iff.2 ⟨hleaf, hno, hc'⟩) hc
          exact hne (List.cons.inj heq).1
      rw [assignFrom_inner hleaf]
      cases bit with
      | false => rw [hother true _ nofun, htaken]
      | true => rw [htaken]

/-- Where every leaf lies below the root, at most 255 branches deep, and at the end of one path for its symbol, the codes
are the paths to the leaves. -/
theorem tableGet_assignCodes_iff {root : NodeIx} (hroot : root ≠ noNode) (hinner : ∀ y, ¬ LeafAt node root [] y)
    (hdepth : ∀ c y, LeafAt node root c y → c.length ≤ Config.codeMax)
    (huniq : ∀ y c c', LeafAt node root c y → LeafAt node root c' y → c = c') :
    (tableGet (assignCodes node root) y = c ∧ c ≠ []) ↔ LeafAt node root c y := by
  have hcode : ∀ c, LeafAt node root c y → tableGet (assignCodes node root) y = c := fun c hc => by
    rw [assignCodes, if_neg hroot,
      tableGet_assignFrom_of_leafAt (huniq y) hc (Nat.lt_succ_of_le (hdepth c y hc)), List.nil_append]
  constructor
  · rintro ⟨rfl, hne⟩
    by_cases hleaf : ∃ c, LeafAt node root c y
    · obtain ⟨c, hc⟩ := hleaf
      rwa [hcode c hc]
    · refine absurd ?_ hne
      rw [assignCodes, if_neg hroot, tableGet_assignFrom_of_no_leaf (not_exists.1 hleaf), tableGet_replicate]
  · intro hc
    refine ⟨hcode c hc, ?_⟩
    rintro rfl
    exact hinner y hc

end

/-! ## The shape of a tree of HBLD (R120) -/

/-- What the traversal needs of a tree with `k` leaves: the leaves have the indices below `k` and different symbols, the
root is an internal node, a child has a smaller index than its parent, and a node has one parent and stands on one side
of it. -/
structure CodeTree (node : Nat → NodeEntry) (k : Nat) (root : NodeIx) : Prop where
  le_root : k ≤ root.toNat
  root_lt : root.toNat < Config.codeMax + k
  leaf_iff : ∀ q, q ≤ root.toNat → ((node q).leaf = true ↔ q < k)
  child_lt : ∀ m bit, k ≤ m → m ≤ root.toNat → (node m).child bit ≠ noNode → ((node m).child bit).toNat < m
  parent_unique : ∀ m m' bit bit', k ≤ m → m ≤ root.toNat → k ≤ m' → m' ≤ root.toNat → (node m).child bit ≠ noNode →
    (node m).child bit = (node m').child bit' → m = m' ∧ bit = bit'
  sym_injective : ∀ p q, p < k → q < k → (node p).sym = (node q).sym → p = q

section
variable {node : Nat → NodeEntry} {k : Nat} {root n : NodeIx} {c c' : Bits}

theorem CodeTree.le_of_inner (h : CodeTree node k root) {q : Nat} (hq : q ≤ root.toNat) (hleaf : (node q).leaf = false) :
    k ≤ q := by
  by_contra hlt
  have htrue := (h.leaf_iff q hq).2 (Nat.lt_of_not_le hlt)
  simp [hleaf] at htrue

/-- Every branch leads to a smaller index. -/
theorem CodeTree.toNat_add_length_le (h : CodeTree node k root) (hc : followPath node root c = some n) :
    n.toNat + c.length ≤ root.toNat := by
  induction c using List.reverseRecOn generalizing n with
  | nil =>
    obtain rfl : root = n := by simpa using hc
    exact le_rfl
  | append_singleton c bit ih =>
    obtain ⟨p, hp, hleaf, hchild, rfl⟩ := followPath_concat_eq_some.1 hc
    have hle := ih hp
    have hlt := h.child_lt p.toNat bit (h.le_of_inner (by omega) hleaf) (by omega) hchild
    rw [List.length_append, List.length_singleton]
    omega

/-- The last branch of a path from the root leaves an internal node of the tree. -/
theorem CodeTree.parent_bounds (h : CodeTree node k root) {p : NodeIx} (hp : followPath node root c = some p)
    (hleaf : (node p.toNat).leaf = false) : k ≤ p.toNat ∧ p.toNat + c.length ≤ root.toNat := by
  have hle := h.toNat_add_length_le hp
  exact ⟨h.le_of_inner (by omega) hleaf, hle⟩

/-- One path leads from the root to each node. -/
theorem CodeTree.path_unique (h : CodeTree node k root) (hc : followPath node root c = some n)
    (hc' : followPath node root c' = some n) : c = c' := by
  induction c using List.reverseRecOn generalizing n c' with
  | nil =>
    obtain rfl : root = n := by simpa using hc
    have hlen := h.toNat_add_length_le hc'
    exact (List.eq_nil_of_length_eq_zero (by omega)).symm
  | append_singleton c bit ih =>
    obtain ⟨p, hp, hleaf, hchild, rfl⟩ := followPath_concat_eq_some.1 hc
    obtain ⟨hkp, hpr⟩ := h.parent_bounds hp hleaf
    rcases List.eq_nil_or_concat c' with rfl | ⟨c', bit', rfl⟩
    · have hlen := h.toNat_add_length_le hc
      obtain heq : root = _ := by simpa using hc'
      rw [← heq, List.length_append, List.length_singleton] at hlen
      omega
    · rw [List.concat_eq_append] at hc' ⊢
      obtain ⟨p', hp', hleaf', -, heq⟩ := followPath_concat_eq_some.1 hc'
      obtain ⟨hkp', hpr'⟩ := h.parent_bounds hp' hleaf'
      obtain ⟨hpp, rfl⟩ := h.parent_unique _ _ _ _ hkp (by omega) hkp' (by omega) hchild heq.symm
      rw [BitVec.eq_of_toNat_eq hpp] at hp
      rw [ih hp hp']

/-- The root is no leaf (R120). -/
theorem CodeTree.not_leafAt_nil (h : CodeTree node k root) (y : Byte) : ¬ LeafAt node root [] y := by
  intro hnil
  obtain ⟨hleaf, -⟩ := leafAt_nil_iff.1 hnil
  have hlt := (h.leaf_iff root.toNat le_rfl).1 hleaf
  exact absurd h.le_root (Nat.not_le.2 hlt)

/-- No path from the root is longer than CODE_MAX branches (R12(e), R121). -/
theorem CodeTree.length_le (h : CodeTree node k root) (hc : followPath node root c = some n) :
    c.length ≤ Config.codeMax := by
  rcases List.eq_nil_or_concat c with rfl | ⟨c, bit, rfl⟩
  · exact Nat.zero_le _
  · rw [List.concat_eq_append] at hc ⊢
    obtain ⟨p, hp, hleaf, -⟩ := followPath_concat_eq_some.1 hc
    obtain ⟨hkp, hle⟩ := h.parent_bounds hp hleaf
    have hroot := h.root_lt
    rw [List.length_append, List.length_singleton]
    omega

/-- One path leads from the root to each symbol. -/
theorem CodeTree.leafAt_unique (h : CodeTree node k root) {y : Byte} (hc : LeafAt node root c y)
    (hc' : LeafAt node root c' y) : c = c' := by
  obtain ⟨n, hn, hleaf, hsym⟩ := hc
  obtain ⟨n', hn', hleaf', hsym'⟩ := hc'
  have hle := h.toNat_add_length_le hn
  have hle' := h.toNat_add_length_le hn'
  have heq := h.sym_injective _ _ ((h.leaf_iff _ (by omega)).1 hleaf) ((h.leaf_iff _ (by omega)).1 hleaf')
    (hsym.trans hsym'.symm)
  exact h.path_unique (BitVec.eq_of_toNat_eq heq ▸ hn) hn'

/-- On a tree of that shape the codes are the paths to the leaves (R121). -/
theorem CodeTree.assignCodes_iff (h : CodeTree node k root) (hroot : root ≠ noNode) {y : Byte} :
    (tableGet (assignCodes node root) y = c ∧ c ≠ []) ↔ LeafAt node root c y :=
  tableGet_assignCodes_iff hroot h.not_leafAt_nil (fun _ _ ⟨_, hn, _⟩ => h.length_le hn)
    fun _ _ _ => h.leafAt_unique

end

/-! ## The trees of HBLD have that shape -/

section
variable {node : Nat → NodeEntry} {k m : Nat} {bit : Bool}

theorem MergedAt.liveBefore_child (h : MergedAt node k m) (bit : Bool) :
    LiveBefore node k m ((node m).child bit).toNat := by
  obtain ⟨-, -, hleft, hright, -⟩ := h
  cases bit
  · exact hleft
  · exact hright

theorem MergedAt.left_ne_right (h : MergedAt node k m) : (node m).left ≠ (node m).right := by
  obtain ⟨-, -, -, -, hkey, -⟩ := h
  intro heq
  simp [KeyBefore, heq] at hkey

theorem MergedAt.child_injective (h : MergedAt node k m) : Function.Injective (node m).child
  | false, false, _ => rfl
  | true, true, _ => rfl
  | false, true, heq => absurd heq h.left_ne_right
  | true, false, heq => absurd heq.symm h.left_ne_right

/-- A live node is the child of no node made before. -/
theorem LiveBefore.ne_child {q m' : Nat} (h : LiveBefore node k m q) (hk : k ≤ m') (hm : m' < m) (bit : Bool) :
    ((node m').child bit).toNat ≠ q := by
  obtain ⟨-, hparent⟩ := h
  obtain ⟨hleft, hright⟩ := hparent m' hk hm
  cases bit
  · exact hleft
  · exact hright

/-- Two merges have no child in common, and one merge has two different children. -/
theorem MergedAt.parent_unique {m' : Nat} {bit' : Bool} (h : MergedAt node k m) (h' : MergedAt node k m') (hk : k ≤ m)
    (hk' : k ≤ m') (heq : (node m).child bit = (node m').child bit') : m = m' ∧ bit = bit' := by
  rcases Nat.lt_trichotomy m m' with hlt | rfl | hlt
  · exact absurd (congrArg BitVec.toNat heq) ((h'.liveBefore_child bit').ne_child hk hlt bit)
  · exact ⟨rfl, h.child_injective heq⟩
  · exact absurd (congrArg BitVec.toNat heq.symm) ((h.liveBefore_child bit).ne_child hk' hlt bit')

end

section
variable {b : Block}

/-- The leaves of a valid tree, in ascending order of symbol (R115). -/
theorem Block.TreeTrue.nodeAt_leaf (h : b.TreeTrue) {k : Nat} (hk : k < (codedSymbols b.freq).length) :
    b.nodeAt k = leafNode (codedSymbols b.freq)[k] (b.freqOf (codedSymbols b.freq)[k]) := by
  obtain ⟨-, -, -, hnode⟩ := h
  exact hnode k _ (buildTree_getElem?_leaf (List.getElem?_eq_getElem hk))

theorem Block.TreeTrue.sym_injective (h : b.TreeTrue) {p q : Nat} (hp : p < (codedSymbols b.freq).length)
    (hq : q < (codedSymbols b.freq).length) (heq : (b.nodeAt p).sym = (b.nodeAt q).sym) : p = q := by
  rw [h.nodeAt_leaf hp, h.nodeAt_leaf hq] at heq
  exact (List.Nodup.getElem_inj_iff (symbols_nodup.filter _)).1 heq

theorem Block.TreeTrue.leaf_iff (h : b.TreeTrue) {q : Nat}
    (hinner : (codedSymbols b.freq).length ≤ q → (b.nodeAt q).leaf = false) :
    (b.nodeAt q).leaf = true ↔ q < (codedSymbols b.freq).length := by
  by_cases hlt : q < (codedSymbols b.freq).length
  · simp [h.nodeAt_leaf hlt, leafNode, hlt]
  · simp [hinner (Nat.le_of_not_lt hlt), hlt]

/-- The tree of two or more symbols (R120). -/
theorem Block.TreeTrue.codeTree_of_two (h : b.TreeTrue) (hk : 2 ≤ (codedSymbols b.freq).length) :
    CodeTree b.nodeAt (codedSymbols b.freq).length b.hRoot := by
  obtain ⟨hroot, -, -, hnode⟩ := id h
  have hrootNat : b.hRoot.toNat = 2 * (codedSymbols b.freq).length - 2 := hroot ▸ buildTree_root_toNat hk
  have hle := codedSymbols_length_le b.freq
  have hmerged : ∀ m, (codedSymbols b.freq).length ≤ m → m ≤ b.hRoot.toNat →
      MergedAt b.nodeAt (codedSymbols b.freq).length m := fun m hkm hm =>
    buildTree_mergedAt hk hnode m hkm (by omega)
  refine ⟨by omega, by unfold Config.codeMax; omega, fun q hq => ?leaf, fun m bit hkm hm _ => ?child,
    fun m m' bit bit' hkm hm hkm' hm' _ heq => ?parent, fun p q => h.sym_injective⟩
  case leaf =>
    refine h.leaf_iff fun hkq => ?_
    obtain ⟨hinner, -⟩ := hmerged q hkq hq
    exact hinner
  case child =>
    obtain ⟨hlt, -⟩ := (hmerged m hkm hm).liveBefore_child bit
    exact hlt
  case parent => exact (hmerged m hkm hm).parent_unique (hmerged m' hkm' hm') hkm hkm' heq

/-- The tree of one symbol (R118): the root has index 1, and its left child is the leaf. -/
theorem Block.TreeTrue.codeTree_of_one (h : b.TreeTrue) (hk : (codedSymbols b.freq).length = 1) :
    CodeTree b.nodeAt (codedSymbols b.freq).length b.hRoot := by
  obtain ⟨hroot, -, -, hnode⟩ := id h
  obtain ⟨l, hl⟩ := List.length_eq_one_iff.1 ((leavesOf_length b.freq).trans hk)
  have htree := buildTree_of_one_leaf hl
  have hroot1 : b.hRoot = 1 := by rw [hroot, htree]
  have hnode1 : b.nodeAt 1 = innerNode l.freq 0 noNode := hnode 1 _ (by simp [htree])
  have honly : ∀ m, (codedSymbols b.freq).length ≤ m → m ≤ b.hRoot.toNat → m = 1 := by
    rw [hk, hroot1]
    exact fun m hkm hm => Nat.le_antisymm hm hkm
  have hleft : ∀ bit, (b.nodeAt 1).child bit ≠ noNode → bit = false := by
    rintro (_ | _) hchild
    · rfl
    · exact absurd (by rw [hnode1]; rfl) hchild
  refine ⟨by rw [hk, hroot1]; decide, by rw [hk, hroot1]; decide, fun q hq => ?leaf, fun m bit hkm hm hchild => ?child,
    fun m m' bit bit' hkm hm hkm' hm' hchild heq => ?parent, fun p q => h.sym_injective⟩
  case leaf =>
    refine h.leaf_iff fun hkq => ?_
    obtain rfl := honly q hkq hq
    rw [hnode1, innerNode]
  case child =>
    obtain rfl := honly m hkm hm
    obtain rfl := hleft bit hchild
    rw [hnode1]
    exact Nat.zero_lt_one
  case parent =>
    obtain rfl := honly m hkm hm
    obtain rfl := honly m' hkm' hm'
    exact ⟨rfl, (hleft bit hchild).trans (hleft bit' (heq ▸ hchild)).symm⟩

theorem Block.TreeTrue.codeTree (h : b.TreeTrue) (hroot : b.hRoot ≠ noNode) :
    CodeTree b.nodeAt (codedSymbols b.freq).length b.hRoot := by
  rcases Nat.lt_trichotomy (codedSymbols b.freq).length 1 with h0 | h1 | h2
  · obtain ⟨hroot', -⟩ := h
    have hnil : leavesOf b.freq = [] := List.eq_nil_of_length_eq_zero (by rw [leavesOf_length]; omega)
    exact absurd (hroot'.trans (by rw [buildTree_of_no_leaf hnil])) hroot
  · exact h.codeTree_of_one h1
  · exact h.codeTree_of_two h2

end

/-- Settles O32: a tree that tells the truth has one path to each symbol, and HASN gives the symbol that path; where there
is no root, HASN gives no symbol a code. -/
theorem hasnAssignsThePathToEachLeaf : Obligations.HasnAssignsThePathToEachLeaf := by
  unfold Obligations.HasnAssignsThePathToEachLeaf
  refine ⟨decode_encode .hasn, fun s => ⟨fun ht => ?valid, fun ht => ?noTree⟩⟩
  case valid =>
    refine ⟨_, runChecked_of_passes (hasnCheck_of_tree ht), rfl, fun hflags x c => ?_⟩
    obtain ⟨htree, -⟩ := hflags
    show (tableGet (assignCodes s.blk.nodeAt s.blk.hRoot) x = c ∧ c ≠ []) ↔
      s.blk.hRoot ≠ noNode ∧ LeafAt s.blk.nodeAt s.blk.hRoot c x
    by_cases hroot : s.blk.hRoot = noNode
    · simp [hroot, assignCodes, eq_comm]
    · rw [((htree ht).codeTree hroot).assignCodes_iff hroot, and_iff_right hroot]
  case noTree => exact runChecked_of_fails (hasnCheck_of_no_tree ht)

end Sys2Proof.Machine
end

section
/-! The match length of LCMP and its choice among candidates (41_lz77_commands.md R156, R157). -/

namespace Sys2Proof.Machine

namespace LzJob

section
variable {j : LzJob} {i p q m : Nat}

/-! ## The match length (R156) -/

/-- The extension loop does not stop before a length up to which its condition holds. -/
theorem le_extend {fuel len : Nat} (hm : m ≤ len + fuel)
    (h : ∀ t, len ≤ t → t < m → i + t < j.n ∧ p + t < i ∧ j.byteAt (p + t) = j.byteAt (i + t)) :
    m ≤ j.extend p i fuel len := by
  induction fuel generalizing len with
  | zero => exact hm
  | succ fuel ih =>
    rw [extend]
    split
    case isTrue => exact ih (by omega) fun t ht => h t (by omega)
    case isFalse hstop => exact Nat.le_of_not_lt fun hlt => hstop (h len le_rfl (by omega))

/-- The match length is the greatest length that R156 allows. -/
theorem le_mlen_iff {len : Nat} : len ≤ j.mlen p i ↔
    len ≤ j.look ∧ len ≤ j.n - i ∧ len ≤ i - p ∧ ∀ t, t < len → j.byteAt (p + t) = j.byteAt (i + t) := by
  constructor
  · intro h
    have hinside := fun t (ht : t < len) => j.mlen_inside p i t (by omega)
    have hfits := j.mlen_fits p i
    have hlook := j.mlen_le_look p i
    exact ⟨by omega, by omega, by omega, fun t ht => (hinside t ht).2.2⟩
  · rintro ⟨hlook, hn, hi, hbytes⟩
    exact le_extend (by omega) fun t _ ht => ⟨by omega, by omega, hbytes t ht⟩

/-- A match of three bytes or more starts with the key at `i`, and both ends lie inside the input (R154, R162). -/
theorem keyAt_eq_of_minMatch_le (h : Config.minMatch ≤ j.mlen p i) :
    j.keyAt p = j.keyAt i ∧ p + 3 ≤ i ∧ i + 3 ≤ j.n := by
  obtain ⟨-, hn, hi, hbytes⟩ := le_mlen_iff.1 h
  unfold Config.minMatch at hn hi hbytes
  have h0 := hbytes 0 (by omega)
  have h1 := hbytes 1 (by omega)
  have h2 := hbytes 2 (by omega)
  exact ⟨by simpa [keyAt] using ⟨h0, h1, h2⟩, by omega, by omega⟩

/-! ## The first of the longest candidates (R157) -/

theorem bestOf_concat (ps : List Nat) : j.bestOf i (ps ++ [p]) = j.better i (j.bestOf i ps) p := by
  simp [bestOf]

/-- In an ascending list the candidates before the chosen one are shorter: the earliest wins ties. -/
theorem mlen_lt_bestOf {ps : List Nat} (hps : ps.Pairwise (· < ·)) (hq : q ∈ ps) (hw : i - q ≤ j.window)
    (hlt : q < (j.bestOf i ps).2) : j.mlen q i < (j.bestOf i ps).1 := by
  induction ps using List.reverseRecOn with
  | nil => simp at hq
  | append_singleton ps p ih =>
    obtain ⟨hps, -, hlast⟩ := List.pairwise_append.1 hps
    replace hlast : ∀ q ∈ ps, q < p := fun q hq => hlast q hq p (by simp)
    replace hq : q ∈ ps ∨ q = p := by simpa using hq
    rw [bestOf_concat, better] at hlt ⊢
    split_ifs at hlt ⊢ with hbetter
    · obtain ⟨-, hlonger⟩ := hbetter
      have hq' : q ∈ ps := hq.resolve_right hlt.ne
      exact ((j.le_foldl_better i ps (0, 0)).2 q hq' hw).trans_lt hlonger
    · rcases hq with hq | rfl
      · exact ih hps hq hlt
      · rcases j.foldl_better_cases i ps (0, 0) with hbest | ⟨p, hp, -, hbest, -⟩
        · rw [bestOf, hbest] at hlt
          exact absurd hlt (Nat.not_lt_zero q)
        · rw [bestOf, hbest] at hlt
          exact absurd hlt (hlast p hp).le.not_gt

end

end LzJob

/-- Settles O43: the extension loop goes on as long as its condition holds, and what it passes over satisfies it. -/
theorem matchLengthIsTheGreatest : Obligations.MatchLengthIsTheGreatest := by
  unfold Obligations.MatchLengthIsTheGreatest
  exact fun j p i len => LzJob.le_mlen_iff.symm

end Sys2Proof.Machine
end

section
/-! The dictionary of LCMP (41_lz77_commands.md R154, R159, R160): it lists the latest positions, each once and under its key,
so that its size is bounded (R165). -/

namespace Sys2Proof.Machine

/-! ## The keys of a dictionary (R154) -/

section
variable {d : LzDict} {key : LzKey}

theorem LzDict.get_of_mem {e : LzKey × List Nat} (h : (d.map Prod.fst).Nodup) (he : e ∈ d) : d.get e.1 = e.2 := by
  induction d with
  | nil => simp at he
  | cons x d ih =>
    obtain ⟨k, ps⟩ := x
    rw [List.map_cons, List.nodup_cons] at h
    obtain ⟨hk, hd⟩ := h
    rcases List.mem_cons.1 he with rfl | he
    · simp [LzDict.get]
    · have hne : k ≠ e.1 := fun hke => hk (List.mem_map.2 ⟨e, he, hke.symm⟩)
      rw [LzDict.get, if_neg hne, ih hd he]

theorem LzDict.get_of_not_mem (h : key ∉ d.map Prod.fst) : d.get key = [] := by
  induction d with
  | nil => rfl
  | cons x d ih =>
    obtain ⟨k, ps⟩ := x
    rw [List.map_cons, List.mem_cons, not_or] at h
    rw [LzDict.get, if_neg (Ne.symm h.1), ih h.2]

theorem LzDict.keys_append (q : Nat) : (d.append key q).map Prod.fst =
    if key ∈ d.map Prod.fst then d.map Prod.fst else d.map Prod.fst ++ [key] := by
  induction d with
  | nil => simp [LzDict.append]
  | cons x d ih =>
    obtain ⟨k, ps⟩ := x
    by_cases hk : k = key
    · simp [LzDict.append, hk]
    · rw [LzDict.append, if_neg hk, List.map_cons, ih]
      by_cases hkey : key ∈ d.map Prod.fst <;> simp [hkey, Ne.symm hk]

theorem LzJob.keys_compact_sublist (j : LzJob) (d : LzDict) (i : Nat) :
    ((j.compact d i).map Prod.fst).Sublist (d.map Prod.fst) := by
  have h : (d.map fun e => (e.1, e.2.filter fun p => i - p ≤ j.window)).map Prod.fst = d.map Prod.fst := by
    simp [Function.comp_def]
  rw [← h]
  exact List.filter_sublist.map _

/-- With no key listed twice, an entry that compaction empties and drops leaves its key with the empty list (R160). -/
theorem LzJob.get_compact (j : LzJob) (i : Nat) (h : (d.map Prod.fst).Nodup) :
    (j.compact d i).get key = (d.get key).filter fun p => i - p ≤ j.window := by
  induction d with
  | nil => rfl
  | cons x d ih =>
    obtain ⟨k, ps⟩ := x
    rw [List.map_cons, List.nodup_cons] at h
    obtain ⟨hk, hd⟩ := h
    replace ih := ih hd
    rw [LzJob.compact] at ih ⊢
    rw [List.map_cons, List.filter_cons, LzDict.get]
    split_ifs with hempty hkey hkey
    · simp [LzDict.get, hkey]
    · simp only [LzDict.get, if_neg hkey, ih]
    · subst hkey
      rw [ih, LzDict.get_of_not_mem hk]
      simpa using hempty
    · exact ih

end

namespace LzJob

section
variable {j : LzJob} {d : LzDict} {lo i p : Nat} {key : LzKey} {r : LzRun}

/-! ## The dictionary as the latest positions (R159, R160) -/

/-- The positions from `lo` to before `i` that have this key and three bytes left, in ascending order. -/
def positions (j : LzJob) (lo i : Nat) (key : LzKey) : List Nat :=
  (List.range i).filter fun p => lo ≤ p ∧ p + 3 ≤ j.n ∧ j.keyAt p = key

theorem mem_positions : p ∈ j.positions lo i key ↔ p < i ∧ lo ≤ p ∧ p + 3 ≤ j.n ∧ j.keyAt p = key := by
  simp [positions]

theorem pairwise_positions : (j.positions lo i key).Pairwise (· < ·) :=
  List.pairwise_lt_range.filter _

theorem positions_succ (hlo : lo ≤ i) : j.positions lo (i + 1) key =
    if i + 3 ≤ j.n ∧ j.keyAt i = key then j.positions lo i key ++ [i] else j.positions lo i key := by
  simp only [positions, List.range_succ, List.filter_append]
  split_ifs with h
  · simp [hlo, h]
  · simpa [hlo] using h

/-- Compaction at `i` keeps the positions from `i - W` on. -/
theorem filter_positions : (j.positions lo i key).filter (fun p => i - p ≤ j.window) =
    j.positions (max lo (i - j.window)) i key := by
  rw [positions, positions, List.filter_filter]
  refine List.filter_congr fun p hp => ?_
  have hlt := List.mem_range.1 hp
  have hlo : i - p ≤ j.window ∧ lo ≤ p ↔ max lo (i - j.window) ≤ p := by omega
  rw [← Bool.decide_and, decide_eq_decide, ← and_assoc, hlo]

/-- The dictionary lists, under each key once, exactly the positions from `lo` to before `i` (R159). -/
structure Records (j : LzJob) (lo i : Nat) (d : LzDict) : Prop where
  keys_nodup : (d.map Prod.fst).Nodup
  get_eq : ∀ key, d.get key = j.positions lo i key

theorem records_nil : j.Records 0 0 [] := ⟨List.nodup_nil, fun key => by simp [LzDict.get, positions]⟩

theorem Records.register (h : j.Records lo i d) (hlo : lo ≤ i) : j.Records lo (i + 1) (j.register d i) := by
  obtain ⟨hnodup, hget⟩ := h
  unfold LzJob.register
  split_ifs with hi
  · refine ⟨?_, fun key => ?_⟩
    · rw [LzDict.keys_append]
      split_ifs with hkey
      · exact hnodup
      · simpa using hnodup.concat hkey
    · simp only [LzDict.get_append, positions_succ hlo, hget, hi, true_and]
  · exact ⟨hnodup, fun key => by simp [positions_succ hlo, hget, hi]⟩

theorem filled_succ (j : LzJob) (r : LzRun) (m : Nat) :
    j.filled r (m + 1) = j.register (j.filled r m) (r.i + m) := by
  simp [filled, List.range'_concat]

theorem Records.filled (h : j.Records lo r.i r.dict) (hlo : lo ≤ r.i) (m : Nat) :
    j.Records lo (r.i + m) (j.filled r m) := by
  induction m with
  | zero => exact h
  | succ m ih =>
    rw [filled_succ]
    exact ih.register (by omega)

theorem Records.compact (h : j.Records lo i d) : j.Records (max lo (i - j.window)) i (j.compact d i) := by
  obtain ⟨hnodup, hget⟩ := h
  refine ⟨hnodup.sublist (j.keys_compact_sublist d i), fun key => ?_⟩
  rw [j.get_compact i hnodup, hget, filter_positions]

theorem Records.snd_eq_positions {e : LzKey × List Nat} (h : j.Records lo i d) (he : e ∈ d) :
    e.2 = j.positions lo i e.1 := by
  rw [← h.get_eq, LzDict.get_of_mem h.keys_nodup he]

/-- No position is listed twice: each list is ascending, and a position has one key. -/
theorem Records.nodup_listed (h : j.Records lo i d) : (d.flatMap Prod.snd).Nodup := by
  refine List.nodup_flatMap.2 ⟨fun e he => ?_, (List.pairwise_map.1 h.keys_nodup).imp_of_mem ?_⟩
  · rw [h.snd_eq_positions he]
    exact pairwise_positions.imp Nat.ne_of_lt
  · intro e e' he he' hne p hp hp'
    rw [h.snd_eq_positions he] at hp
    rw [h.snd_eq_positions he'] at hp'
    obtain ⟨-, -, -, hkey⟩ := mem_positions.1 hp
    obtain ⟨-, -, -, hkey'⟩ := mem_positions.1 hp'
    exact hne (hkey.symm.trans hkey')

/-- The listed positions are distinct and lie from `lo` to before `i`, so there are at most `i - lo` of them (R165). -/
theorem Records.occupancy_le (h : j.Records lo i d) : d.occupancy ≤ i - lo := by
  have hrange : d.flatMap Prod.snd ⊆ List.range' lo (i - lo) := by
    intro p hp
    obtain ⟨e, he, hp⟩ := List.mem_flatMap.1 hp
    rw [h.snd_eq_positions he, mem_positions] at hp
    rw [List.mem_range'_1]
    omega
  calc d.occupancy = (d.flatMap Prod.snd).length := by rw [List.length_flatMap]; rfl
    _ ≤ (List.range' lo (i - lo)).length := (h.nodup_listed.subperm hrange).length_le
    _ = i - lo := List.length_range'

/-! ## The loop (R152, R160) -/

/-- What holds between two rounds: fewer than PRUNE_INTERVAL positions were advanced since the last compaction, and the
dictionary lists the positions from some `lo` on. They cover the whole window, which is what a search needs (R162), and reach
at most those advanced positions farther back, which bounds the dictionary (R165). -/
def Tracks (j : LzJob) (r : LzRun) : Prop :=
  (r.adv = 0 ∨ r.adv < j.prune) ∧ ∃ lo ≤ r.i - j.window, r.i ≤ lo + j.window + r.adv ∧ j.Records lo r.i r.dict

theorem tracks_start : j.Tracks LzRun.start := ⟨.inl rfl, 0, Nat.zero_le _, Nat.zero_le _, records_nil⟩

/-- A compaction moves `lo` up to the window; without one, `i` and `adv` advance by the same amount. -/
theorem Tracks.round (h : j.Tracks r) : j.Tracks (j.round r) := by
  obtain ⟨-, lo, hlo, hi, hrec⟩ := h
  have hfilled := hrec.filled (by omega) (j.stepOf r)
  obtain ⟨hnext, ⟨hdict, hadv, hprune⟩ | ⟨hdict, hadv, -⟩⟩ := j.round_dict r
  · refine ⟨.inr (by omega), lo, by omega, by omega, ?_⟩
    rw [hdict, hnext]
    exact hfilled
  · refine ⟨.inl hadv, max lo (r.i + j.stepOf r - j.window), by omega, by omega, ?_⟩
    rw [hdict, hnext]
    exact hfilled.compact

theorem tracks_rounds (k : Nat) : j.Tracks (j.rounds k LzRun.start) :=
  j.rounds_induction j.Tracks k _ tracks_start fun _ _ => Tracks.round

theorem Tracks.occupancy_le (h : j.Tracks r) (hprune : 1 ≤ j.prune) : r.dict.occupancy ≤ j.window + j.prune - 1 := by
  obtain ⟨hadv, lo, hlo, hi, hrec⟩ := h
  have := hrec.occupancy_le
  omega

end

end LzJob

/-- Settles O48: the invariant `LzJob.Tracks` bounds the dictionary between two rounds, and a round registers at most as many
positions as it advances by. -/
theorem dictionaryStaysBounded : Obligations.DictionaryStaysBounded := by
  unfold Obligations.DictionaryStaysBounded
  intro j k hprune
  have hround := (j.tracks_rounds k).occupancy_le hprune
  refine ⟨hround.trans (Nat.le_add_right _ _), ?_⟩
  rintro r rfl m hm
  have hfilled := j.occupancy_filled_le (j.rounds k LzRun.start) m
  have hstep := j.stepOf_le (j.rounds k LzRun.start)
  omega

end Sys2Proof.Machine
end

section
/-! The tokens of LCMP are the greedy parse of the input (41_lz77_commands.md R162), which knows neither the dictionary nor the
compaction period; what R161, R163 and R164 say of the tokens follows from the parse. -/

namespace Sys2Proof.Machine

namespace LzJob

section
variable {j j' : LzJob} {i q : Nat} {r : LzRun} {t t' : Token} {toks toks' : List Token}

/-! ## What the parse depends on (R161) -/

/-- Two jobs with the same window, lookahead and input; the compaction period and the bytes beyond the input may differ. -/
structure SameInput (j j' : LzJob) : Prop where
  n_eq : j'.n = j.n
  window_eq : j'.window = j.window
  look_eq : j'.look = j.look
  byteAt_eq : ∀ k < j.n, j'.byteAt k = j.byteAt k

theorem SameInput.mlen_eq (h : j.SameInput j') (p i : Nat) : j'.mlen p i = j.mlen p i := by
  refine eq_of_forall_le_iff fun len => ?_
  rw [le_mlen_iff, le_mlen_iff, h.n_eq, h.look_eq]
  refine and_congr_right fun _ => and_congr_right fun hn => and_congr_right fun hi => forall₂_congr fun t ht => ?_
  rw [h.byteAt_eq (p + t) (by omega), h.byteAt_eq (i + t) (by omega)]

theorem SameInput.greedyAt (h : j.SameInput j') (ht : j.GreedyAt i t) : j'.GreedyAt i t := by
  cases t with
  | lit b =>
    obtain ⟨hi, hb, hshort⟩ := ht
    refine ⟨h.n_eq ▸ hi, hb.trans (h.byteAt_eq i hi).symm, ?_⟩
    simpa only [h.n_eq, h.window_eq, h.mlen_eq] using hshort
  | backRef offset length => simpa only [GreedyAt, h.n_eq, h.window_eq, h.mlen_eq] using ht

theorem SameInput.greedyParse (h : j.SameInput j') (hp : j.GreedyParse i toks) : j'.GreedyParse i toks := by
  induction toks generalizing i with
  | nil => exact hp.trans h.n_eq.symm
  | cons t toks ih => exact ⟨h.greedyAt hp.1, ih hp.2⟩

/-! ## The parse is unique (R162) -/

theorem GreedyAt.lt_n (h : j.GreedyAt i t) : i < j.n := by
  cases t with
  | lit b => exact h.1
  | backRef offset length => exact Nat.lt_of_lt_of_le (by omega) h.1

/-- A literal stands only where no match is long enough. -/
theorem GreedyAt.not_lit_of_backRef {b : Byte} {offset length : Nat} (h : j.GreedyAt i (.backRef offset length)) :
    ¬ j.GreedyAt i (.lit b) := by
  rintro ⟨-, -, hshort⟩
  obtain ⟨hn, hpos, hi, hw, hmin, hlen, -⟩ := h
  have := hshort hn (i - offset) (by omega) (by omega)
  omega

/-- The greedy match at a position is longest, and of the longest it lies farthest back. -/
theorem GreedyAt.length_le_and_offset_le {o o' l l' : Nat} (h : j.GreedyAt i (.backRef o l))
    (h' : j.GreedyAt i (.backRef o' l')) : l' ≤ l ∧ (l' = l → o' ≤ o) := by
  obtain ⟨-, -, hi, -, -, -, hbest⟩ := h
  obtain ⟨-, hpos', hi', hw', -, hlen', -⟩ := h'
  obtain ⟨hle, hlt⟩ := hbest (i - o') (by omega) (by omega)
  refine ⟨by omega, fun heq => Nat.le_of_not_lt fun ho => ?_⟩
  have hshorter := hlt (by omega)
  omega

theorem GreedyAt.unique (h : j.GreedyAt i t) (h' : j.GreedyAt i t') : t = t' := by
  cases t with
  | lit b =>
    cases t' with
    | lit b' => rw [h.2.1, h'.2.1]
    | backRef => exact absurd h h'.not_lit_of_backRef
  | backRef o l =>
    cases t' with
    | lit => exact absurd h' h.not_lit_of_backRef
    | backRef o' l' =>
      obtain ⟨hle, ho⟩ := h.length_le_and_offset_le h'
      obtain ⟨hle', ho'⟩ := h'.length_le_and_offset_le h
      obtain rfl : l = l' := le_antisymm hle' hle
      obtain rfl : o = o' := le_antisymm (ho' rfl) (ho rfl)
      rfl

theorem GreedyParse.unique (h : j.GreedyParse i toks) (h' : j.GreedyParse i toks') : toks = toks' := by
  induction toks generalizing i toks' with
  | nil =>
    cases toks' with
    | nil => rfl
    | cons t' toks' => exact absurd h h'.1.lt_n.ne
  | cons t toks ih =>
    cases toks' with
    | nil => exact absurd h' h.1.lt_n.ne
    | cons t' toks' =>
      obtain rfl := h.1.unique h'.1
      rw [ih h.2 h'.2]

/-! ## What the parse says of its tokens (R163, R164) -/

theorem GreedyParse.exists_greedyAt (h : j.GreedyParse i toks) (ht : t ∈ toks) : ∃ k, j.GreedyAt k t := by
  induction toks generalizing i with
  | nil => simp at ht
  | cons t' toks ih =>
    rcases List.mem_cons.1 ht with rfl | ht
    · exact ⟨i, h.1⟩
    · exact ih h.2 ht

theorem GreedyParse.add_sum_tokenSpan (h : j.GreedyParse i toks) : i + (toks.map tokenSpan).sum = j.n := by
  induction toks generalizing i with
  | nil => exact h
  | cons t toks ih => rw [List.map_cons, List.sum_cons, ← Nat.add_assoc, ih h.2]

theorem GreedyAt.wf (h : j.GreedyAt i t) : t.wf j.window j.look = true := by
  cases t with
  | lit b => rfl
  | backRef offset length =>
    obtain ⟨-, hpos, -, hw, hmin, hlen, -⟩ := h
    have hlook := hlen ▸ j.mlen_le_look (i - offset) i
    simp [Token.wf, hpos, hw, hmin, hlook]

theorem GreedyAt.tokenSpan_pos (h : j.GreedyAt i t) : 1 ≤ tokenSpan t := by
  cases t with
  | lit b => exact le_rfl
  | backRef offset length =>
    obtain ⟨-, -, -, -, hmin, -⟩ := h
    exact le_trans (by decide) hmin

theorem GreedyAt.length_le_offset {offset length : Nat} (h : j.GreedyAt i (.backRef offset length)) :
    length ≤ offset := by
  obtain ⟨-, -, hi, -, -, hlen, -⟩ := h
  obtain ⟨-, -, hle, -⟩ := le_mlen_iff.1 hlen.le
  omega

/-! ## One round emits the token of the parse (R162) -/

/-- No position inside the window has a longer match of three bytes or more than the search found, and none before the one
found has one as long. -/
theorem Tracks.mlen_le_search (h : j.Tracks r) (hq : q < r.i) (hw : r.i - q ≤ j.window)
    (hlong : Config.minMatch ≤ j.mlen q r.i) : j.mlen q r.i ≤ (j.search r.dict r.i).1 ∧
      (q < (j.search r.dict r.i).2 → j.mlen q r.i < (j.search r.dict r.i).1) := by
  obtain ⟨-, lo, hlo, -, hrec⟩ := h
  obtain ⟨hkey, -, hn⟩ := keyAt_eq_of_minMatch_le hlong
  have hmem : q ∈ j.positions lo r.i (j.keyAt r.i) := mem_positions.2 ⟨hq, by omega, by omega, hkey⟩
  rw [search, hrec.get_eq]
  exact ⟨(j.le_foldl_better r.i _ (0, 0)).2 q hmem hw, mlen_lt_bestOf pairwise_positions hmem hw⟩

/-- A round emits one token, which is the greedy one at its position, and advances by what the token stands for. -/
theorem Tracks.round_emits (h : j.Tracks r) (hn : 3 ≤ j.n - r.i) : ∃ t, j.GreedyAt r.i t ∧
    (j.round r).i = r.i + tokenSpan t ∧ (j.round r).toks = r.toks ++ [t] := by
  rcases j.round_cases r with ⟨p, -, hw, hlong, hsearch, hi, htoks⟩ | ⟨hshort, hi, htoks⟩
  · obtain ⟨-, hsource, -⟩ := keyAt_eq_of_minMatch_le hlong
    have hp : r.i - (r.i - p) = p := by omega
    refine ⟨.backRef (r.i - p) (j.mlen p r.i), ⟨by omega, by omega, by omega, hw, hlong, by rw [hp], ?_⟩, hi, htoks⟩
    intro q hq hqw
    rw [hp]
    by_cases hqlong : Config.minMatch ≤ j.mlen q r.i
    · simpa only [hsearch] using h.mlen_le_search hq hqw hqlong
    · omega
  · refine ⟨.lit (j.byteAt r.i), ⟨by omega, rfl, fun _ q hq hqw => Nat.lt_of_not_le fun hqlong => ?_⟩, hi, htoks⟩
    have := (h.mlen_le_search hq hqw hqlong).1
    omega

/-! ## The whole loop (R152, R153) -/

/-- The tokens emitted so far begin the parse: with any parse of the rest they are the parse of the whole input. -/
def Parsed (j : LzJob) (r : LzRun) : Prop :=
  j.Tracks r ∧ r.i ≤ j.n ∧ ∀ rest, j.GreedyParse r.i rest → j.GreedyParse 0 (r.toks ++ rest)

theorem Parsed.round (h : j.Parsed r) (hn : 3 ≤ j.n - r.i) : j.Parsed (j.round r) := by
  obtain ⟨htracks, -, hparse⟩ := h
  obtain ⟨t, ht, hi, htoks⟩ := htracks.round_emits hn
  refine ⟨htracks.round, (j.round_i r hn).2.1, fun rest hrest => ?_⟩
  rw [htoks, List.append_assoc]
  rw [hi] at hrest
  exact hparse (t :: rest) ⟨ht, hrest⟩

theorem parsed_rounds (k : Nat) : j.Parsed (j.rounds k LzRun.start) :=
  j.rounds_induction j.Parsed k _ ⟨tracks_start, Nat.zero_le _, fun _ hrest => hrest⟩ fun _ hn h => h.round hn

/-- Fewer than three bytes left are parsed as literals (R153). -/
theorem greedyParse_literals {m : Nat} (hm : m < 3) (hn : i + m = j.n) :
    j.GreedyParse i ((List.range' i m).map fun k => .lit (j.byteAt k)) := by
  induction m generalizing i with
  | zero => exact hn
  | succ m ih => exact ⟨⟨by omega, rfl, by omega⟩, ih (by omega) (by simp only [tokenSpan]; omega)⟩

/-- The tokens of a job are the greedy parse of its input, to the end (R162). -/
theorem greedyParse_tokens (j : LzJob) : j.GreedyParse 0 j.tokens := by
  obtain ⟨-, hi, hparse⟩ := j.parsed_rounds j.n
  have hdone := j.rounds_done j.n LzRun.start (by omega)
  exact hparse _ (greedyParse_literals hdone (by omega))

theorem SameInput.tokens_eq (h : j.SameInput j') : j'.tokens = j.tokens :=
  j'.greedyParse_tokens.unique (h.greedyParse j.greedyParse_tokens)

end

end LzJob

/-- Settles O47: the tokens of either job are the greedy parse, which is unique and does not depend on the period. -/
theorem compactionChangesNoToken : Obligations.CompactionChangesNoToken := by
  unfold Obligations.CompactionChangesNoToken
  exact fun j prune => LzJob.SameInput.tokens_eq ⟨rfl, rfl, rfl, fun _ _ => rfl⟩

end Sys2Proof.Machine
end

section
/-! The word of a token holds the token (30_encoding.md R97). -/

namespace Sys2Proof

theorem Token.wf_mono {w l w' l' : Nat} {t : Token} (hw : w ≤ w') (hl : l ≤ l') (h : t.wf w l = true) :
    t.wf w' l' = true := by
  cases t with
  | lit b => rfl
  | backRef offset length =>
    simp only [Token.wf, Bool.and_eq_true, decide_eq_true_eq] at h ⊢
    omega

theorem decodeToken_encodeToken_lit (b : Byte) : decodeToken (encodeToken (.lit b)) = .lit b := by
  have hkind : (encodeToken (.lit b)).getLsbD 31 = false := by simp [encodeToken]
  have hbyte : (encodeToken (.lit b)).extractLsb' 0 8 = b := by
    rw [encodeToken, ← BitVec.setWidth_eq_extractLsb' (by decide), BitVec.setWidth_setWidth_of_le _ (by decide),
      BitVec.setWidth_eq]
  rw [decodeToken, hkind, hbyte]
  rfl

theorem decodeToken_encodeToken_backRef {offset length : Nat} (ho : offset < 2 ^ 16) (hl : length < 2 ^ 9) :
    decodeToken (encodeToken (.backRef offset length)) = .backRef offset length := by
  have hword : (encodeToken (.backRef offset length)).toNat = 2 ^ 31 + length * 2 ^ 16 + offset := by
    rw [encodeToken, BitVec.toNat_ofNat]
    omega
  have hkind : (encodeToken (.backRef offset length)).getLsbD 31 = true := by
    rw [BitVec.getLsbD, hword, Nat.testBit_eq_decide_div_mod_eq, decide_eq_true_eq]
    omega
  rw [decodeToken, if_pos hkind, BitVec.extractLsb'_toNat, BitVec.extractLsb'_toNat, hword, Nat.shiftRight_eq_div_pow,
    Nat.shiftRight_eq_div_pow]
  congr 1 <;> omega

/-- Every token within the ranges of the word's fields is read back from its word. -/
theorem decodeToken_encodeToken {t : Token} (h : t.wf 65535 511 = true) : decodeToken (encodeToken t) = t := by
  cases t with
  | lit b => exact decodeToken_encodeToken_lit b
  | backRef offset length =>
    simp only [Token.wf, Bool.and_eq_true, decide_eq_true_eq] at h
    exact decodeToken_encodeToken_backRef (by omega) (by omega)

end Sys2Proof
end

section
/-! What LCLR and LCMP leave in the state (41_lz77_commands.md R151, R152, R162 to R164). -/

namespace Sys2Proof.Machine

/-! ## LCLR (R151) -/

/-- Settles O26: LCLR has no check, and its effect is the two writes of R151. -/
theorem lclrClearsTheTokenCount : Obligations.LclrClearsTheTokenCount := by
  unfold Obligations.LclrClearsTheTokenCount
  exact ⟨decode_encode .lclr, exec_lclr⟩

/-! ## LCMP (R152) -/

section
variable {b : Block} {s t : State}

/-- The tokens of the block are the greedy parse of IN: the job of LCMP has the same bytes below IN_LEN (R92, R162). -/
theorem Block.greedyParse_lzTokens (b : Block) : LzJob.GreedyParse
    { byteAt := b.inputAt, n := b.inLen.toNat, window := b.lWin.toNat, look := b.lLook.toNat
      prune := Config.pruneInterval } 0 b.lzTokens := by
  refine LzJob.SameInput.greedyParse ?_ (LzJob.greedyParse_tokens _)
  refine ⟨?_, rfl, rfl, fun k hk => ?_⟩
  · simp
  · rw [lzJobOf_byteAt]
    simpa using hk

theorem Block.wf_of_mem_lzTokens {tok : Token} (h : tok ∈ b.lzTokens) :
    tok.wf b.lWin.toNat b.lLook.toNat = true ∧ 1 ≤ tokenSpan tok := by
  obtain ⟨i, hi⟩ := b.greedyParse_lzTokens.exists_greedyAt h
  exact ⟨hi.wf, hi.tokenSpan_pos⟩

theorem Block.map_decodeToken_encodeToken_lzTokens (b : Block) :
    (b.lzTokens.map encodeToken).map decodeToken = b.lzTokens := by
  rw [List.map_map]
  refine (List.map_congr_left fun tok htok => ?_).trans (List.map_id _)
  have hw : b.lWin.toNat ≤ 65535 := by omega
  have hl : b.lLook.toNat ≤ 511 := by omega
  exact decodeToken_encodeToken (Token.wf_mono hw hl (Block.wf_of_mem_lzTokens htok).1)

@[simp] theorem Block.succeed_tokenAt (b : Block) (k : Nat) : b.succeed.tokenAt k = b.tokenAt k := rfl

@[simp] theorem Block.succeed_tokenWords (b : Block) : b.succeed.tokenWords = b.tokenWords := rfl

@[simp] theorem Block.succeed_tokens (b : Block) : b.succeed.tokens = b.tokens := rfl

theorem lcmpEffect_tokenWords (hn : b.inLen.toNat ≤ Config.nMax) :
    (lcmpEffect b).tokenWords = b.lzTokens.map encodeToken :=
  (TokensTrue_of_lcmp hn).2

theorem lcmpEffect_tokens (hn : b.inLen.toNat ≤ Config.nMax) : (lcmpEffect b).tokens = b.lzTokens := by
  rw [Block.tokens, lcmpEffect_tokenWords hn, b.map_decodeToken_encodeToken_lzTokens]

/-- The command writes no word of TOKEN from L_NTOK on (R41, R152). -/
theorem lcmpEffect_tokenAt_of_le {k : Nat} (h : b.lzTokens.length ≤ k) : (lcmpEffect b).tokenAt k = b.tokenAt k := by
  have hread : (lcmpEffect b).tokenAt k = ((b.lzTokens.map encodeToken)[k]?).getD (b.tokenAt k) :=
    Block.tokenAt_writeFirst b _ k
  rw [hread, List.getElem?_eq_none (by simpa using h), Option.getD_none]

theorem exec_lcmp_of_le (hn : s.blk.inLen.toNat ≤ Config.nMax) :
    exec .lcmp s = .next (s.onBlock fun b => (lcmpEffect b).succeed) :=
  runChecked_of_passes (lenCheck_of_le hn)

theorem eq_of_exec_lcmp (hn : s.blk.inLen.toNat ≤ Config.nMax) (h : exec .lcmp s = .next t) :
    t = s.onBlock fun b => (lcmpEffect b).succeed :=
  (Host.Outcome.next.inj ((exec_lcmp_of_le hn).symm.trans h)).symm

end

/-- Settles O44: LCMP passes its check, and the tokens it leaves are those of its job, which are the greedy parse. -/
theorem lcmpEmitsTheGreedyParse : Obligations.LcmpEmitsTheGreedyParse := by
  unfold Obligations.LcmpEmitsTheGreedyParse
  intro s hn
  refine ⟨_, exec_lcmp_of_le hn, ?parse, fun k hk => ?beyond, rfl⟩
  case parse =>
    rw [State.onBlock_blk, Block.succeed_tokens, lcmpEffect_tokens hn]
    exact s.blk.greedyParse_lzTokens
  case beyond =>
    rw [State.onBlock_blk, Block.succeed_lNtok, lcmpEffect_lNtok_toNat hn] at hk
    rw [State.onBlock_blk, Block.succeed_tokenAt]
    exact lcmpEffect_tokenAt_of_le hk

/-- Settles O45: what the greedy parse says of its tokens, and the words are read back as the tokens. -/
theorem lcmpTokensAreWellFormed : Obligations.LcmpTokensAreWellFormed := by
  unfold Obligations.LcmpTokensAreWellFormed
  intro s t hn h
  obtain rfl := eq_of_exec_lcmp hn h
  rw [State.onBlock_blk, Block.succeed_tokens, Block.succeed_tokenWords, Block.succeed_lNtok, lcmpEffect_tokens hn,
    lcmpEffect_tokenWords hn, lcmpEffect_lNtok_toNat hn]
  have hsum := s.blk.greedyParse_lzTokens.add_sum_tokenSpan
  exact ⟨rfl, fun tok => Block.wf_of_mem_lzTokens, rfl, (Nat.zero_add _).symm.trans hsum, lzTokens_length_le s.blk⟩

/-- Settles O46: a match of the greedy parse is within its distance (R156). -/
theorem lcmpMatchesNeverOverlap : Obligations.LcmpMatchesNeverOverlap := by
  unfold Obligations.LcmpMatchesNeverOverlap
  intro s t offset length hn h hmem
  obtain rfl := eq_of_exec_lcmp hn h
  rw [State.onBlock_blk, Block.succeed_tokens, lcmpEffect_tokens hn] at hmem
  obtain ⟨i, hi⟩ := s.blk.greedyParse_lzTokens.exists_greedyAt hmem
  exact hi.length_le_offset

end Sys2Proof.Machine
end

section
/-! What a command does to ESTK and EINFO (10_state.md R24, 40_huffman_commands.md R110, 60_exceptions.md R217), and the system
commands NOP and RST (42_system_commands.md R180, R181). -/

namespace Sys2Proof.Machine

/-! ## The checks of a command (R211): a check that fails raises one of the errors, never the code of success -/

/-- No failure of the check carries the code of success. -/
def NeverRaisesOk (check : Block → Option (ErrCode × Word)) : Prop :=
  ∀ b e info, check b = some (e, info) → e ≠ .ok

theorem noCheck_neverRaisesOk : NeverRaisesOk noCheck := by
  intro b e info h
  cases h

theorem lenCheck_neverRaisesOk : NeverRaisesOk lenCheck := by
  intro b e info h
  unfold lenCheck at h
  split at h <;> cases h
  decide

theorem hasnCheck_neverRaisesOk : NeverRaisesOk hasnCheck := by
  intro b e info h
  unfold hasnCheck at h
  split at h <;> cases h
  decide

theorem hpckCheck_neverRaisesOk : NeverRaisesOk hpckCheck := by
  intro b e info h
  unfold hpckCheck at h
  split at h
  case h_1 hlen => exact lenCheck_neverRaisesOk b e info (hlen.trans h)
  case h_2 =>
    split at h
    · obtain ⟨k, -, hk⟩ := Option.map_eq_some_iff.1 h
      cases hk
      decide
    · cases h
      decide

/-! ## The effect of a command other than RST leaves ESTK and EINFO (R110) -/

/-- The effect leaves the sticky error bit and the error information as they were. -/
def KeepsStickyAndInfo (effect : Block → Block) : Prop :=
  ∀ b, (effect b).status.estk = b.status.estk ∧ (effect b).einfo = b.einfo

/-- Everything a command can do to ESTK and EINFO: it raises an error, or its effect happens whole, and only RST's effect
writes the two. -/
theorem exec_cases (i : Instr) (s : State) :
    (∃ e info, e ≠ .ok ∧ exec i s = .next (s.onBlock (Block.raise e info))) ∨
      ∃ effect, (i ≠ .rst → KeepsStickyAndInfo effect) ∧ exec i s = .next (s.onBlock fun b => (effect b).succeed) := by
  have h : ∃ check effect, exec i s = runChecked check effect s ∧ NeverRaisesOk check ∧
      (i ≠ .rst → KeepsStickyAndInfo effect) := by
    cases i with
    | nop => exact ⟨_, _, exec_nop s, noCheck_neverRaisesOk, fun _ _ => ⟨rfl, rfl⟩⟩
    | rst => exact ⟨_, _, exec_rst s, noCheck_neverRaisesOk, fun hi => absurd rfl hi⟩
    | hclr => exact ⟨_, _, exec_hclr s, noCheck_neverRaisesOk, fun _ _ => ⟨rfl, rfl⟩⟩
    | hcnt => exact ⟨_, _, exec_hcnt s, lenCheck_neverRaisesOk, fun _ _ => ⟨rfl, rfl⟩⟩
    | hbld => exact ⟨_, _, exec_hbld s, noCheck_neverRaisesOk, fun _ _ => ⟨rfl, rfl⟩⟩
    | hasn => exact ⟨_, _, exec_hasn s, hasnCheck_neverRaisesOk, fun _ _ => ⟨rfl, rfl⟩⟩
    | hpck => exact ⟨_, _, exec_hpck s, hpckCheck_neverRaisesOk, fun _ _ => ⟨rfl, rfl⟩⟩
    | henc => exact ⟨_, _, exec_henc s, lenCheck_neverRaisesOk, fun _ _ => ⟨rfl, rfl⟩⟩
    | lclr => exact ⟨_, _, exec_lclr s, noCheck_neverRaisesOk, fun _ _ => ⟨rfl, rfl⟩⟩
    | lcmp => exact ⟨_, _, exec_lcmp s, lenCheck_neverRaisesOk, fun _ _ => ⟨rfl, rfl⟩⟩
  obtain ⟨check, effect, hexec, hcheck, hkeeps⟩ := h
  rcases runChecked_cases check effect s with ⟨e, info, hfail, hrun⟩ | ⟨-, hrun⟩
  · exact .inl ⟨e, info, hcheck s.blk e info hfail, hexec.trans hrun⟩
  · exact .inr ⟨effect, hkeeps, hexec.trans hrun⟩

/-- A command other than RST keeps a set ESTK, and EINFO too when it succeeds (R24, R110). -/
theorem exec_keeps_sticky_and_info {i : Instr} {s t : State} (hi : i ≠ .rst) (h : exec i s = .next t) :
    (s.blk.status.estk = true → t.blk.status.estk = true) ∧ (t.blk.status.err = .ok → t.blk.einfo = s.blk.einfo) := by
  rcases exec_cases i s with ⟨e, info, he, hexec⟩ | ⟨effect, hkeeps, hexec⟩ <;>
    obtain rfl := Host.Outcome.next.inj (hexec.symm.trans h)
  case inl => exact ⟨fun _ => rfl, fun herr => absurd herr he⟩
  case inr =>
    obtain ⟨hestk, heinfo⟩ := hkeeps hi s.blk
    exact ⟨hestk.trans, fun _ => heinfo⟩

/-! ## RST (R181) -/

/-- The memories are kept where their stored parts, and the number of the reset that gives the rest its values, are kept
(R74, R76). -/
theorem Block.sameMemories_of_fields {b b' : Block} (hnode : b'.node = b.node) (hinput : b'.input = b.input)
    (hcoded : b'.coded = b.coded) (htoken : b'.token = b.token) (hresets : b'.resets = b.resets) : b.SameMemories b' := by
  refine ⟨fun k => ?node, fun l => ?byte, fun k => ?token⟩
  case node => simp only [Block.nodeAt, hnode, hresets]
  case byte => cases l <;> simp only [Block.readByte, Block.inputAt, Block.codedAt, hinput, hcoded, hresets]
  case token => simp only [Block.tokenAt, htoken, hresets]

theorem Block.softReset_sameMemories (b : Block) : b.SameMemories b.softReset :=
  Block.sameMemories_of_fields rfl rfl rfl rfl rfl

/-- RST takes its registers and tables from the block right after reset (R46). -/
theorem Block.softReset_atResetValues (b : Block) : b.softReset.AtResetValues :=
  Block.reset_atResetValues

/-- ERR is 0 after RST's effect already. -/
@[simp] theorem Block.succeed_softReset (b : Block) : b.softReset.succeed = b.softReset := rfl

theorem exec_rst_eq_softReset (s : State) : exec .rst s = .next (s.onBlock Block.softReset) := by
  rw [exec_rst, runChecked_noCheck]
  simp only [Block.succeed_softReset]

/-- Settles O23: RST's effect takes the registers and tables from the reset block and the memories from the block before;
any other command ends in an error entry, which sets ESTK, or in an effect that leaves ESTK and EINFO. -/
theorem rstRestoresRegistersAndKeepsMemories : Obligations.RstRestoresRegistersAndKeepsMemories := by
  unfold Obligations.RstRestoresRegistersAndKeepsMemories
  refine ⟨decode_encode .rst, fun s => ?rst, fun i s t => exec_keeps_sticky_and_info⟩
  exact ⟨_, exec_rst_eq_softReset s, rfl, rfl, s.blk.softReset_atResetValues, s.blk.softReset_sameMemories⟩

/-! ## NOP (R180) -/

/-- Settles O24: NOP has no check and no effect, so only the end of a successful command is left. -/
theorem nopWritesOnlyErr : Obligations.NopWritesOnlyErr := by
  unfold Obligations.NopWritesOnlyErr
  exact ⟨decode_encode .nop, fun s => (exec_nop s).trans (runChecked_noCheck id s)⟩

end Sys2Proof.Machine
end

section
/-! The walk of `hdec` step by step, and the round trip of the Huffman coder (43_reference_inverse.md R191, R195). -/

namespace Sys2Proof.Machine

section
variable {nodes : List NodeEntry} {root x : NodeIx} {bit : Bool} {rest : Bits} {need : Nat} {e c : NodeEntry}

/-! ## One step of the walk (R191) -/

@[simp] theorem hdecWalk_zero (bits : Bits) : hdecWalk nodes root bits x 0 = some [] := by
  unfold hdecWalk
  rfl

@[simp] theorem hdecWalk_nil_succ : hdecWalk nodes root [] x (need + 1) = none := rfl

/-- A branch to a missing child is an error. -/
theorem hdecWalk_of_noNode (he : nodes[x.toNat]? = some e) (hchild : e.child bit = noNode) :
    hdecWalk nodes root (bit :: rest) x (need + 1) = none := by
  rw [NodeEntry.child] at hchild
  simp [hdecWalk, he, hchild]

/-- A branch to a leaf emits its symbol, and the walk restarts at the root. -/
theorem hdecWalk_of_leaf (he : nodes[x.toNat]? = some e) (hchild : e.child bit ≠ noNode)
    (hc : nodes[(e.child bit).toNat]? = some c) (hleaf : c.leaf = true) :
    hdecWalk nodes root (bit :: rest) x (need + 1) = (hdecWalk nodes root rest root need).map (c.sym :: ·) := by
  rw [NodeEntry.child] at hchild hc
  simp only [hdecWalk, he, if_neg hchild, hc, hleaf, if_true]

/-- A branch to an internal node goes on from there. -/
theorem hdecWalk_of_inner (he : nodes[x.toNat]? = some e) (hchild : e.child bit ≠ noNode)
    (hc : nodes[(e.child bit).toNat]? = some c) (hleaf : c.leaf = false) :
    hdecWalk nodes root (bit :: rest) x (need + 1) = hdecWalk nodes root rest (e.child bit) (need + 1) := by
  rw [NodeEntry.child] at hchild hc ⊢
  simp only [hdecWalk, he, if_neg hchild, hc, hleaf, Bool.false_eq_true, if_false]

end

/-! ## The walk along the codes of a tree -/

section
variable {node : Nat → NodeEntry} {k : Nat} {root x : NodeIx} {nodes : List NodeEntry} {c : Bits} {y : Byte}

/-- The path to a leaf, followed by anything, emits the symbol of the leaf. -/
theorem CodeTree.hdecWalk_append (h : CodeTree node k root) (hnodes : ∀ q ≤ root.toNat, nodes[q]? = some (node q))
    (hx : x.toNat ≤ root.toNat) (hc : LeafAt node x c y) (hne : c ≠ []) (rest : Bits) (need : Nat) :
    hdecWalk nodes root (c ++ rest) x (need + 1) = (hdecWalk nodes root rest root need).map (y :: ·) := by
  induction c generalizing x with
  | nil => exact absurd rfl hne
  | cons bit c ih =>
    obtain ⟨hinner, hchild, hc⟩ := leafAt_cons_iff.1 hc
    have hlt := h.child_lt x.toNat bit (h.le_of_inner hx hinner) hx hchild
    have hchildNode := hnodes ((node x.toNat).child bit).toNat (by omega)
    cases c with
    | nil =>
      obtain ⟨hleaf, rfl⟩ := leafAt_nil_iff.1 hc
      exact hdecWalk_of_leaf (hnodes _ hx) hchild hchildNode hleaf
    | cons bit' c =>
      obtain ⟨hinner', -⟩ := leafAt_cons_iff.1 hc
      rw [List.cons_append, hdecWalk_of_inner (hnodes _ hx) hchild hchildNode hinner']
      exact ih (by omega) hc (List.cons_ne_nil _ _)

/-- The concatenated paths to the leaves of some symbols decode to those symbols. -/
theorem CodeTree.hdecWalk_bitStream (h : CodeTree node k root)
    (hnodes : ∀ q ≤ root.toNat, nodes[q]? = some (node q)) {code : Byte → Bits} {bytes : List Byte}
    (hcode : ∀ y ∈ bytes, LeafAt node root (code y) y) :
    hdecWalk nodes root (bitStream code bytes) root bytes.length = some bytes := by
  induction bytes with
  | nil => exact hdecWalk_zero _
  | cons y ys ih =>
    rw [List.forall_mem_cons] at hcode
    obtain ⟨hy, hys⟩ := hcode
    have hne : code y ≠ [] := fun hnil => h.not_leafAt_nil y (hnil ▸ hy)
    have hstream : bitStream code (y :: ys) = code y ++ bitStream code ys := List.flatMap_cons
    rw [hstream, List.length_cons, h.hdecWalk_append hnodes le_rfl hy hne, ih hys]
    rfl

end

/-! ## What is packed -/

/-- The bits of the packed bytes, without the padding, are the stream (R125, R126). -/
theorem take_bitsMsb_packedBytes (stream : Bits) :
    (bitsMsb (packedBytes stream)).take ((bitsMsb (packedBytes stream)).length - padCount stream.length) = stream := by
  have hbits : bitsMsb (packedBytes stream) = stream ++ List.replicate (padCount stream.length) false :=
    bitsMsb_bytesMsb _ (by simpa using padCount_add_mod stream.length)
  simp [hbits]

theorem padCount_le_length_bitsMsb (stream : Bits) :
    padCount stream.length ≤ (bitsMsb (packedBytes stream)).length := by
  have hmod := padCount_add_mod stream.length
  rw [bitsMsb_length, packedBytes_length]
  omega

/-! ## The round trip (R195) -/

/-- The root is the last node of every tree that has one (R118, R120). -/
theorem buildTree_length_of_root {freq : Vector Word 256} (h : (buildTree freq).root ≠ noNode) :
    (buildTree freq).nodes.length = (buildTree freq).root.toNat + 1 := by
  rcases hl : leavesOf freq with _ | ⟨l, _ | ⟨l', ls⟩⟩
  case nil => exact absurd (by rw [buildTree_of_no_leaf hl]) h
  case cons.nil =>
    rw [buildTree_of_one_leaf hl]
    rfl
  case cons.cons =>
    have htwo : 2 ≤ (codedSymbols freq).length := by simp [← leavesOf_length, hl]
    rw [buildTree_length_of_two htwo, buildTree_root_toNat htwo]
    omega

section
variable {b : Block}

/-- Every node of a valid tree, up to its root, stands in NODE (R114). -/
theorem Block.TreeTrue.getElem?_nodes (h : b.TreeTrue) (hroot : b.hRoot ≠ noNode) :
    ∀ q ≤ b.hRoot.toNat, (buildTree b.freq).nodes[q]? = some (b.nodeAt q) := by
  intro q hq
  obtain ⟨hroot', -, -, hnode⟩ := h
  rw [hroot'] at hroot hq
  have hlt : q < (buildTree b.freq).nodes.length := by rw [buildTree_length_of_root hroot]; omega
  have hget := List.getElem?_eq_getElem hlt
  rw [hnode q _ hget, hget]

/-- A symbol that has a code has it as the path to its leaf (R121). -/
theorem Block.TreeTrue.leafAt_codeOf (h : b.TreeTrue) (hroot : b.hRoot ≠ noNode) (hcodes : b.CodesTrue) {y : Byte}
    (hy : b.codeOf y ≠ []) : LeafAt b.nodeAt b.hRoot (b.codeOf y) y := by
  refine ((h.codeTree hroot).assignCodes_iff hroot).1 ⟨?_, hy⟩
  rw [Block.codeOf, ← hcodes]

/-- Without a root no symbol has a code (R121). -/
theorem Block.CodesTrue.codeOf_of_noNode (hcodes : b.CodesTrue) (hroot : b.hRoot = noNode) (y : Byte) :
    b.codeOf y = [] := by
  rw [Block.codeOf, hcodes, assignCodes, if_pos hroot, tableGet_replicate]

/-- The input, packed with the codes of the tree that `hdec` builds again, is decoded to itself. -/
theorem Block.hdec_codedBytes (htree : b.TreeTrue) (hcodes : b.CodesTrue) (hpack : b.PackTrue) :
    hdec b.codedBytes b.metadata = some b.inputBytes := by
  obtain ⟨-, hcovered, horig, hmempty, hpad, -, hcoded⟩ := hpack
  obtain ⟨hrootEq, -⟩ := id htree
  by_cases hempty : b.inLen = 0
  · have hinput : b.inputBytes = [] := List.eq_nil_of_length_eq_zero (by simp [hempty])
    simp [Block.metadata, hmempty, hempty, hinput, hdec]
  · have hne : b.inputBytes ≠ [] := by
      rw [← List.length_pos_iff, inputBytes_length]
      exact Nat.pos_of_ne_zero fun h0 => hempty (BitVec.eq_of_toNat_eq h0)
    obtain ⟨y, hy⟩ := List.exists_mem_of_ne_nil _ hne
    have hroot : b.hRoot ≠ noNode := fun h => hcovered y hy (hcodes.codeOf_of_noNode h y)
    have hwalk : hdecWalk (buildTree b.freq).nodes b.hRoot b.stream b.hRoot b.inLen.toNat = some b.inputBytes := by
      rw [← inputBytes_length]
      exact (htree.codeTree hroot).hdecWalk_bitStream (htree.getElem?_nodes hroot) fun y hy =>
        htree.leafAt_codeOf hroot hcodes (hcovered y hy)
    have hmeta : b.metadata = .triple b.freq b.hPad b.inLen := by
      rw [Block.metadata, hmempty, beq_eq_false_iff_ne.2 hempty, horig]
      rfl
    have hfits := Nat.not_lt.2 (padCount_le_length_bitsMsb b.stream)
    simp only [hmeta, hdec, hcoded, hpad, ← hrootEq, if_neg hfits, hroot, false_and, if_false,
      take_bitsMsb_packedBytes, hwalk]

end

/-- Settles O41: the valid flags say that the tree `hdec` builds is the one in NODE, that the codes are its paths, and that
the coded bytes are the codes of the input. -/
theorem huffmanRoundTrip : Obligations.HuffmanRoundTrip := by
  unfold Obligations.HuffmanRoundTrip
  rintro b ⟨htree, hcodes, hpack, -⟩ hpval
  obtain ⟨hcval, hpack⟩ := hpack hpval
  obtain ⟨htval, hcodes⟩ := hcodes hcval
  exact Block.hdec_codedBytes (htree htval) hcodes hpack

end Sys2Proof.Machine
end

section
/-! The exits of `hdec` and the length of what it decodes (43_reference_inverse.md R191). -/

namespace Sys2Proof.Machine

/-! ## What a walk that succeeds has read -/

section
variable {nodes : List NodeEntry} {root x : NodeIx} {bits : Bits} {need : Nat} {out : List Byte}

/-- Everything one step of a walk that succeeds can do: it emits a symbol and restarts at the root, or it goes on from a
child. -/
theorem hdecWalk_cons_cases {bit : Bool} (h : hdecWalk nodes root (bit :: bits) x (need + 1) = some out) :
    (∃ sym rest, hdecWalk nodes root bits root need = some rest ∧ sym :: rest = out) ∨
      ∃ child, hdecWalk nodes root bits child (need + 1) = some out := by
  cases he : nodes[x.toNat]? with
  | none => simp [hdecWalk, he] at h
  | some e =>
    by_cases hchild : e.child bit = noNode
    · rw [hdecWalk_of_noNode he hchild] at h
      cases h
    · cases hc : nodes[(e.child bit).toNat]? with
      | none =>
        rw [NodeEntry.child] at hchild hc
        simp only [hdecWalk, he, if_neg hchild, hc] at h
        cases h
      | some c =>
        cases hleaf : c.leaf with
        | true =>
          rw [hdecWalk_of_leaf he hchild hc hleaf] at h
          obtain ⟨rest, hrest, hout⟩ := Option.map_eq_some_iff.1 h
          exact .inl ⟨c.sym, rest, hrest, hout⟩
        | false => exact .inr ⟨e.child bit, (hdecWalk_of_inner he hchild hc hleaf).symm.trans h⟩

/-- A walk that succeeds emits the symbols it was asked for, and reads at least one bit for each. -/
theorem hdecWalk_length (h : hdecWalk nodes root bits x need = some out) : out.length = need ∧ need ≤ bits.length := by
  induction bits generalizing x need out with
  | nil =>
    cases need with
    | zero =>
      obtain rfl := Option.some.inj ((hdecWalk_zero []).symm.trans h)
      exact ⟨rfl, le_rfl⟩
    | succ need => cases h
  | cons bit bits ih =>
    cases need with
    | zero =>
      obtain rfl := Option.some.inj ((hdecWalk_zero _).symm.trans h)
      exact ⟨rfl, Nat.zero_le _⟩
    | succ need =>
      rw [List.length_cons]
      rcases hdecWalk_cons_cases h with ⟨sym, rest, hrest, rfl⟩ | ⟨child, hchild⟩
      · obtain ⟨hlen, hle⟩ := ih hrest
        exact ⟨congrArg Nat.succ hlen, Nat.succ_le_succ hle⟩
      · obtain ⟨hlen, hle⟩ := ih hchild
        exact ⟨hlen, Nat.le_succ_of_le hle⟩

/-- Where the root has a leaf to the left and no child to the right, a bit 1 that the walk comes to is an error. -/
theorem hdecWalk_of_one_leaf {e c : NodeEntry} (he : nodes[root.toNat]? = some e) (hright : e.right = noNode)
    (hleft : e.left ≠ noNode) (hc : nodes[e.left.toNat]? = some c) (hleaf : c.leaf = true) {t : Nat} (ht : t < need)
    (hbit : bits.getD t false = true) : hdecWalk nodes root bits root need = none := by
  induction bits generalizing t need with
  | nil => simp at hbit
  | cons bit bits ih =>
    obtain ⟨need, rfl⟩ := Nat.exists_eq_succ_of_ne_zero (Nat.ne_zero_of_lt ht)
    cases bit with
    | true => exact hdecWalk_of_noNode he hright
    | false =>
      cases t with
      | zero => simp at hbit
      | succ t =>
        rw [hdecWalk_of_leaf (bit := false) he hleft hc hleaf, ih (Nat.lt_of_succ_lt_succ ht) (by simpa using hbit)]
        rfl

end

/-! ## The exits before the walk -/

theorem leavesOf_eq_nil_iff {freq : Vector Word 256} : leavesOf freq = [] ↔ ∀ x, tableGet freq x = 0 := by
  rw [leavesOf_eq_map, List.map_eq_nil_iff, List.eq_nil_iff_forall_not_mem]
  simp only [mem_codedSymbols, not_not]

/-- There is no root exactly where no symbol is counted (R118 to R120). -/
theorem buildTree_root_eq_noNode_iff {freq : Vector Word 256} :
    (buildTree freq).root = noNode ↔ ∀ x, tableGet freq x = 0 := by
  rw [← leavesOf_eq_nil_iff]
  rcases hl : leavesOf freq with _ | ⟨l, _ | ⟨l', ls⟩⟩
  case nil => exact iff_of_true (by rw [buildTree_of_no_leaf hl]) rfl
  case cons.nil =>
    rw [buildTree_of_one_leaf hl]
    exact iff_of_false (by decide : (1 : NodeIx) ≠ noNode) (List.cons_ne_nil l [])
  case cons.cons =>
    refine iff_of_false (fun hroot => ?_) (List.cons_ne_nil l _)
    have hroot' := buildTree_root_toNat (freq := freq) (by simp [← leavesOf_length, hl])
    have hle := codedSymbols_length_le freq
    have hnoNode : noNode.toNat = 511 := rfl
    rw [hroot] at hroot'
    omega

section
variable {ys : List Byte} {freq : Vector Word 256} {padding : BitVec 3} {n : Word} {out : List Byte}

theorem hdec_of_short (h : 8 * ys.length < padding.toNat) : hdec ys (.triple freq padding n) = none := by
  rw [← bitsMsb_length] at h
  rw [hdec, if_pos h]

theorem hdec_of_noNode (hroot : (buildTree freq).root = noNode) (hn : n ≠ 0) :
    hdec ys (.triple freq padding n) = none := by
  by_cases hpad : 8 * ys.length < padding.toNat
  · exact hdec_of_short hpad
  · rw [← bitsMsb_length] at hpad
    rw [hdec, if_neg hpad, if_pos ⟨hroot, hn⟩]

/-- Past the two exits the result is the walk over the bits before the padding. -/
theorem hdec_eq_hdecWalk (hpad : padding.toNat ≤ 8 * ys.length) (h : (buildTree freq).root ≠ noNode ∨ n = 0) :
    hdec ys (.triple freq padding n) =
      hdecWalk (buildTree freq).nodes (buildTree freq).root ((bitsMsb ys).take (8 * ys.length - padding.toNat))
        (buildTree freq).root n.toNat := by
  have hexit : ¬ ((buildTree freq).root = noNode ∧ n ≠ 0) := by tauto
  rw [← bitsMsb_length] at hpad ⊢
  rw [hdec, if_neg (Nat.not_lt.2 hpad), if_neg hexit]

/-- Whatever `hdec` decodes, the walk has decoded. -/
theorem hdecWalk_of_hdec (h : hdec ys (.triple freq padding n) = some out) :
    hdecWalk (buildTree freq).nodes (buildTree freq).root ((bitsMsb ys).take (8 * ys.length - padding.toNat))
      (buildTree freq).root n.toNat = some out := by
  by_cases hpad : padding.toNat ≤ 8 * ys.length
  · by_cases hwalk : (buildTree freq).root ≠ noNode ∨ n = 0
    · rwa [← hdec_eq_hdecWalk hpad hwalk]
    · obtain ⟨hroot, hn⟩ := not_or.1 hwalk
      rw [hdec_of_noNode (not_not.1 hroot) hn] at h
      cases h
  · rw [hdec_of_short (Nat.lt_of_not_le hpad)] at h
    cases h

theorem hdec_length (h : hdec ys (.triple freq padding n) = some out) :
    out.length = n.toNat ∧ n.toNat ≤ 8 * ys.length - padding.toNat := by
  obtain ⟨hlen, hle⟩ := hdecWalk_length (hdecWalk_of_hdec h)
  exact ⟨hlen, hle.trans (List.length_take_le _ _)⟩

/-- A bit 1 before the last symbol of a one-symbol table is an error (R118). -/
theorem hdec_of_one_symbol (h1 : (codedSymbols freq).length = 1) {t : Nat} (ht : t < n.toNat)
    (htake : t < 8 * ys.length - padding.toNat) (hbit : (bitsMsb ys).getD t false = true) :
    hdec ys (.triple freq padding n) = none := by
  obtain ⟨l, hl⟩ := List.length_eq_one_iff.1 ((leavesOf_length freq).trans h1)
  have hleaf : l.leaf = true := by
    have hmem : l ∈ leavesOf freq := by simp [hl]
    rw [leavesOf_eq_map] at hmem
    obtain ⟨x, -, rfl⟩ := List.mem_map.1 hmem
    rfl
  have htaken : ((bitsMsb ys).take (8 * ys.length - padding.toNat)).getD t false = true := by
    rwa [List.getD_eq_getElem?_getD, List.getElem?_take_of_lt htake, ← List.getD_eq_getElem?_getD]
  refine Option.eq_none_iff_forall_ne_some.2 fun out hout => ?_
  have hwalk := hdecWalk_of_hdec hout
  rw [buildTree_of_one_leaf hl, hdecWalk_of_one_leaf (e := innerNode l.freq 0 noNode) rfl rfl
    (by decide : (0 : NodeIx) ≠ noNode) rfl hleaf ht htaken] at hwalk
  cases hwalk

end

/-- Settles O42: the exits are those of the definition, and the walk's own exits show in what a walk that succeeds has
read and emitted. -/
theorem hdecExitsAndLength : Obligations.HdecExitsAndLength := by
  unfold Obligations.HdecExitsAndLength
  refine ⟨fun ys freq padding n => ⟨rfl, hdec_of_short, fun hpad hn => ?nothing, fun hfreq => ?noTree,
    fun hpad hfreq => ?walk, fun hshort => ?bitsRunOut, fun t h1 => hdec_of_one_symbol h1, fun out h => (hdec_length h).1⟩,
    fun nodes root x child bit rest bits need e c => ⟨hdecWalk_zero bits, hdecWalk_nil_succ, fun he hchild => ?step⟩⟩
  case nothing =>
    rw [hdec_eq_hdecWalk hpad (.inr hn), hn]
    exact hdecWalk_zero _
  case noTree => exact hdec_of_noNode (buildTree_root_eq_noNode_iff.2 hfreq)
  case walk =>
    refine hdec_eq_hdecWalk hpad (.inl fun hroot => ?_)
    obtain ⟨x, hx⟩ := hfreq
    exact hx (buildTree_root_eq_noNode_iff.1 hroot x)
  case bitsRunOut =>
    refine Option.eq_none_iff_forall_ne_some.2 fun out hout => ?_
    obtain ⟨-, hle⟩ := hdec_length hout
    omega
  case step =>
    obtain rfl : e.child bit = child := hchild
    exact ⟨hdecWalk_of_noNode he, fun hne hc => ⟨hdecWalk_of_leaf he hne hc, hdecWalk_of_inner he hne hc⟩⟩

end Sys2Proof.Machine
end

section
/-! HENC on an input of one byte value and on the empty input (40_huffman_commands.md R130, R131, 43_reference_inverse.md
R197). -/

namespace Sys2Proof.Machine

/-! ## What HENC leaves (R130) -/

section
variable {b : Block}

@[simp] theorem hencEffect_inputBytes : (hencEffect b).inputBytes = b.inputBytes := rfl

@[simp] theorem hencEffect_freq : (hencEffect b).freq = countFreq b.inputBytes := rfl

theorem hencEffect_treeTrue (b : Block) : (hencEffect b).TreeTrue :=
  TreeTrue_of_hbld (hcntEffect (hclrEffect b))

theorem hencEffect_codesTrue (b : Block) : (hencEffect b).CodesTrue :=
  CodesTrue_of_hasn (hbldEffect (hcntEffect (hclrEffect b)))

/-- Where every input byte has a code, the pack is valid. -/
theorem hencEffect_packTrue (hn : b.inLen.toNat ≤ Config.nMax)
    (hcovered : ∀ x ∈ b.inputBytes, (hencEffect b).codeOf x ≠ []) : (hencEffect b).PackTrue :=
  PackTrue_of_hpck hn (CodesBounded_of_CodesTrue (hencEffect_codesTrue b)) hcovered

/-- HENC writes no byte of CODED beyond the packed stream (R126). -/
theorem hencEffect_codedAt_of_le {k : Nat} (h : (packedBytes (hencEffect b).stream).length ≤ k) :
    (hencEffect b).codedAt k = b.codedAt k :=
  hpckEffect_codedAt_of_le h

@[simp] theorem Block.succeed_metadata (b : Block) : b.succeed.metadata = b.metadata := rfl

theorem exec_henc_of_le {s : State} (hn : s.blk.inLen.toNat ≤ Config.nMax) :
    exec .henc s = .next (s.onBlock fun b => (hencEffect b).succeed) :=
  runChecked_of_passes (lenCheck_of_le hn)

/-! ## One byte value (R118, R128, R197) -/

/-- The symbols counted are the bytes of the input (R112, R115). -/
theorem mem_codedSymbols_countFreq {bytes : List Byte} (hlen : bytes.length < 2 ^ 32) (x : Byte) :
    x ∈ codedSymbols (countFreq bytes) ↔ x ∈ bytes := by
  rw [mem_codedSymbols, ← List.count_pos_iff, ← toNat_countFreq hlen, Nat.pos_iff_ne_zero]
  exact not_congr BitVec.toNat_eq

theorem codedSymbols_countFreq_replicate {n : Nat} (hpos : 0 < n) (hn : n < 2 ^ 32) (x : Byte) :
    codedSymbols (countFreq (List.replicate n x)) = [x] := by
  refine List.perm_singleton.1 ((List.perm_ext_iff_of_nodup (symbols_nodup.filter _) (List.nodup_singleton x)).2 ?_)
  intro y
  have hmem := mem_codedSymbols_countFreq (bytes := List.replicate n x) (by simpa using hn) y
  rw [List.mem_replicate] at hmem
  rw [List.mem_singleton]
  exact hmem.trans (and_iff_right hpos.ne')

/-- The tree of one symbol in NODE: its leaf, and the synthetic root over it (R118). -/
theorem Block.TreeTrue.of_one_symbol {x : Byte} (h : b.TreeTrue) (hx : codedSymbols b.freq = [x]) :
    b.hNnode = 2 ∧ b.hRoot = 1 ∧ b.nodeAt 0 = leafNode x (b.freqOf x) ∧
      b.nodeAt 1 = innerNode (leafNode x (b.freqOf x)).freq 0 noNode := by
  have htree := buildTree_of_one_leaf (freq := b.freq) (l := leafNode x (b.freqOf x)) (by
    rw [leavesOf_eq_map, hx]
    rfl)
  obtain ⟨hroot, hnnode, -, hnode⟩ := h
  rw [htree] at hroot hnnode hnode
  exact ⟨BitVec.eq_of_toNat_eq hnnode, hroot, hnode 0 _ rfl, hnode 1 _ rfl⟩

/-- The only symbol has the code 0, the one branch from the synthetic root (R121, R128). -/
theorem Block.TreeTrue.codeOf_of_one_symbol {x : Byte} (h : b.TreeTrue) (hcodes : b.CodesTrue)
    (hx : codedSymbols b.freq = [x]) : b.codeOf x = [false] := by
  obtain ⟨-, hroot, hleaf, hinner⟩ := h.of_one_symbol hx
  have hne : b.hRoot ≠ noNode := by rw [hroot]; decide
  have hpath : LeafAt b.nodeAt b.hRoot [false] x := by
    rw [leafAt_cons_iff, leafAt_nil_iff, hroot]
    simp [hinner, hleaf, innerNode, leafNode]
  obtain ⟨hcode, -⟩ := ((h.codeTree hne).assignCodes_iff hne).2 hpath
  rw [Block.codeOf, hcodes, hcode]

theorem bitsMsb_replicate_zero (n : Nat) : bitsMsb (List.replicate n 0) = List.replicate (8 * n) false := by
  induction n with
  | zero => rfl
  | succ n ih =>
    rw [List.replicate_succ, bitsMsb_cons, ih, Nat.mul_succ, Nat.add_comm, List.replicate_add]
    rfl

/-- A stream of zeros packs into bytes that are all zero (R125, R126). -/
theorem packedBytes_replicate_false (n : Nat) :
    packedBytes (List.replicate n false) = List.replicate ((n + 7) / 8) 0 := by
  have hbits : n + padCount n = 8 * ((n + 7) / 8) := by unfold padCount; omega
  rw [packedBytes, List.length_replicate, List.replicate_append_replicate, hbits, ← bitsMsb_replicate_zero,
    bytesMsb_bitsMsb]

theorem bitStream_replicate {code : Byte → Bits} {x : Byte} (hx : code x = [false]) (n : Nat) :
    bitStream code (List.replicate n x) = List.replicate n false := by
  rw [bitStream, List.flatMap_replicate, hx, List.flatten_replicate_singleton]

section
variable {x : Byte} (hpos : 0 < b.inLen.toNat) (hinput : b.inputBytes = List.replicate b.inLen.toNat x)
include hpos hinput

theorem hencEffect_codedSymbols_of_one_byte : codedSymbols (hencEffect b).freq = [x] := by
  rw [hencEffect_freq, hinput, codedSymbols_countFreq_replicate hpos b.inLen.isLt]

theorem hencEffect_codeOf_of_one_byte : (hencEffect b).codeOf x = [false] :=
  (hencEffect_treeTrue b).codeOf_of_one_symbol (hencEffect_codesTrue b)
    (hencEffect_codedSymbols_of_one_byte hpos hinput)

theorem hencEffect_stream_of_one_byte : (hencEffect b).stream = List.replicate b.inLen.toNat false := by
  rw [Block.stream, hencEffect_inputBytes, hinput, bitStream_replicate (hencEffect_codeOf_of_one_byte hpos hinput)]

theorem hencEffect_packTrue_of_one_byte (hn : b.inLen.toNat ≤ Config.nMax) : (hencEffect b).PackTrue := by
  refine hencEffect_packTrue hn fun y hy => ?_
  rw [hinput] at hy
  rw [List.eq_of_mem_replicate hy, hencEffect_codeOf_of_one_byte hpos hinput]
  exact List.cons_ne_nil _ _

end

end

/-- Settles O40: the counts are those of one symbol or of none, so the tree, the codes and the stream are known, and the
decoder gives back what the valid pack holds. -/
theorem hencOfDegenerateInputs : Obligations.HencOfDegenerateInputs := by
  unfold Obligations.HencOfDegenerateInputs
  intro s hn
  have htree := hencEffect_treeTrue s.blk
  have hcodes := hencEffect_codesTrue s.blk
  refine ⟨_, exec_henc_of_le hn, fun x hpos hx => ?one, fun hempty => ?empty⟩
  case one =>
    have hinput : s.blk.inputBytes = List.replicate s.blk.inLen.toNat x :=
      List.eq_replicate_iff.2 ⟨inputBytes_length _, Block.forall_mem_inputBytes.2 hx⟩
    obtain ⟨hnnode, hroot, -⟩ := htree.of_one_symbol (hencEffect_codedSymbols_of_one_byte hpos hinput)
    have hpack := hencEffect_packTrue_of_one_byte hpos hinput hn
    obtain ⟨-, -, horig, -, hpad, -, hcoded⟩ := id hpack
    rw [hencEffect_stream_of_one_byte hpos hinput] at hpad hcoded
    rw [List.length_replicate] at hpad
    have hdecoded := Block.hdec_codedBytes htree hcodes hpack
    rw [hencEffect_inputBytes, hinput] at hdecoded
    exact ⟨hencEffect_codeOf_of_one_byte hpos hinput, hnnode, hroot, hcoded.trans (packedBytes_replicate_false _), hpad,
      horig, hdecoded⟩
  case empty =>
    have hinput : s.blk.inputBytes = [] := List.eq_nil_of_length_eq_zero (by simp [hempty])
    have hfreq : ∀ x, (hencEffect s.blk).freqOf x = 0 := fun x => by
      rw [Block.freqOf, hencEffect_freq, hinput]
      exact tableGet_replicate 0 x
    have hnil : leavesOf (hencEffect s.blk).freq = [] := leavesOf_eq_nil_iff.2 hfreq
    have hstream : (hencEffect s.blk).stream = [] := by
      rw [Block.stream, hencEffect_inputBytes, hinput]
      rfl
    obtain ⟨-, -, horig, hmempty, hpad, hclen, -⟩ := hencEffect_packTrue hn (by simp [hinput])
    obtain ⟨hroot, hnnode, hnsym, -⟩ := htree
    rw [hstream] at hpad hclen
    rw [buildTree_of_no_leaf hnil] at hroot hnnode hnsym
    refine ⟨hfreq, hcodes.codeOf_of_noNode hroot, BitVec.eq_of_toNat_eq hnsym, BitVec.eq_of_toNat_eq hnnode, hroot,
      BitVec.eq_of_toNat_eq hclen, BitVec.eq_of_toNat_eq hpad, horig.trans hempty, ?_, fun k => ?_⟩
    · exact hmempty.trans (beq_iff_eq.2 hempty)
    · exact hencEffect_codedAt_of_le (by simp [hstream, packedBytes_length, padCount])

end Sys2Proof.Machine
end

section
/-! The copy of a match byte by byte, and the round trip of the LZ coder (43_reference_inverse.md R193, R196). -/

namespace Sys2Proof.Machine

section
variable {out : List Byte} {offset length : Nat} {toks : List Token}

/-! ## One token of the decompressor (R193) -/

theorem lzdecFrom_lit (b : Byte) : lzdecFrom (.lit b :: toks) out = lzdecFrom toks (out ++ [b]) := rfl

theorem lzdecFrom_backRef_of_invalid (h : offset < 1 ∨ out.length < offset) :
    lzdecFrom (.backRef offset length :: toks) out = none := by
  rw [lzdecFrom, if_pos h]

theorem lzdecFrom_backRef_of_valid (hpos : 1 ≤ offset) (hle : offset ≤ out.length) :
    lzdecFrom (.backRef offset length :: toks) out = lzdecFrom toks (copyBack offset length out) := by
  rw [lzdecFrom, if_neg (by omega)]

/-! ## The copy (R193) -/

@[simp] theorem copyBack_zero : copyBack offset 0 out = out := rfl

theorem copyBack_succ (count : Nat) :
    copyBack offset (count + 1) out = copyBack offset count (out ++ [out.getD (out.length - offset) 0]) := rfl

@[simp] theorem copyBack_length : (copyBack offset length out).length = out.length + length := by
  induction length generalizing out with
  | zero => rfl
  | succ count ih =>
    rw [copyBack_succ, ih, List.length_append, List.length_singleton]
    omega

/-- The output so far stays where it is. -/
theorem prefix_copyBack : out <+: copyBack offset length out := by
  induction length generalizing out with
  | zero => exact List.prefix_rfl
  | succ count ih => exact (List.prefix_append _ _).trans ih

/-- Every copied byte is the one `offset` places before it in the new output, which may be a copied byte itself. -/
theorem copyBack_getElem? (hpos : 1 ≤ offset) (hle : offset ≤ out.length) {c : Nat} (hc : c < length) :
    (copyBack offset length out)[out.length + c]? = (copyBack offset length out)[out.length + c - offset]? := by
  induction length generalizing out c with
  | zero => exact absurd hc (Nat.not_lt_zero c)
  | succ count ih =>
    rw [copyBack_succ]
    cases c with
    | zero =>
      have hread : ∀ {k : Nat} {y : Byte}, (out ++ [out.getD (out.length - offset) 0])[k]? = some y →
          (copyBack offset count (out ++ [out.getD (out.length - offset) 0]))[k]? = some y :=
        getElem?_of_prefix prefix_copyBack
      have hsource : out.length - offset < out.length := by omega
      rw [Nat.add_zero, hread (y := out.getD (out.length - offset) 0) (by simp),
        hread (y := out.getD (out.length - offset) 0) (by simp [hsource])]
    | succ c =>
      have hnext := ih (out := out ++ [out.getD (out.length - offset) 0]) (by simp; omega) (c := c) (by omega)
      rw [List.length_append, List.length_singleton] at hnext
      rwa [Nat.add_comm c 1, ← Nat.add_assoc]

end

/-- Settles O50: the equations of the decompressor, and the laws of the copy. -/
theorem lzdecCopiesByteByByte : Obligations.LzdecCopiesByteByByte := by
  unfold Obligations.LzdecCopiesByteByByte
  intro out offset length b toks
  refine ⟨rfl, rfl, lzdecFrom_lit b, lzdecFrom_backRef_of_invalid, fun hpos hle => ?_⟩
  exact ⟨_, lzdecFrom_backRef_of_valid hpos hle, copyBack_length, prefix_copyBack, fun c hc =>
    copyBack_getElem? hpos hle hc⟩

/-! ## The decompressor on a greedy parse (R196) -/

section
variable {j : LzJob} {i offset length : Nat}

/-- `IN[0..i)`, what the decompressor has put out when the parse reaches position `i`. -/
def LzJob.bytesBefore (j : LzJob) (i : Nat) : List Byte := (List.range i).map j.byteAt

@[simp] theorem LzJob.bytesBefore_length : (j.bytesBefore i).length = i := by simp [LzJob.bytesBefore]

theorem LzJob.bytesBefore_succ : j.bytesBefore (i + 1) = j.bytesBefore i ++ [j.byteAt i] := by
  simp [LzJob.bytesBefore, List.range_succ]

/-- Where the input agrees with itself `offset` places before, the copy goes on with the input. -/
theorem LzJob.copyBack_bytesBefore (hpos : 1 ≤ offset) (hle : offset ≤ i)
    (hbytes : ∀ t < length, j.byteAt (i - offset + t) = j.byteAt (i + t)) :
    copyBack offset length (j.bytesBefore i) = j.bytesBefore (i + length) := by
  induction length generalizing i with
  | zero => rfl
  | succ count ih =>
    have hread : (j.bytesBefore i).getD (i - offset) 0 = j.byteAt i := by
      have hsource : i - offset < i := by omega
      simpa [LzJob.bytesBefore, hsource] using hbytes 0 (Nat.succ_pos count)
    rw [copyBack_succ, LzJob.bytesBefore_length, hread, ← LzJob.bytesBefore_succ, ih (by omega) fun t ht => ?_]
    · rw [Nat.add_assoc, Nat.add_comm 1 count]
    · have hnext := hbytes (t + 1) (by omega)
      rwa [show i + 1 - offset + t = i - offset + (t + 1) by omega, show i + 1 + t = i + (t + 1) by omega]

/-- One greedy token puts out the input bytes that it stands for. -/
theorem LzJob.GreedyAt.lzdecFrom_cons {t : Token} (h : j.GreedyAt i t) (toks : List Token) :
    lzdecFrom (t :: toks) (j.bytesBefore i) = lzdecFrom toks (j.bytesBefore (i + tokenSpan t)) := by
  cases t with
  | lit b =>
    obtain ⟨-, rfl, -⟩ := h
    rw [lzdecFrom_lit, ← LzJob.bytesBefore_succ]
    rfl
  | backRef offset length =>
    obtain ⟨-, hpos, hle, -, -, hlen, -⟩ := h
    obtain ⟨-, -, -, hbytes⟩ := LzJob.le_mlen_iff.1 hlen.le
    rw [lzdecFrom_backRef_of_valid hpos (by simpa using hle), LzJob.copyBack_bytesBefore hpos hle hbytes]
    rfl

/-- The tokens of a greedy parse decompress to the input. -/
theorem LzJob.GreedyParse.lzdecFrom_bytesBefore {toks : List Token} (h : j.GreedyParse i toks) :
    lzdecFrom toks (j.bytesBefore i) = some (j.bytesBefore j.n) := by
  induction toks generalizing i with
  | nil =>
    obtain rfl : i = j.n := h
    rfl
  | cons t toks ih =>
    obtain ⟨htok, hrest⟩ := h
    rw [htok.lzdecFrom_cons, ih hrest]

end

/-- Settles O49: a valid token stream is read back as the greedy parse of the input. -/
theorem lzRoundTrip : Obligations.LzRoundTrip := by
  unfold Obligations.LzRoundTrip
  rintro b ⟨-, -, -, htokens⟩ hlval
  obtain ⟨-, hwords⟩ := htokens hlval
  rw [Block.tokens, hwords, b.map_decodeToken_encodeToken_lzTokens]
  exact b.greedyParse_lzTokens.lzdecFrom_bytesBefore

end Sys2Proof.Machine
end

section
/-! How a command ends (60_exceptions.md R210, R217): a success with ERR = 0, or an error entry and nothing else. -/

namespace Sys2Proof.Machine

/-- Raising an error in the block is the error entry of R217. -/
theorem State.onBlock_raise (s : State) (e : ErrCode) (info : Word) : s.onBlock (Block.raise e info) = s.raised e info := rfl

/-- Settles O17: a failing check raises an error other than `ok` and does nothing else; a command that fails no check ends
with ERR = 0, and neither end touches the host's side. -/
theorem commandsSucceedOrOnlyRecordAnError : Obligations.CommandsSucceedOrOnlyRecordAnError := by
  unfold Obligations.CommandsSucceedOrOnlyRecordAnError
  intro i s
  rcases exec_cases i s with ⟨e, info, he, hexec⟩ | ⟨effect, -, hexec⟩
  case inl => exact ⟨_, hexec, rfl, rfl, .inr ⟨e, info, he, s.onBlock_raise e info⟩⟩
  case inr => exact ⟨_, hexec, rfl, rfl, .inl rfl⟩

end Sys2Proof.Machine
end

section
/-! How a command that has ended in a state got there (60_exceptions.md R210), read from the state after it. -/

namespace Sys2Proof.Machine

/-- The checks of a command (R211 to R216). -/
def checkOf : Instr → Block → Option (ErrCode × Word)
  | .nop | .rst | .hclr | .hbld | .lclr => noCheck
  | .hcnt | .henc | .lcmp => lenCheck
  | .hasn => hasnCheck
  | .hpck => hpckCheck

/-- The effect of a command, without its checks and without ERR. -/
def effectOf : Instr → Block → Block
  | .nop => id
  | .rst => Block.softReset
  | .hclr => hclrEffect
  | .hcnt => hcntEffect
  | .hbld => hbldEffect
  | .hasn => hasnEffect
  | .hpck => hpckEffect
  | .henc => hencEffect
  | .lclr => lclrEffect
  | .lcmp => lcmpEffect

theorem exec_eq_runChecked (i : Instr) (s : State) : exec i s = runChecked (checkOf i) (effectOf i) s := by
  cases i <;> rfl

section
variable {i : Instr} {s t : State}

/-- A command that ends in `t` has raised the error of its check, or has done its whole effect (R110, R217). -/
theorem exec_eq_next (h : exec i s = .next t) :
    (∃ e info, checkOf i s.blk = some (e, info) ∧ t = s.onBlock (Block.raise e info)) ∨
      (checkOf i s.blk = none ∧ t = s.onBlock fun b => (effectOf i b).succeed) := by
  rw [exec_eq_runChecked] at h
  rcases runChecked_cases (checkOf i) (effectOf i) s with ⟨e, info, hfail, hrun⟩ | ⟨hpass, hrun⟩
  · exact .inl ⟨e, info, hfail, Host.Outcome.next.inj (h.symm.trans hrun)⟩
  · exact .inr ⟨hpass, Host.Outcome.next.inj (h.symm.trans hrun)⟩

/-- A command without checks that ends in `t` has done its whole effect. -/
theorem eq_of_exec_noCheck (hc : checkOf i s.blk = none) (h : exec i s = .next t) :
    t = s.onBlock fun b => (effectOf i b).succeed := by
  rcases exec_eq_next h with ⟨e, info, hfail, -⟩ | ⟨-, ht⟩
  · exact absurd (hc.symm.trans hfail) nofun
  · exact ht

end

end Sys2Proof.Machine
end

section
/-! The result of HBLD is a tree (40_huffman_commands.md R120): every node but the root is the child of exactly one merge, the
frequencies of the merges do not decrease, and the root carries the sum of the leaves. -/

namespace Sys2Proof.Machine

/-! ## The children of the merges are all the nodes but the root -/

section
variable {node : Nat → NodeEntry} {k : Nat}

/-- Every internal node of the tree with `k` leaves is a merge (R116). -/
def AllMerged (node : Nat → NodeEntry) (k : Nat) : Prop := ∀ m, k ≤ m → m < 2 * k - 1 → MergedAt node k m

theorem MergedAt.child_lt {m : Nat} (h : MergedAt node k m) (bit : Bool) : ((node m).child bit).toNat < m :=
  (h.liveBefore_child bit).1

theorem MergedAt.freq_eq_add {m : Nat} (h : MergedAt node k m) :
    (node m).freq.toNat = (node (node m).left.toNat).freq.toNat + (node (node m).right.toNat).freq.toNat := by
  obtain ⟨-, -, -, -, -, -, hsum⟩ := h
  exact hsum

/-- The child on a given side of the `i`-th internal node, as a node other than the root. -/
def AllMerged.childAt (h : AllMerged node k) (p : Fin (k - 1) × Bool) : Fin (2 * k - 2) :=
  ⟨((node (k + p.1)).child p.2).toNat, by
    have hlt := (h (k + p.1) (by omega) (by omega)).child_lt p.2
    omega⟩

/-- `k - 1` merges with two children each have as many places as there are nodes other than the root, and no node stands
in two of them. -/
theorem AllMerged.childAt_bijective (h : AllMerged node k) : Function.Bijective h.childAt := by
  refine (Fintype.bijective_iff_injective_and_card _).2 ⟨?_, ?_⟩
  · rintro ⟨i, bit⟩ ⟨i', bit'⟩ heq
    have hchild := congrArg Fin.val heq
    obtain ⟨hi, rfl⟩ := (h (k + i) (by omega) (by omega)).parent_unique (h (k + i') (by omega) (by omega)) (by omega)
      (by omega) (BitVec.eq_of_toNat_eq hchild)
    rw [Fin.ext (Nat.add_left_cancel hi)]
  · simp only [Fintype.card_prod, Fintype.card_fin, Fintype.card_bool]
    omega

/-- Every node but the root has a parent. -/
theorem AllMerged.exists_parent (h : AllMerged node k) {q : Nat} (hq : q < 2 * k - 2) :
    ∃ m bit, k ≤ m ∧ m < 2 * k - 1 ∧ ((node m).child bit).toNat = q := by
  obtain ⟨⟨i, bit⟩, hchild⟩ := h.childAt_bijective.surjective ⟨q, hq⟩
  exact ⟨k + i, bit, by omega, by omega, congrArg Fin.val hchild⟩

theorem exists_child_toNat_eq_iff {e : NodeEntry} {q : Nat} :
    (∃ bit, (e.child bit).toNat = q) ↔ e.left.toNat = q ∨ e.right.toNat = q := Bool.exists_bool

/-- Every node but the root is the child of exactly one merge (R120). -/
theorem AllMerged.existsUnique_parent (h : AllMerged node k) {q : Nat} (hq : q < 2 * k - 2) :
    ∃! m, (k ≤ m ∧ m < 2 * k - 1) ∧ ((node m).left.toNat = q ∨ (node m).right.toNat = q) := by
  simp only [← exists_child_toNat_eq_iff]
  obtain ⟨m, bit, hkm, hm, hchild⟩ := h.exists_parent hq
  refine ⟨m, ⟨⟨hkm, hm⟩, bit, hchild⟩, ?_⟩
  rintro m' ⟨⟨hkm', hm'⟩, bit', hchild'⟩
  exact ((h m' hkm' hm').parent_unique (h m hkm hm) hkm' hkm
    (BitVec.eq_of_toNat_eq (hchild'.trans hchild.symm))).1

/-! ## The frequencies -/

/-- A node that is in Q both before and after the merge `m` has at least the frequency of either child of `m` (R116). -/
theorem MergedAt.freq_child_le {m q : Nat} (h : MergedAt node k m) (hk : k ≤ m) (hq : LiveBefore node k (m + 1) q)
    (hne : q ≠ m) : (node (node m).left.toNat).freq.toNat ≤ (node q).freq.toNat ∧
      (node (node m).right.toNat).freq.toNat ≤ (node q).freq.toNat := by
  obtain ⟨hlt, hparent⟩ := hq
  obtain ⟨hleft, hright⟩ := hparent m hk (Nat.lt_succ_self m)
  obtain ⟨-, -, -, -, hkey, hleast, -⟩ := h
  have hnext := hleast q ⟨by omega, fun m' hkm' hm' => hparent m' hkm' (Nat.lt_succ_of_lt hm')⟩ hleft.symm hright.symm
  unfold KeyBefore at hkey hnext
  omega

/-- The next merge is at least as heavy: it takes the node just made, or two nodes that were in Q with its children. -/
theorem MergedAt.freq_le_freq_succ {m : Nat} (h : MergedAt node k m) (h' : MergedAt node k (m + 1)) (hk : k ≤ m) :
    (node m).freq.toNat ≤ (node (m + 1)).freq.toNat := by
  have hleft := h.freq_child_le hk (h'.liveBefore_child false)
  have hright := h.freq_child_le hk (h'.liveBefore_child true)
  have hsum := h.freq_eq_add
  rw [NodeEntry.child_false] at hleft
  rw [NodeEntry.child_true] at hright
  rw [h'.freq_eq_add]
  by_cases hl : (node (m + 1)).left.toNat = m
  · rw [hl]
    omega
  · by_cases hr : (node (m + 1)).right.toNat = m
    · rw [hr]
      omega
    · have hleft := hleft hl
      have hright := hright hr
      omega

/-- Summed over all merges, what the children weigh is what the merges weigh, so the root weighs what the leaves weigh. -/
theorem AllMerged.root_freq (h : AllMerged node k) (hk : 2 ≤ k) :
    (node (2 * k - 2)).freq.toNat = ∑ q ∈ Finset.range k, (node q).freq.toNat := by
  have hchildren : ∑ q ∈ Finset.range (2 * k - 2), (node q).freq.toNat =
      ∑ i ∈ Finset.range (k - 1), (node (k + i)).freq.toNat := by
    rw [Finset.sum_range, Finset.sum_range, ← h.childAt_bijective.sum_comp, Fintype.sum_prod_type]
    refine Finset.sum_congr rfl fun i _ => ?_
    rw [Fintype.sum_bool, Nat.add_comm, (h (k + i) (by omega) (by omega)).freq_eq_add]
    rfl
  obtain ⟨j, rfl⟩ := Nat.exists_eq_add_of_le' hk
  have hnodes : 2 * (j + 2) - 2 = j + 2 + j := by omega
  rw [hnodes] at hchildren ⊢
  rw [Finset.sum_range_add, show j + 2 - 1 = j + 1 by omega, Finset.sum_range_succ _ j] at hchildren
  omega

end

/-! ## The weight of the leaves -/

/-- The counts of the symbols that have one add up to the counts of all. -/
theorem sum_codedSymbols (freq : Vector Word 256) :
    ((codedSymbols freq).map fun x => (tableGet freq x).toNat).sum = (symbols.map fun x => (tableGet freq x).toNat).sum := by
  unfold codedSymbols
  induction symbols with
  | nil => rfl
  | cons x xs ih =>
    by_cases hx : tableGet freq x = 0#32
    · simpa [hx] using ih
    · simpa [hx] using ih

section
variable {b : Block}

theorem Block.TreeTrue.allMerged (h : b.TreeTrue) (hk : 2 ≤ (codedSymbols b.freq).length) :
    AllMerged b.nodeAt (codedSymbols b.freq).length := by
  obtain ⟨-, -, -, hnode⟩ := h
  exact buildTree_mergedAt hk hnode

theorem Block.TreeTrue.sum_leaves (h : b.TreeTrue) :
    ∑ q ∈ Finset.range (codedSymbols b.freq).length, (b.nodeAt q).freq.toNat =
      (symbols.map fun x => (b.freqOf x).toNat).sum := by
  refine Eq.trans ?_ (sum_codedSymbols b.freq)
  rw [Finset.sum_range, ← Fin.sum_univ_fun_getElem]
  refine Finset.sum_congr rfl fun q _ => ?_
  rw [h.nodeAt_leaf q.isLt, leafNode, BitVec.toNat_setWidth_of_le (by decide)]
  rfl

end

/-- Settles O31: the nodes that HBLD leaves are merges, and the children of the merges are, each once, the nodes other than
the root. -/
theorem hbldMakesATree : Obligations.HbldMakesATree := by
  unfold Obligations.HbldMakesATree
  rintro s t k rfl hk h
  obtain rfl := eq_of_exec_noCheck rfl h
  have htree := TreeTrue_of_hbld s.blk
  have hmerged : AllMerged (hbldEffect s.blk).nodeAt (codedSymbols s.blk.freq).length := htree.allMerged hk
  refine ⟨fun m hkm hm => ?children, fun q => hmerged.existsUnique_parent, fun m hkm hm => ?monotone, ?root⟩
  case children =>
    have hm := hmerged m hkm hm
    exact ⟨hm.child_lt false, hm.child_lt true, hm.left_ne_right⟩
  case monotone => exact (hmerged m hkm (by omega)).freq_le_freq_succ (hmerged (m + 1) (by omega) hm) hkm
  case root => exact (hmerged.root_freq hk).trans htree.sum_leaves

end Sys2Proof.Machine
end

section
/-! The codes of a valid tree (40_huffman_commands.md R122): exactly the counted symbols have one, no code begins another, and
with two or more symbols every infinite bit sequence begins with one. -/

namespace Sys2Proof.Machine

/-! ## Paths to leaves (R121) -/

section
variable {node : Nat → NodeEntry} {k : Nat} {x root : NodeIx} {c d : Bits} {y z : Byte}

/-- A path ends where it meets a leaf. -/
theorem LeafAt.eq_of_prefix (hc : LeafAt node x c y) (hd : LeafAt node x d z) (h : c <+: d) : y = z := by
  induction c generalizing x d with
  | nil =>
    obtain ⟨hleaf, rfl⟩ := leafAt_nil_iff.1 hc
    cases d with
    | nil => exact (leafAt_nil_iff.1 hd).2
    | cons bit d =>
      obtain ⟨hinner, -⟩ := leafAt_cons_iff.1 hd
      exact absurd (hleaf.symm.trans hinner) (by decide)
  | cons bit c ih =>
    obtain ⟨e, rfl⟩ := h
    obtain ⟨-, -, hc⟩ := leafAt_cons_iff.1 hc
    obtain ⟨-, -, hd⟩ := leafAt_cons_iff.1 hd
    exact ih hc hd (List.prefix_append c e)

/-- Where no child is missing, walking down the branches that an infinite bit sequence names ends at a leaf. -/
theorem CodeTree.exists_leafAt (h : CodeTree node k root)
    (hchild : ∀ m bit, k ≤ m → m ≤ root.toNat → (node m).child bit ≠ noNode) (hx : x.toNat ≤ root.toNat)
    (f : Nat → Bool) : ∃ n y, LeafAt node x ((List.range n).map f) y := by
  induction hn : x.toNat using Nat.strong_induction_on generalizing x f with
  | _ n ih =>
    subst hn
    cases hleaf : (node x.toNat).leaf with
    | true => exact ⟨0, _, leafAt_nil_iff.2 ⟨hleaf, rfl⟩⟩
    | false =>
      have hkx := h.le_of_inner hx hleaf
      have hne := hchild x.toNat (f 0) hkx hx
      have hlt := h.child_lt x.toNat (f 0) hkx hx hne
      obtain ⟨n, y, hy⟩ := ih _ hlt (by omega) (fun i => f (i + 1)) rfl
      refine ⟨n + 1, y, ?_⟩
      rw [List.range_succ_eq_map, List.map_cons, List.map_map]
      exact leafAt_cons_iff.2 ⟨hleaf, hne, hy⟩

/-- Where every node but the root has a parent, a path leads from the root to every node. -/
theorem CodeTree.exists_path (h : CodeTree node k root)
    (hparent : ∀ q < root.toNat, ∃ m bit, k ≤ m ∧ m ≤ root.toNat ∧ (node m).child bit ≠ noNode ∧
      ((node m).child bit).toNat = q) (hx : x.toNat ≤ root.toNat) : ∃ c, followPath node root c = some x := by
  induction hn : root.toNat - x.toNat using Nat.strong_induction_on generalizing x with
  | _ n ih =>
    subst hn
    rcases Nat.lt_or_eq_of_le hx with hlt | heq
    · obtain ⟨m, bit, hkm, hm, hne, hchild⟩ := hparent x.toNat hlt
      have hlt' := h.child_lt m bit hkm hm hne
      have hmNat : (BitVec.ofNat 9 m).toNat = m := by
        rw [BitVec.toNat_ofNat]
        omega
      obtain ⟨c, hc⟩ := ih _ (by omega) (x := BitVec.ofNat 9 m) (by omega) rfl
      have hinner : (node m).leaf = false := by
        rw [← Bool.not_eq_true, h.leaf_iff m hm]
        omega
      refine ⟨c ++ [bit], followPath_concat_eq_some.2 ⟨_, hc, ?_⟩⟩
      rw [hmNat]
      exact ⟨hinner, hne, BitVec.eq_of_toNat_eq hchild⟩
    · exact ⟨[], congrArg some (BitVec.eq_of_toNat_eq heq.symm)⟩

end

/-! ## The paths in a valid tree (R120, R121) -/

section
variable {b : Block}

theorem Block.TreeTrue.root_eq_noNode_iff (h : b.TreeTrue) : b.hRoot = noNode ↔ ∀ x, b.freqOf x = 0 := by
  obtain ⟨hroot, -⟩ := h
  rw [hroot]
  exact buildTree_root_eq_noNode_iff

/-- With two or more symbols no merge misses a child (R120). -/
theorem Block.TreeTrue.child_ne_noNode (h : b.TreeTrue) (hk : 2 ≤ (codedSymbols b.freq).length) (m : Nat) (bit : Bool)
    (hkm : (codedSymbols b.freq).length ≤ m) (hm : m < 2 * (codedSymbols b.freq).length - 1) :
    (b.nodeAt m).child bit ≠ noNode := by
  have hlt := (h.allMerged hk m hkm hm).child_lt bit
  have hle := codedSymbols_length_le b.freq
  have hnoNode : noNode.toNat = 511 := rfl
  intro heq
  rw [heq] at hlt
  omega

theorem Block.TreeTrue.root_toNat (h : b.TreeTrue) (hk : 2 ≤ (codedSymbols b.freq).length) :
    b.hRoot.toNat = 2 * (codedSymbols b.freq).length - 2 := by
  obtain ⟨hroot, -⟩ := h
  rw [hroot, buildTree_root_toNat hk]

/-- Every node of a valid tree but the root has a parent (R118, R120). -/
theorem Block.TreeTrue.exists_parent (h : b.TreeTrue) (hroot : b.hRoot ≠ noNode) {q : Nat} (hq : q < b.hRoot.toNat) :
    ∃ m bit, (codedSymbols b.freq).length ≤ m ∧ m ≤ b.hRoot.toNat ∧ (b.nodeAt m).child bit ≠ noNode ∧
      ((b.nodeAt m).child bit).toNat = q := by
  have hpos : (codedSymbols b.freq).length ≠ 0 := by
    rw [Ne, List.length_eq_zero_iff, List.eq_nil_iff_forall_not_mem]
    simp only [mem_codedSymbols, not_not]
    exact mt h.root_eq_noNode_iff.2 hroot
  by_cases hk : 2 ≤ (codedSymbols b.freq).length
  · have hrootNat := h.root_toNat hk
    obtain ⟨m, bit, hkm, hm, hchild⟩ := (h.allMerged hk).exists_parent (q := q) (by omega)
    exact ⟨m, bit, hkm, by omega, h.child_ne_noNode hk m bit hkm hm, hchild⟩
  · obtain ⟨x, hx⟩ := List.length_eq_one_iff.1 (show (codedSymbols b.freq).length = 1 by omega)
    obtain ⟨-, hroot1, -, hinner⟩ := h.of_one_symbol hx
    have hrootNat : b.hRoot.toNat = 1 := by rw [hroot1]; rfl
    refine ⟨1, false, by omega, by omega, ?_⟩
    rw [hinner]
    exact ⟨(by decide : (0 : NodeIx) ≠ noNode), (by omega : 0 = q)⟩

/-- A path leads from the root to the leaf of every counted symbol. -/
theorem Block.TreeTrue.exists_leafAt (h : b.TreeTrue) (hroot : b.hRoot ≠ noNode) {y : Byte} (hy : b.freqOf y ≠ 0) :
    ∃ c, LeafAt b.nodeAt b.hRoot c y := by
  have htree := h.codeTree hroot
  obtain ⟨q, hq, hsym⟩ := List.mem_iff_getElem.1 ((mem_codedSymbols b.freq y).2 hy)
  have hqNat : (BitVec.ofNat 9 q).toNat = q := by
    have hle := codedSymbols_length_le b.freq
    rw [BitVec.toNat_ofNat]
    omega
  have hqroot := hq.le.trans htree.le_root
  obtain ⟨c, hc⟩ := htree.exists_path (x := BitVec.ofNat 9 q) (fun q => h.exists_parent hroot) (hqNat.trans_le hqroot)
  refine ⟨c, _, hc, ?_⟩
  rw [hqNat, h.nodeAt_leaf hq]
  exact ⟨rfl, hsym⟩

/-- The symbol of a leaf that a path leads to is a counted one (R115). -/
theorem Block.TreeTrue.freqOf_ne_zero_of_leafAt (h : b.TreeTrue) (hroot : b.hRoot ≠ noNode) {c : Bits} {y : Byte}
    (hc : LeafAt b.nodeAt b.hRoot c y) : b.freqOf y ≠ 0 := by
  have htree := h.codeTree hroot
  obtain ⟨n, hn, hleaf, rfl⟩ := hc
  have hle := htree.toNat_add_length_le hn
  have hlt := (htree.leaf_iff n.toNat (by omega)).1 hleaf
  rw [h.nodeAt_leaf hlt]
  exact (mem_codedSymbols b.freq _).1 (List.getElem_mem hlt)

/-! ## The codes of a valid tree (R122) -/

section
variable (h : b.TreeTrue) (hcodes : b.CodesTrue)
include h hcodes

/-- A code that is not empty is the path to its symbol's leaf, and there is a root for it to start from. -/
theorem Block.TreeTrue.codeOf_spec {y : Byte} (hy : b.codeOf y ≠ []) :
    b.hRoot ≠ noNode ∧ LeafAt b.nodeAt b.hRoot (b.codeOf y) y := by
  have hroot : b.hRoot ≠ noNode := fun hroot => hy (hcodes.codeOf_of_noNode hroot y)
  exact ⟨hroot, h.leafAt_codeOf hroot hcodes hy⟩

theorem Block.TreeTrue.codeOf_eq_of_leafAt (hroot : b.hRoot ≠ noNode) {c : Bits} {y : Byte}
    (hc : LeafAt b.nodeAt b.hRoot c y) : b.codeOf y = c ∧ c ≠ [] := by
  rw [Block.codeOf, hcodes]
  exact ((h.codeTree hroot).assignCodes_iff hroot).2 hc

/-- Exactly the counted symbols have a code (R122 (a)). -/
theorem Block.TreeTrue.codeOf_ne_nil_iff (y : Byte) : b.codeOf y ≠ [] ↔ b.freqOf y ≠ 0 := by
  constructor
  · intro hy
    obtain ⟨hroot, hleaf⟩ := h.codeOf_spec hcodes hy
    exact h.freqOf_ne_zero_of_leafAt hroot hleaf
  · intro hy
    have hroot : b.hRoot ≠ noNode := fun hroot => hy (h.root_eq_noNode_iff.1 hroot y)
    obtain ⟨c, hc⟩ := h.exists_leafAt hroot hy
    obtain ⟨hcode, hne⟩ := h.codeOf_eq_of_leafAt hcodes hroot hc
    rwa [hcode]

/-- No code begins with another symbol's code (R122 (c)). -/
theorem Block.TreeTrue.eq_of_codeOf_prefix {x y : Byte} (hx : b.codeOf x ≠ []) (hxy : b.codeOf x <+: b.codeOf y) :
    x = y := by
  have hy : b.codeOf y ≠ [] := fun hnil => hx (List.prefix_nil.1 (hnil ▸ hxy))
  exact (h.codeOf_spec hcodes hx).2.eq_of_prefix (h.codeOf_spec hcodes hy).2 hxy

/-- With two or more symbols every infinite bit sequence begins with a code (R122 (d)). -/
theorem Block.TreeTrue.exists_code (hk : 2 ≤ (codedSymbols b.freq).length) (f : Nat → Bool) :
    ∃ x, b.codeOf x ≠ [] ∧ b.codeOf x = (List.range (b.codeOf x).length).map f := by
  have hrootNat := h.root_toNat hk
  have hroot : b.hRoot ≠ noNode := by
    have hle := codedSymbols_length_le b.freq
    have hnoNode : noNode.toNat = 511 := rfl
    intro heq
    rw [heq] at hrootNat
    omega
  obtain ⟨n, y, hy⟩ := (h.codeTree hroot).exists_leafAt
    (fun m bit hkm hm => h.child_ne_noNode hk m bit hkm (by omega)) le_rfl f
  obtain ⟨hcode, hne⟩ := h.codeOf_eq_of_leafAt hcodes hroot hy
  refine ⟨y, hcode ▸ hne, ?_⟩
  rw [hcode, List.length_map, List.length_range]

/-- With one symbol no code begins with 1: the synthetic root has no right child (R118, R122 (d)). -/
theorem Block.TreeTrue.head?_codeOf_of_one_symbol (hk : (codedSymbols b.freq).length = 1) (y : Byte) :
    (b.codeOf y).head? ≠ some true := by
  intro hhead
  obtain ⟨x, hx⟩ := List.length_eq_one_iff.1 hk
  obtain ⟨-, hroot, -, hinner⟩ := h.of_one_symbol hx
  obtain ⟨c, hc⟩ := List.head?_eq_some_iff.1 hhead
  obtain ⟨-, hleaf⟩ := h.codeOf_spec hcodes (y := y) (by simp [hc])
  rw [hc, hroot] at hleaf
  obtain ⟨-, hright, -⟩ := leafAt_cons_iff.1 hleaf
  exact hright (congrArg NodeEntry.right hinner)

end

theorem Block.FlagsTrue.trees_and_codes (h : b.FlagsTrue) (hc : b.status.cval = true) : b.TreeTrue ∧ b.CodesTrue := by
  obtain ⟨htree, hcodes, -⟩ := h
  obtain ⟨htval, hcodes⟩ := hcodes hc
  exact ⟨htree htval, hcodes⟩

theorem Block.TreeTrue.hNsym_toNat (h : b.TreeTrue) : b.hNsym.toNat = (codedSymbols b.freq).length := by
  obtain ⟨-, -, hnsym, -⟩ := h
  rw [hnsym, buildTree_nsym]

end

/-- Of two beginnings of one sequence the shorter begins the longer. -/
theorem map_range_prefix {α : Type} (f : Nat → α) {m n : Nat} (h : m ≤ n) :
    (List.range m).map f <+: (List.range n).map f :=
  List.IsPrefix.map f (List.prefix_iff_eq_take.2 (by simp [List.take_range, h]))

/-- Settles O33: a code is the path to a leaf, a path leads to every leaf, and no path goes on from a leaf. -/
theorem codesArePrefixFree : Obligations.CodesArePrefixFree := by
  unfold Obligations.CodesArePrefixFree
  intro b hflags hcval
  obtain ⟨htree, hcodes⟩ := hflags.trees_and_codes hcval
  exact ⟨htree.codeOf_ne_nil_iff hcodes, CodesBounded_of_CodesTrue hcodes, fun x y =>
    htree.eq_of_codeOf_prefix hcodes⟩

/-- Settles O34: the walk that the sequence names ends at a leaf, and of two codes that begin one sequence one begins the
other. -/
theorem codesAreComplete : Obligations.CodesAreComplete := by
  unfold Obligations.CodesAreComplete
  intro b hflags hcval
  obtain ⟨htree, hcodes⟩ := hflags.trees_and_codes hcval
  have hnsym := htree.hNsym_toNat
  refine ⟨fun hk f => ?two, fun hk => ?one⟩
  case two =>
    obtain ⟨x, hx, hxf⟩ := htree.exists_code hcodes (hnsym ▸ hk) f
    refine ⟨x, ⟨hx, hxf⟩, ?_⟩
    rintro y ⟨hy, hyf⟩
    rcases Nat.le_total (b.codeOf x).length (b.codeOf y).length with hle | hle
    · exact (htree.eq_of_codeOf_prefix hcodes hx (by rw [hxf, hyf]; exact map_range_prefix f hle)).symm
    · exact htree.eq_of_codeOf_prefix hcodes hy (by rw [hxf, hyf]; exact map_range_prefix f hle)
  case one => exact htree.head?_codeOf_of_one_symbol hcodes (by rw [← hnsym, hk]; rfl)

end Sys2Proof.Machine
end

section
/-! HENC on every input in range (40_huffman_commands.md R130, R131): it is the five stages one after the other, every input
byte gets a code, and the results are those of the input alone. -/

namespace Sys2Proof.Machine

section
variable {b b' : Block}

/-! ## Every stage of HENC passes its check (R131) -/

/-- Every input byte is counted, so it has a code (R131). -/
theorem hencEffect_codeOf_ne_nil (b : Block) : ∀ x ∈ b.inputBytes, (hencEffect b).codeOf x ≠ [] := by
  intro x hx
  refine ((hencEffect_treeTrue b).codeOf_ne_nil_iff (hencEffect_codesTrue b) x).2 ?_
  have hlen : b.inputBytes.length < 2 ^ 32 := by
    rw [inputBytes_length]
    exact b.inLen.isLt
  exact (mem_codedSymbols _ x).1 ((mem_codedSymbols_countFreq hlen x).2 hx)

theorem hencEffect_packTrue_of_le (hn : b.inLen.toNat ≤ Config.nMax) : (hencEffect b).PackTrue :=
  hencEffect_packTrue hn (hencEffect_codeOf_ne_nil b)

/-- The block that HPCK works on in HENC: counts, tree and codes are those of the input (R130). -/
def hencCodes (b : Block) : Block := hasnEffect (hbldEffect (hcntEffect (hclrEffect b)))

theorem hencEffect_eq_hpckEffect (b : Block) : hencEffect b = hpckEffect (hencCodes b) := rfl

theorem hencCodes_codesBounded (b : Block) : (hencCodes b).CodesBounded :=
  CodesBounded_of_CodesTrue (CodesTrue_of_hasn _)

theorem hpckCheck_hencCodes (hn : b.inLen.toNat ≤ Config.nMax) : hpckCheck (hencCodes b) = none :=
  (hpckCheck_eq_none_iff _).2 ⟨hn, rfl, (firstUncoded_eq_none_iff _).2 (hencEffect_codeOf_ne_nil b)⟩

theorem exec_hasn_of_tree {s : State} (h : s.blk.status.tval = true) :
    exec .hasn s = .next (s.onBlock fun b => (hasnEffect b).succeed) :=
  runChecked_of_passes (hasnCheck_of_tree h)

theorem exec_hpck_of_passes {s : State} (h : hpckCheck s.blk = none) :
    exec .hpck s = .next (s.onBlock fun b => (hpckEffect b).succeed) :=
  runChecked_of_passes h

/-! ## What HENC leaves alone (R130) -/

theorem hencEffect_nodeAt_of_le {k : Nat} (h : (hencEffect b).hNnode.toNat ≤ k) :
    (hencEffect b).nodeAt k = b.nodeAt k := by
  obtain ⟨-, hnnode, -⟩ := hencEffect_treeTrue b
  rw [hnnode] at h
  exact hbldEffect_nodeAt_of_le (b := hcntEffect (hclrEffect b)) h

theorem hencEffect_codedAt_of_hClen_le (hn : b.inLen.toNat ≤ Config.nMax) {k : Nat}
    (h : (hencEffect b).hClen.toNat ≤ k) : (hencEffect b).codedAt k = b.codedAt k := by
  rw [hencEffect_eq_hpckEffect, hpckEffect_hClen_toNat (b := hencCodes b) hn (hencCodes_codesBounded b)] at h
  exact hencEffect_codedAt_of_le h

/-! ## What the codes depend on -/

/-- The traversal reads no node above the one it starts from. -/
theorem CodeTree.assignFrom_congr {node node' : Nat → NodeEntry} {k : Nat} {root x : NodeIx} (h : CodeTree node k root)
    (heq : ∀ q ≤ root.toNat, node q = node' q) (hx : x.toNat ≤ root.toNat) (fuel : Nat) (path : Bits)
    (codes : Vector Bits 256) : assignFrom node fuel x path codes = assignFrom node' fuel x path codes := by
  induction fuel generalizing x path codes with
  | zero => rfl
  | succ fuel ih =>
    have hnode := heq x.toNat hx
    cases hleaf : (node x.toNat).leaf with
    | true => rw [assignFrom_leaf hleaf, assignFrom_leaf (hnode ▸ hleaf), hnode]
    | false =>
      have hbranch : ∀ bit codes, assignBranch node fuel x path bit codes = assignBranch node' fuel x path bit codes := by
        intro bit codes
        unfold assignBranch
        rw [← hnode]
        split_ifs with hchild
        · rfl
        · have hlt := h.child_lt x.toNat bit (h.le_of_inner hx hleaf) hx hchild
          exact ih (by omega) _ _
      rw [assignFrom_inner hleaf, assignFrom_inner (hnode ▸ hleaf), hbranch, hbranch]

/-- Two valid trees of the same counts stand in NODE alike, so they give the same codes. -/
theorem Block.TreeTrue.code_congr (h : b.TreeTrue) (h' : b'.TreeTrue) (hcodes : b.CodesTrue) (hcodes' : b'.CodesTrue)
    (hfreq : b.freq = b'.freq) : b.code = b'.code := by
  obtain ⟨hroot, -⟩ := id h
  obtain ⟨hroot', -⟩ := id h'
  have hroots : b'.hRoot = b.hRoot := by rw [hroot', hroot, hfreq]
  rw [hcodes, hcodes', hroots]
  by_cases hne : b.hRoot = noNode
  · simp [assignCodes, hne]
  · have hnodes : ∀ q ≤ b.hRoot.toNat, b.nodeAt q = b'.nodeAt q := fun q hq => by
      have hq' := h'.getElem?_nodes (hroots ▸ hne) q (hroots ▸ hq)
      rw [← hfreq, h.getElem?_nodes hne q hq] at hq'
      exact Option.some.inj hq'
    rw [assignCodes, assignCodes, if_neg hne, if_neg hne]
    exact (h.codeTree hne).assignFrom_congr hnodes le_rfl _ _ _

/-! ## HENC depends on its input alone (R130) -/

theorem hencEffect_freq_congr (hinput : b.inputBytes = b'.inputBytes) : (hencEffect b).freq = (hencEffect b').freq := by
  rw [hencEffect_freq, hencEffect_freq, hinput]

theorem hencEffect_code_congr (hinput : b.inputBytes = b'.inputBytes) : (hencEffect b).code = (hencEffect b').code :=
  (hencEffect_treeTrue b).code_congr (hencEffect_treeTrue b') (hencEffect_codesTrue b) (hencEffect_codesTrue b')
    (hencEffect_freq_congr hinput)

theorem hencEffect_stream_congr (hinput : b.inputBytes = b'.inputBytes) :
    (hencEffect b).stream = (hencEffect b').stream := by
  have hcodeOf : (hencEffect b).codeOf = (hencEffect b').codeOf := by
    funext x
    rw [Block.codeOf, Block.codeOf, hencEffect_code_congr hinput]
  rw [Block.stream, Block.stream, hencEffect_inputBytes, hencEffect_inputBytes, hinput, hcodeOf]

/-- Two valid packs of one stream and one input length are the same bytes and registers. -/
theorem Block.PackTrue.congr (h : b.PackTrue) (h' : b'.PackTrue) (hlen : b.inLen = b'.inLen)
    (hstream : b.stream = b'.stream) : b.hOrig = b'.hOrig ∧ b.status.mempty = b'.status.mempty ∧ b.hPad = b'.hPad ∧
      b.hClen = b'.hClen ∧ b.codedBytes = b'.codedBytes := by
  obtain ⟨-, -, horig, hmempty, hpad, hclen, hcoded⟩ := h
  obtain ⟨-, -, horig', hmempty', hpad', hclen', hcoded'⟩ := h'
  rw [← hlen] at horig' hmempty'
  rw [← hstream] at hpad' hclen' hcoded'
  exact ⟨horig.trans horig'.symm, hmempty.trans hmempty'.symm, BitVec.eq_of_toNat_eq (hpad.trans hpad'.symm),
    BitVec.eq_of_toNat_eq (hclen.trans hclen'.symm), hcoded.trans hcoded'.symm⟩

/-- Two valid trees of the same counts have the same registers and the same nodes (R114). -/
theorem Block.TreeTrue.congr (h : b.TreeTrue) (h' : b'.TreeTrue) (hfreq : b.freq = b'.freq) :
    b.hRoot = b'.hRoot ∧ b.hNnode = b'.hNnode ∧ b.hNsym = b'.hNsym ∧
      ∀ k, k < b.hNnode.toNat → b.nodeAt k = b'.nodeAt k := by
  obtain ⟨hroot, hnnode, hnsym, hnode⟩ := h
  obtain ⟨hroot', hnnode', hnsym', hnode'⟩ := h'
  rw [← hfreq] at hroot' hnnode' hnsym' hnode'
  refine ⟨hroot.trans hroot'.symm, BitVec.eq_of_toNat_eq (hnnode.trans hnnode'.symm),
    BitVec.eq_of_toNat_eq (hnsym.trans hnsym'.symm), fun k hk => ?_⟩
  have hk := List.getElem?_eq_getElem (hnnode ▸ hk)
  rw [hnode k _ hk, hnode' k _ hk]

theorem eq_of_exec_henc {s t : State} (hn : s.blk.inLen.toNat ≤ Config.nMax) (h : exec .henc s = .next t) :
    t = s.onBlock fun b => (hencEffect b).succeed :=
  Host.Outcome.next.inj (h.symm.trans (exec_henc_of_le hn))

end

/-- Settles O38: each stage passes its check on what the stages before it left, and the effect of HENC is that of the five
stages. -/
theorem hencIsTheStageSequence : Obligations.HencIsTheStageSequence := by
  unfold Obligations.HencIsTheStageSequence
  intro s hn
  exact ⟨_, _, _, _, _, exec_hclr s, runChecked_of_passes (lenCheck_of_le hn), exec_hbld _,
    exec_hasn_of_tree rfl, exec_hpck_of_passes (hpckCheck_hencCodes hn), rfl, exec_henc_of_le hn⟩

/-- Settles O37: the stages leave the exact counts, a valid tree, valid codes and a valid pack. -/
theorem hencEncodesTheInput : Obligations.HencEncodesTheInput := by
  unfold Obligations.HencEncodesTheInput
  intro s hn
  exact ⟨_, exec_henc_of_le hn, hcntEffect_freqOf_toNat (b := hclrEffect s.blk) hn, hencEffect_treeTrue s.blk,
    hencEffect_codesTrue s.blk, hencEffect_packTrue_of_le hn, fun k => hencEffect_nodeAt_of_le,
    fun k => hencEffect_codedAt_of_hClen_le hn, rfl⟩

/-- Settles O39: the counts are those of the input, the valid tree is that of the counts, the valid codes are those of the
tree, and the valid pack is that of the codes and the input. -/
theorem hencDependsOnTheInputAlone : Obligations.HencDependsOnTheInputAlone := by
  unfold Obligations.HencDependsOnTheInputAlone
  intro s s' t t' hlen hinput hn h h'
  obtain rfl := eq_of_exec_henc hn h
  obtain rfl := eq_of_exec_henc (hlen ▸ hn) h'
  have hfreq := hencEffect_freq_congr hinput
  obtain ⟨hroot, hnnode, hnsym, hnode⟩ := (hencEffect_treeTrue s.blk).congr (hencEffect_treeTrue s'.blk) hfreq
  obtain ⟨horig, hmempty, hpad, hclen, hcoded⟩ := (hencEffect_packTrue_of_le hn).congr
    (hencEffect_packTrue_of_le (hlen ▸ hn)) hlen (hencEffect_stream_congr hinput)
  refine ⟨hfreq, hencEffect_code_congr hinput, hroot, hnnode, hnsym, horig, hpad, hclen, hcoded, ?metadata, hnode⟩
  rw [State.onBlock_blk, State.onBlock_blk, Block.succeed_metadata, Block.succeed_metadata, Block.metadata,
    Block.metadata, hmempty, hfreq, hpad, horig]

end Sys2Proof.Machine
end

section
/-! What each unit leaves alone (40_huffman_commands.md R110, 41_lz77_commands.md R150, 20_memory.md R74), and HENC and LCMP in
either order (70_reset_and_hazards.md R243). -/

namespace Sys2Proof.Machine

section
variable {s t : State}

/-! ## The units do not touch each other (R110, R150) -/

/-- Settles O51: an error entry writes only ERR, ESTK and EINFO, and the effect of each of the six writes no field of the
input or of the LZ unit. -/
theorem huffmanCommandsLeaveTheLzUnit : Obligations.HuffmanCommandsLeaveTheLzUnit := by
  unfold Obligations.HuffmanCommandsLeaveTheLzUnit
  intro i hi s t h
  simp only [List.mem_cons, List.not_mem_nil, or_false] at hi
  rcases hi with rfl | rfl | rfl | rfl | rfl | rfl
  all_goals
    rcases exec_eq_next h with ⟨e, info, -, rfl⟩ | ⟨-, rfl⟩ <;>
      exact ⟨fun _ => rfl, rfl, rfl, rfl, fun _ => rfl, rfl, rfl⟩

/-- Settles O52: an error entry writes only ERR, ESTK and EINFO, and the effects of LCLR and LCMP write only TOKEN, L_NTOK
and LVAL. -/
theorem lzCommandsLeaveTheHuffmanUnit : Obligations.LzCommandsLeaveTheHuffmanUnit := by
  unfold Obligations.LzCommandsLeaveTheHuffmanUnit
  intro i hi s t h
  simp only [List.mem_cons, List.not_mem_nil, or_false] at hi
  rcases hi with rfl | rfl
  all_goals
    rcases exec_eq_next h with ⟨e, info, -, rfl⟩ | ⟨-, rfl⟩ <;>
      exact ⟨fun _ => rfl, fun _ => rfl, fun _ => rfl, rfl⟩

/-! ## What stays in the memories (R74) -/

/-- Settles O53: neither an error entry nor the effect of any of the six writes a memory. -/
theorem registerCommandsStoreInNoMemory : Obligations.RegisterCommandsStoreInNoMemory := by
  unfold Obligations.RegisterCommandsStoreInNoMemory
  intro i hi s t h
  simp only [List.mem_cons, List.not_mem_nil, or_false] at hi
  rcases hi with rfl | rfl | rfl | rfl | rfl | rfl
  all_goals
    rcases exec_eq_next h with ⟨e, info, -, rfl⟩ | ⟨-, rfl⟩ <;>
      exact Block.sameMemories_of_fields rfl rfl rfl rfl rfl

theorem hbld_keeps_rest (h : exec .hbld s = .next t) :
    (∀ k, t.blk.hNnode.toNat ≤ k → t.blk.nodeAt k = s.blk.nodeAt k) ∧ (∀ l, t.blk.readByte l = s.blk.readByte l) ∧
      ∀ k, t.blk.tokenAt k = s.blk.tokenAt k := by
  obtain rfl := eq_of_exec_noCheck rfl h
  obtain ⟨-, hnnode, -⟩ := TreeTrue_of_hbld s.blk
  exact ⟨fun k hk => hbldEffect_nodeAt_of_le (hnnode ▸ hk), fun _ => rfl, fun _ => rfl⟩

theorem hpck_keeps_rest (hb : s.blk.CodesBounded) (h : exec .hpck s = .next t) :
    (∀ k, t.blk.status.err ≠ .ok ∨ t.blk.hClen.toNat ≤ k → t.blk.codedAt k = s.blk.codedAt k) ∧
      (∀ k, t.blk.inputAt k = s.blk.inputAt k) ∧ (∀ k, t.blk.nodeAt k = s.blk.nodeAt k) ∧
      ∀ k, t.blk.tokenAt k = s.blk.tokenAt k := by
  rcases exec_eq_next h with ⟨e, info, -, rfl⟩ | ⟨hpass, rfl⟩
  · exact ⟨fun _ _ => rfl, fun _ => rfl, fun _ => rfl, fun _ => rfl⟩
  · obtain ⟨hn, -⟩ := (hpckCheck_eq_none_iff s.blk).1 hpass
    have hclen := hpckEffect_hClen_toNat hn hb
    exact ⟨fun k hk => hpckEffect_codedAt_of_le (hclen ▸ hk.resolve_left (absurd rfl)), fun _ => rfl, fun _ => rfl,
      fun _ => rfl⟩

theorem le_of_lenCheck_eq_none {b : Block} (h : lenCheck b = none) : b.inLen.toNat ≤ Config.nMax := by
  by_contra hlt
  simp [lenCheck_of_lt (Nat.lt_of_not_le hlt)] at h

theorem henc_keeps_rest (h : exec .henc s = .next t) :
    (∀ k, t.blk.status.err ≠ .ok ∨ t.blk.hNnode.toNat ≤ k → t.blk.nodeAt k = s.blk.nodeAt k) ∧
      (∀ k, t.blk.status.err ≠ .ok ∨ t.blk.hClen.toNat ≤ k → t.blk.codedAt k = s.blk.codedAt k) ∧
      (∀ k, t.blk.inputAt k = s.blk.inputAt k) ∧ ∀ k, t.blk.tokenAt k = s.blk.tokenAt k := by
  rcases exec_eq_next h with ⟨e, info, -, rfl⟩ | ⟨hpass, rfl⟩
  · exact ⟨fun _ _ => rfl, fun _ _ => rfl, fun _ => rfl, fun _ => rfl⟩
  · exact ⟨fun k hk => hencEffect_nodeAt_of_le (hk.resolve_left (absurd rfl)),
      fun k hk => hencEffect_codedAt_of_hClen_le (le_of_lenCheck_eq_none hpass) (hk.resolve_left (absurd rfl)),
      fun _ => rfl, fun _ => rfl⟩

theorem lcmp_keeps_rest (h : exec .lcmp s = .next t) :
    (∀ k, t.blk.status.err ≠ .ok ∨ t.blk.lNtok.toNat ≤ k → t.blk.tokenAt k = s.blk.tokenAt k) ∧
      (∀ k, t.blk.nodeAt k = s.blk.nodeAt k) ∧ ∀ l, t.blk.readByte l = s.blk.readByte l := by
  rcases exec_eq_next h with ⟨e, info, -, rfl⟩ | ⟨hpass, rfl⟩
  · exact ⟨fun _ _ => rfl, fun _ => rfl, fun _ => rfl⟩
  · have hntok := lcmpEffect_lNtok_toNat (le_of_lenCheck_eq_none hpass)
    exact ⟨fun k hk => lcmpEffect_tokenAt_of_le (hntok ▸ hk.resolve_left (absurd rfl)), fun _ => rfl, fun _ => rfl⟩

end

/-- Settles O54: HBLD writes the nodes of its tree, HPCK the packed bytes, HENC both, and LCMP its tokens; an error entry
writes no memory. -/
theorem storingCommandsKeepTheRest : Obligations.StoringCommandsKeepTheRest := by
  unfold Obligations.StoringCommandsKeepTheRest
  exact fun s t hb => ⟨hbld_keeps_rest, hpck_keeps_rest hb, henc_keeps_rest, lcmp_keeps_rest⟩

/-! ## HENC and LCMP in either order (R243) -/

/-- The two effects read the input, which neither writes, and write different fields. -/
theorem lcmpEffect_hencEffect_comm (b : Block) :
    (lcmpEffect (hencEffect b).succeed).succeed = (hencEffect (lcmpEffect b).succeed).succeed := rfl

/-- Settles O55: on an input in range the effects commute; on a longer one both commands raise the same error. -/
theorem hencAndLcmpCommute : Obligations.HencAndLcmpCommute := by
  unfold Obligations.HencAndLcmpCommute
  intro s
  by_cases hn : s.blk.inLen.toNat ≤ Config.nMax
  · refine ⟨_, _, _, exec_henc_of_le hn, exec_lcmp_of_le hn, exec_lcmp_of_le hn, ?_⟩
    have hcomm : (s.onBlock fun b => (hencEffect b).succeed).onBlock (fun b => (lcmpEffect b).succeed) =
        (s.onBlock fun b => (lcmpEffect b).succeed).onBlock fun b => (hencEffect b).succeed := by
      simp only [State.onBlock, lcmpEffect_hencEffect_comm]
    rw [hcomm]
    exact exec_henc_of_le hn
  · have hlen := lenCheck_of_lt (Nat.lt_of_not_le hn)
    exact ⟨_, _, _, runChecked_of_fails hlen, runChecked_of_fails hlen, runChecked_of_fails hlen,
      runChecked_of_fails hlen⟩

end Sys2Proof.Machine
end

section
/-! One step (00_scope.md R15, R210, 20_memory.md R61): it always ends in a next state, and what it can do to the block. -/

namespace Sys2Proof.Machine

/-- What one step can do to the block, by the host's operations before it: nothing, a byte write, a word write, an error
entry, the effect of a command whose checks pass, or the hardware reset. -/
inductive BlockStep : List HostOp → Block → Block → Prop where
  | stays {ops : List HostOp} {b : Block} : BlockStep ops b b
  | byte {a : Addr} {v : Byte} {l : ByteLoc} {rest : List HostOp} {b : Block} (hl : locateByte a = some l) :
      BlockStep (.wr1 a v :: rest) b (b.writeByte v l)
  | word {a : Addr} {v : Word} {l : WordLoc} {rest : List HostOp} {b : Block} (hl : locateWord a = some l) :
      BlockStep (.wr4 a v :: rest) b (b.writeWord v l)
  | error {ops : List HostOp} {b : Block} (e : ErrCode) (info : Word) : BlockStep ops b (b.raise e info)
  | command {v : Word} {i : Instr} {rest : List HostOp} {b : Block} (hd : decode v = .instr i)
      (hpass : checkOf i b = none) : BlockStep (.wr4 0 v :: rest) b (effectOf i b).succeed
  | reset {rest : List HostOp} {b : Block} : BlockStep (.hwReset :: rest) b b.hwReset

/-- A command word takes effect at one address only. -/
theorem eq_zero_of_locateWord_cmd {a : Addr} (h : locateWord a = some .cmd) : a = 0 :=
  BitVec.eq_of_toNat_eq (locateWord_eq_some_iff.1 h).2.symm

/-- Every step ends in a next state, with the operation it did taken off the list. -/
theorem step_completes (s : State) :
    ∃ t, step s = .next t ∧ t.host = s.host.tail ∧ (s.host = [] → t = s) ∧ BlockStep s.host s.blk t.blk := by
  rcases hhost : s.host with _ | ⟨op, rest⟩
  · exact ⟨s, by simp [step, hhost], hhost, fun _ => rfl, .stays⟩
  · rw [step_of_host hhost]
    obtain ⟨s', hblk, hrest, hcases⟩ := hostStep_cases { s with host := rest } op
    replace hblk : s'.blk = s.blk := hblk
    rcases hcases with hs | ⟨a, v, l, rfl, hl, hs⟩ | ⟨a, v, l, rfl, hl, -, hs⟩ | ⟨a, v, r, rfl, -, -, hs⟩ |
      ⟨a, v, i, rfl, hl, hd, hs⟩ | ⟨rfl, hs⟩
    case inr.inr.inr.inr.inl =>
      obtain rfl := eq_zero_of_locateWord_cmd hl
      rw [exec_eq_runChecked] at hs
      rcases runChecked_cases (checkOf i) (effectOf i) s' with ⟨e, info, -, hrun⟩ | ⟨hpass, hrun⟩
      · exact ⟨_, hs.trans hrun, hrest, nofun, hblk ▸ .error e info⟩
      · exact ⟨_, hs.trans hrun, hrest, nofun, hblk ▸ .command hd hpass⟩
    all_goals refine ⟨_, hs, hrest, nofun, hblk ▸ ?_⟩
    · exact .stays
    · exact .byte hl
    · exact .word hl
    · exact .error .op v
    · exact .reset

theorem blockStep_of_step {s t : State} (h : step s = .next t) : BlockStep s.host s.blk t.blk := by
  obtain ⟨t', ht', -, -, hstep⟩ := step_completes s
  obtain rfl := Host.Outcome.next.inj (ht'.symm.trans h)
  exact hstep

/-- Settles O16: each operation of the host's list has a next state, and the empty list has the state itself. -/
theorem everyStepCompletes : Obligations.EveryStepCompletes := by
  unfold Obligations.EveryStepCompletes
  intro s
  obtain ⟨t, hstep, hhost, hempty, -⟩ := step_completes s
  exact ⟨t, hstep, hhost, hempty⟩

/-! ## ESTK over a step (R24, R110) -/

/-- A word write clears ESTK only at STATUS, and only with bit 8 set. -/
theorem Block.writeWord_clears_estk {b : Block} {v : Word} {l : WordLoc} (h : b.status.estk = true)
    (h' : (b.writeWord v l).status.estk = false) : l = .status ∧ v.getLsbD 8 = true := by
  cases l
  case status =>
    by_contra hno
    rw [Block.writeWord, if_neg fun hv => hno ⟨rfl, hv⟩] at h'
    exact absurd (h.symm.trans h') nofun
  all_goals exact absurd (h.symm.trans h') nofun

/-- Only RST's effect clears ESTK (R110, R181). -/
theorem effectOf_estk {i : Instr} (hi : i ≠ .rst) (b : Block) : (effectOf i b).status.estk = b.status.estk := by
  cases i
  case rst => exact absurd rfl hi
  all_goals rfl

/-- A step that clears ESTK does the hardware reset, runs RST, or writes STATUS with bit 8 set (R24). -/
theorem BlockStep.clears_estk {ops : List HostOp} {b b' : Block} (h : BlockStep ops b b') (hb : b.status.estk = true)
    (hb' : b'.status.estk = false) : ∃ rest, ops = .hwReset :: rest ∨ ops = .wr4 0 (encode .rst) :: rest ∨
      ∃ v : Word, v.getLsbD 8 = true ∧ ops = .wr4 4 v :: rest := by
  cases h with
  | stays => exact absurd (hb.symm.trans hb') nofun
  | @byte a v l rest b hl => cases l <;> exact absurd (hb.symm.trans hb') nofun
  | @word a v l rest b hl =>
    obtain ⟨rfl, hv⟩ := Block.writeWord_clears_estk hb hb'
    obtain rfl : a = 4 := BitVec.eq_of_toNat_eq (locateWord_eq_some_iff.1 hl).2.symm
    exact ⟨rest, .inr (.inr ⟨v, hv, rfl⟩)⟩
  | error e info => exact absurd hb' nofun
  | @command v i rest b hd hpass =>
    by_cases hi : i = .rst
    · exact ⟨rest, .inr (.inl (by rw [decode_eq_instr_iff.1 hd, hi]))⟩
    · exact absurd (hb.symm.trans ((effectOf_estk hi b).symm.trans hb')) nofun
  | @reset rest => exact ⟨rest, .inl rfl⟩

/-- Settles O19: of everything a step can do to the block, only those three clear ESTK. -/
theorem stickyErrorIsClearedOnlyByHostOrReset : Obligations.StickyErrorIsClearedOnlyByHostOrReset := by
  unfold Obligations.StickyErrorIsClearedOnlyByHostOrReset
  exact fun s t h => (blockStep_of_step h).clears_estk

/-- Settles O20: a command other than RST that ends with ERR = 0 has done its effect, which leaves ESTK and EINFO. -/
theorem successKeepsStickyAndInfo : Obligations.SuccessKeepsStickyAndInfo := by
  unfold Obligations.SuccessKeepsStickyAndInfo
  intro i s t hi h herr
  rcases exec_cases i s with ⟨e, info, he, hexec⟩ | ⟨effect, hkeeps, hexec⟩ <;>
    obtain rfl := Host.Outcome.next.inj (hexec.symm.trans h)
  case inl => exact absurd herr he
  case inr => exact hkeeps hi s.blk

end Sys2Proof.Machine
end

section
/-! The invariants (10_state.md R24, R37 to R43, 20_memory.md R74): every step keeps the valid flags true, the memories canonical
and the codes bounded, and the reset state meets all three. -/

namespace Sys2Proof.Machine

/-! ## The invariants, operation by operation -/

section
variable {b : Block}

theorem Block.FlagsTrue.of_no_flags (h : b.status.tval = false ∧ b.status.cval = false ∧ b.status.pval = false)
    (htokens : b.status.lval = true → b.TokensTrue) : b.FlagsTrue := by
  obtain ⟨ht, hc, hp⟩ := h
  refine ⟨fun h => ?_, fun h => ?_, fun h => ?_, htokens⟩
  · exact absurd (ht.symm.trans h) nofun
  · exact absurd (hc.symm.trans h) nofun
  · exact absurd (hp.symm.trans h) nofun

/-- The effect of a command whose checks pass makes true every flag it sets, clears every flag whose inputs it changes, and
leaves the rest (R42). -/
theorem Block.FlagsTrue.effectOf {i : Instr} (h : b.FlagsTrue) (hpass : checkOf i b = none) :
    (effectOf i b).FlagsTrue := by
  obtain ⟨htree, hcodes, hpack, htokens⟩ := id h
  cases i with
  | nop => exact h
  | rst => exact .of_no_flags ⟨rfl, rfl, rfl⟩ nofun
  | hclr => exact .of_no_flags ⟨rfl, rfl, rfl⟩ htokens
  | hcnt => exact .of_no_flags ⟨rfl, rfl, rfl⟩ htokens
  | hbld => exact ⟨fun _ => TreeTrue_of_hbld b, nofun, nofun, htokens⟩
  | hasn =>
    have htval : b.status.tval = true := by
      by_contra hno
      exact absurd ((hasnCheck_of_no_tree (Bool.eq_false_of_not_eq_true hno)).symm.trans hpass) nofun
    exact ⟨fun _ => htree htval, fun _ => ⟨htval, CodesTrue_of_hasn b⟩, nofun, htokens⟩
  | hpck =>
    obtain ⟨hn, hcval, hcovered⟩ := (hpckCheck_eq_none_iff b).1 hpass
    have hbounded := CodesBounded_of_CodesTrue (hcodes hcval).2
    exact ⟨htree, hcodes, fun _ => ⟨hcval, PackTrue_of_hpck hn hbounded ((firstUncoded_eq_none_iff b).1 hcovered)⟩,
      htokens⟩
  | henc =>
    have hn := le_of_lenCheck_eq_none hpass
    exact ⟨fun _ => hencEffect_treeTrue b, fun _ => ⟨rfl, hencEffect_codesTrue b⟩,
      fun _ => ⟨rfl, hencEffect_packTrue_of_le hn⟩, htokens⟩
  | lclr => exact ⟨htree, hcodes, hpack, nofun⟩
  | lcmp => exact ⟨htree, hcodes, hpack, fun _ => TokensTrue_of_lcmp (le_of_lenCheck_eq_none hpass)⟩

/-- A host write of IN invalidates what was made of the input (R43). -/
theorem Block.FlagsTrue.writeByte (h : b.FlagsTrue) (v : Byte) (l : ByteLoc) : (b.writeByte v l).FlagsTrue := by
  obtain ⟨htree, hcodes, -⟩ := id h
  cases l with
  | input k => exact ⟨htree, hcodes, nofun, nofun⟩
  | coded k => exact h

/-- A host write invalidates what was made of the register or table it changes (R43). -/
theorem Block.FlagsTrue.writeWord (h : b.FlagsTrue) (v : Word) (l : WordLoc) : (b.writeWord v l).FlagsTrue := by
  obtain ⟨htree, hcodes, hpack, htokens⟩ := id h
  cases l
  case status =>
    unfold Block.writeWord
    split_ifs
    · exact h
    · exact h
  case inLen => exact ⟨htree, hcodes, nofun, nofun⟩
  case lWin | lLook => exact ⟨htree, hcodes, hpack, nofun⟩
  case freq x => exact .of_no_flags ⟨rfl, rfl, rfl⟩ htokens
  all_goals exact h

/-- The effect of a command whose checks pass stores inside the memories and assigns no code longer than 255 bits. -/
theorem Block.MemoriesWf.effectOf {i : Instr} (h : b.MemoriesWf) (hb : b.CodesBounded) (hpass : checkOf i b = none) :
    (effectOf i b).MemoriesWf ∧ (effectOf i b).CodesBounded := by
  obtain ⟨hnode, hinput, hcoded, htoken⟩ := id h
  cases i with
  | nop | hcnt | lclr => exact ⟨h, hb⟩
  | rst => exact ⟨h, fun x => by simp [Machine.effectOf, Block.codeOf, Block.reset]⟩
  | hclr => exact ⟨h, fun x => by simp [Machine.effectOf]⟩
  | hbld => exact ⟨⟨Memory.wf_writeFirst _ _ _ (buildTree_length_le b.freq) hnode, hinput, hcoded, htoken⟩, hb⟩
  | hasn => exact ⟨h, CodesBounded_of_CodesTrue (CodesTrue_of_hasn b)⟩
  | hpck =>
    obtain ⟨hn, -⟩ := (hpckCheck_eq_none_iff b).1 hpass
    exact ⟨⟨hnode, hinput, Memory.wf_writeFirst _ _ _ (packedBytes_length_le hn hb) hcoded, htoken⟩, hb⟩
  | henc =>
    have hb' := hencCodes_codesBounded b
    have hlen : (packedBytes (hencCodes b).stream).length ≤ Config.codedCap :=
      packedBytes_length_le (b := hencCodes b) (le_of_lenCheck_eq_none hpass) hb'
    exact ⟨⟨Memory.wf_writeFirst _ _ _ (buildTree_length_le _) hnode, hinput, Memory.wf_writeFirst _ _ _ hlen hcoded,
      htoken⟩, hb'⟩
  | lcmp =>
    have hlen : (b.lzTokens.map encodeToken).length ≤ Config.tokenCap := by
      rw [List.length_map]
      exact (lzTokens_length_le b).trans (le_of_lenCheck_eq_none hpass)
    exact ⟨⟨hnode, hinput, hcoded, Memory.wf_writeFirst _ _ _ hlen htoken⟩, hb⟩

/-- A host write of IN stores inside IN, because the address map has no other byte of it (R62, R64). -/
theorem Block.MemoriesWf.writeByte (h : b.MemoriesWf) {v : Byte} {l : ByteLoc} (hl : l.inMap = true) :
    (b.writeByte v l).MemoriesWf := by
  obtain ⟨hnode, hinput, hcoded, htoken⟩ := id h
  cases l with
  | input k => exact ⟨hnode, Memory.wf_write _ _ _ _ (of_decide_eq_true hl) hinput, hcoded, htoken⟩
  | coded k => exact h

/-- A 4-byte write changes registers and FREQ only. -/
theorem Block.writeWord_memories_and_code (b : Block) (v : Word) (l : WordLoc) :
    (b.writeWord v l).node = b.node ∧ (b.writeWord v l).input = b.input ∧ (b.writeWord v l).coded = b.coded ∧
      (b.writeWord v l).token = b.token ∧ (b.writeWord v l).code = b.code ∧ (b.writeWord v l).resets = b.resets := by
  cases l
  case status =>
    unfold Block.writeWord
    split_ifs
    · exact ⟨rfl, rfl, rfl, rfl, rfl, rfl⟩
    · exact ⟨rfl, rfl, rfl, rfl, rfl, rfl⟩
  all_goals exact ⟨rfl, rfl, rfl, rfl, rfl, rfl⟩

end

/-! ## The invariants of every step -/

/-- What every write, error entry and command effect keeps, and every hardware reset establishes, every step keeps. -/
theorem BlockStep.induction {P : Block → Prop} {ops : List HostOp} {b b' : Block} (h : BlockStep ops b b') (h0 : P b)
    (hbyte : ∀ v l, l.inMap = true → P (b.writeByte v l)) (hword : ∀ v l, P (b.writeWord v l))
    (hraise : ∀ e info, P (b.raise e info)) (heffect : ∀ i, checkOf i b = none → P (effectOf i b).succeed)
    (hreset : P b.hwReset) : P b' := by
  cases h with
  | stays => exact h0
  | byte hl => exact hbyte _ _ (locateByte_eq_some_iff.1 hl).1
  | word hl => exact hword _ _
  | error e info => exact hraise e info
  | command hd hpass => exact heffect _ hpass
  | reset => exact hreset

/-- Settles O56: each host operation and each command makes true, clears or leaves each flag. -/
theorem validFlagsStayTrue : Obligations.ValidFlagsStayTrue := by
  unfold Obligations.ValidFlagsStayTrue
  intro s t hflags h
  exact (blockStep_of_step h).induction hflags (fun v l _ => hflags.writeByte v l) hflags.writeWord (fun _ _ => hflags)
    (fun i hpass => hflags.effectOf hpass) (.of_no_flags ⟨rfl, rfl, rfl⟩ nofun)

theorem Block.reset_codesBounded : Block.reset.CodesBounded := fun x => by simp

/-- Settles O57: what is stored fits the memory it is stored in, and assigned codes are bounded by the depth of the
traversal. -/
theorem memoriesStayCanonical : Obligations.MemoriesStayCanonical := by
  unfold Obligations.MemoriesStayCanonical
  intro s t hwf hb h
  refine (blockStep_of_step h).induction (P := fun b => b.MemoriesWf ∧ b.CodesBounded) ⟨hwf, hb⟩
    (fun v l hl => ⟨hwf.writeByte hl, ?byte⟩) (fun v l => ?word) (fun _ _ => ⟨hwf, hb⟩)
    (fun i hpass => hwf.effectOf hb hpass) ⟨?reset, Block.reset_codesBounded⟩
  case byte => cases l <;> exact hb
  case word =>
    obtain ⟨hnode, hinput, hcoded, htoken, hcode, -⟩ := s.blk.writeWord_memories_and_code v l
    unfold Block.MemoriesWf Block.CodesBounded Block.codeOf
    rw [hnode, hinput, hcoded, htoken, hcode]
    exact ⟨hwf, hb⟩
  case reset => exact ⟨Memory.wf_nil _, Memory.wf_nil _, Memory.wf_nil _, Memory.wf_nil _⟩

/-- Settles O58: at reset no flag is set, no memory lists anything and every code is empty. -/
theorem resetMeetsTheInvariants : Obligations.ResetMeetsTheInvariants := by
  unfold Obligations.ResetMeetsTheInvariants
  exact ⟨.of_no_flags ⟨rfl, rfl, rfl⟩ nofun,
    ⟨Memory.wf_nil _, Memory.wf_nil _, Memory.wf_nil _, Memory.wf_nil _⟩, Block.reset_codesBounded⟩

end Sys2Proof.Machine
end

section
/-! The words of tokens and commands (30_encoding.md R91, R97), and the address map (20_memory.md R62). -/

namespace Sys2Proof.Machine

/-! ## The word of a match, as a number (R97) -/

theorem toNat_encodeToken_backRef {offset length : Nat} (ho : offset < 2 ^ 16) (hl : length < 2 ^ 9) :
    (encodeToken (.backRef offset length)).toNat = 2 ^ 31 + length * 2 ^ 16 + offset := by
  rw [encodeToken, BitVec.toNat_ofNat]
  omega

/-- The four fields of the word of a match (R97). -/
theorem encodeToken_backRef_fields {offset length : Nat} (ho : offset < 2 ^ 16) (hl : length < 2 ^ 9) :
    (encodeToken (.backRef offset length)).getLsbD 31 = true ∧
      (encodeToken (.backRef offset length)).extractLsb' 25 6 = 0 ∧
      ((encodeToken (.backRef offset length)).extractLsb' 16 9).toNat = length ∧
      ((encodeToken (.backRef offset length)).extractLsb' 0 16).toNat = offset := by
  have hword := toNat_encodeToken_backRef ho hl
  refine ⟨?kind, BitVec.eq_of_toNat_eq ?reserved, ?length, ?offset⟩
  case kind =>
    rw [BitVec.getLsbD, hword, Nat.testBit_eq_decide_div_mod_eq, decide_eq_true_eq]
    omega
  case reserved =>
    rw [BitVec.extractLsb'_toNat, hword, Nat.shiftRight_eq_div_pow]
    exact (by omega : (2 ^ 31 + length * 2 ^ 16 + offset) / 2 ^ 25 % 2 ^ 6 = 0)
  case length =>
    rw [BitVec.extractLsb'_toNat, hword, Nat.shiftRight_eq_div_pow]
    omega
  case offset =>
    rw [BitVec.extractLsb'_toNat, hword, Nat.shiftRight_eq_div_pow]
    omega

/-- Settles O4: the word is the sum of its fields, and the ranges of a well-formed token are those of the fields. -/
theorem tokenWordsRoundTrip : Obligations.TokenWordsRoundTrip := by
  unfold Obligations.TokenWordsRoundTrip
  refine ⟨fun t => decodeToken_encodeToken, fun b => ?lit, fun offset length h => ?backRef⟩
  case lit => exact BitVec.toNat_setWidth_of_le (by decide)
  case backRef =>
    simp only [Token.wf, Bool.and_eq_true, decide_eq_true_eq] at h
    exact encodeToken_backRef_fields (by omega) (by omega)

/-- Settles O1: each of the ten words is the encoding of its command. -/
theorem commandWordsStandForTheirCommands : Obligations.CommandWordsStandForTheirCommands := by
  unfold Obligations.CommandWordsStandForTheirCommands
  exact ⟨decode_encode .nop, decode_encode .rst, decode_encode .hclr, decode_encode .hcnt, decode_encode .hbld,
    decode_encode .hasn, decode_encode .hpck, decode_encode .henc, decode_encode .lclr, decode_encode .lcmp⟩

/-- Settles O5: the two locators are the table read backwards, and the byte memories lie apart from every word. -/
theorem addressMapIsTheTable : Obligations.AddressMapIsTheTable := by
  unfold Obligations.AddressMapIsTheTable
  exact ⟨fun _ _ => locateWord_eq_some_iff, fun _ _ => locateByte_eq_some_iff, fun _ _ => WordLoc.addr_ne_byteLoc_addr⟩

/-- Settles O15: the address 0 is CMD, and `withFetchWord` puts a write of a word of the command there first. -/
theorem stepRunsTheDecodedCommand : Obligations.StepRunsTheDecodedCommand := by
  unfold Obligations.StepRunsTheDecodedCommand
  refine ⟨fun s v rest i h hd => step_wr4_cmd hd h, fun s w i hw => ?_⟩
  have hd : decode (BitVec.ofNat 32 (w % 2 ^ 32)) = .instr i := by
    rw [decodeTableWord, if_pos le_rfl] at hw
    split at hw
    case h_1 hdec => rw [hdec, Option.some.inj hw]
    case h_2 => cases hw
  exact step_wr4_cmd hd (State.withFetchWord_host s 32 w)

/-- Settles O22: the reset block lists nothing in its memories, so each location is its free value of the new epoch. -/
theorem hardwareResetForgetsEverything : Obligations.HardwareResetForgetsEverything := by
  unfold Obligations.HardwareResetForgetsEverything
  intro s rest h
  exact ⟨_, step_of_host h, rfl, Block.reset_atResetValues, fun _ => rfl, fun _ => rfl, fun _ => rfl, fun _ => rfl⟩

end Sys2Proof.Machine
end

section
/-! What the host reads (10_state.md R24, R37, R38, 20_memory.md R61, R68, R71): each word is its fields at their places, and a
read after a write. -/

namespace Sys2Proof.Machine

/-! ## Reads (R61, R69) -/

/-- A 1-byte read at a location answers the byte of that location and changes nothing (R69). -/
theorem step_rd1 {s : State} {rest : List HostOp} {l : ByteLoc} (hl : l.inMap = true)
    (h : s.host = .rd1 (BitVec.ofNat 32 l.addr) :: rest) :
    step s = .next { s with host := rest, reply := some (.byte (s.blk.readByte l)) } := by
  rw [step_of_host h]
  simp only [hostStep, locateByte_ofNat_addr hl]
  rfl

/-- Settles O7: a read finds its location at its address, and each register is read as itself or widened. -/
theorem readsReturnTheLocationAndChangeNothing : Obligations.ReadsReturnTheLocationAndChangeNothing := by
  unfold Obligations.ReadsReturnTheLocationAndChangeNothing
  refine ⟨fun l s rest hl => step_rd4 hl, fun l s rest hl => step_rd1 hl, fun b => ?_⟩
  exact ⟨rfl, rfl, rfl, BitVec.toNat_setWidth_of_le (by decide), BitVec.toNat_setWidth_of_le (by decide), rfl,
    BitVec.toNat_setWidth_of_le (by decide), rfl, BitVec.toNat_setWidth_of_le (by decide),
    BitVec.toNat_setWidth_of_le (by decide), BitVec.toNat_setWidth_of_le (by decide), rfl,
    fun _ => rfl, fun _ => rfl, fun _ => rfl, fun _ => rfl⟩

/-! ## STATUS (R24) -/

/-- Two words side by side, as a number. -/
theorem toNat_append_eq {n m : Nat} (x : BitVec n) (y : BitVec m) : (x ++ y).toNat = x.toNat * 2 ^ m + y.toNat := by
  rw [BitVec.toNat_append, ← Nat.shiftLeft_add_eq_or_of_lt y.isLt, Nat.shiftLeft_eq]

/-- STATUS as a number: its fields with their weights. -/
theorem Status.toNat_word (st : Status) : st.word.toNat = st.err.toByte.toNat + 2 ^ 8 * st.estk.toNat +
    2 ^ 9 * st.tval.toNat + 2 ^ 10 * st.cval.toNat + 2 ^ 11 * st.pval.toNat + 2 ^ 12 * st.mempty.toNat +
    2 ^ 13 * st.lval.toNat := by
  simp only [Status.word, toNat_append_eq, BitVec.toNat_ofBool, BitVec.ofNat_eq_ofNat, BitVec.toNat_ofNat]
  omega

theorem Status.toNat_word_lt (st : Status) : st.word.toNat < 2 ^ 14 := by
  have herr := st.err.toByte.isLt
  have hestk := Bool.toNat_lt st.estk
  have htval := Bool.toNat_lt st.tval
  have hcval := Bool.toNat_lt st.cval
  have hpval := Bool.toNat_lt st.pval
  have hmempty := Bool.toNat_lt st.mempty
  have hlval := Bool.toNat_lt st.lval
  rw [Status.toNat_word]
  omega

/-- The fields of STATUS at their places, with zeros above. -/
theorem Status.word_fields (st : Status) : st.word.extractLsb' 0 8 = st.err.toByte ∧ st.word.getLsbD 8 = st.estk ∧
    st.word.getLsbD 9 = st.tval ∧ st.word.getLsbD 10 = st.cval ∧ st.word.getLsbD 11 = st.pval ∧
    st.word.getLsbD 12 = st.mempty ∧ st.word.getLsbD 13 = st.lval ∧ st.word.extractLsb' 14 18 = 0 := by
  refine ⟨BitVec.eq_of_toNat_eq ?err, ?_, ?_, ?_, ?_, ?_, ?_, BitVec.eq_of_toNat_eq ?above⟩
  case err =>
    rw [BitVec.extractLsb'_toNat, Nat.shiftRight_zero, Status.toNat_word]
    omega
  case above =>
    rw [BitVec.extractLsb'_toNat, Nat.shiftRight_eq_div_pow, Nat.div_eq_of_lt st.toNat_word_lt]
    rfl
  all_goals
    simp only [Status.word, BitVec.getLsbD_append, BitVec.getLsbD_ofBool]
    rfl

/-- A host write of STATUS clears ESTK where bit 8 is written as 1, and changes nothing else (R24). -/
theorem Block.writeWord_status (b : Block) (v : Word) : b.writeWord v .status =
    { b with status := { b.status with estk := b.status.estk && !v.getLsbD 8 } } := by
  unfold Block.writeWord
  cases hv : v.getLsbD 8 with
  | true => simp [Block.clearSticky]
  | false => simp

/-- Settles O9: the word is put together of the fields, and 0x4 is the address of STATUS. -/
theorem statusReadsItsFieldsAndClearsOnlyEstk : Obligations.StatusReadsItsFieldsAndClearsOnlyEstk := by
  unfold Obligations.StatusReadsItsFieldsAndClearsOnlyEstk
  refine ⟨⟨rfl, rfl, rfl, rfl, rfl⟩, fun b => b.status.word_fields, fun s v rest h => ?_⟩
  rw [step_wr4 (l := .status) rfl (by decide) h, Block.writeWord_status]

/-! ## The words of a NODE entry (R38) -/

section
variable (e : NodeEntry)

theorem toNat_nodeWord_zero : (nodeWord e 0).toNat = e.leaf.toNat + 2 ^ 8 * e.sym.toNat := by
  have hword : nodeWord e 0 = (0 : BitVec 16) ++ e.sym ++ (0 : BitVec 7) ++ BitVec.ofBool e.leaf := rfl
  rw [hword]
  simp only [toNat_append_eq, BitVec.toNat_ofBool, BitVec.ofNat_eq_ofNat, BitVec.toNat_ofNat]
  omega

theorem toNat_nodeWord_one : (nodeWord e 1).toNat = e.freq.toNat % 2 ^ 32 := by
  have hword : nodeWord e 1 = e.freq.extractLsb' 0 32 := rfl
  rw [hword, BitVec.extractLsb'_toNat, Nat.shiftRight_zero]

theorem toNat_nodeWord_two : (nodeWord e 2).toNat = e.freq.toNat / 2 ^ 32 := by
  have hword : nodeWord e 2 = (0 : BitVec 24) ++ e.freq.extractLsb' 32 8 := rfl
  rw [hword, toNat_append_eq, BitVec.extractLsb'_toNat, Nat.shiftRight_eq_div_pow]
  simp only [BitVec.ofNat_eq_ofNat, BitVec.toNat_ofNat]
  omega

theorem toNat_nodeWord_three : (nodeWord e 3).toNat = e.left.toNat + 2 ^ 16 * e.right.toNat := by
  have hword : nodeWord e 3 = (0 : BitVec 7) ++ e.right ++ (0 : BitVec 7) ++ e.left := rfl
  rw [hword]
  simp only [toNat_append_eq, BitVec.ofNat_eq_ofNat, BitVec.toNat_ofNat]
  omega

end

/-- Settles O12: each word as a number. -/
theorem nodeViewsShowTheEntry : Obligations.NodeViewsShowTheEntry := by
  unfold Obligations.NodeViewsShowTheEntry
  exact fun b k => ⟨toNat_nodeWord_zero _, toNat_nodeWord_one _, toNat_nodeWord_two _, toNat_nodeWord_three _⟩

/-! ## Reserved bits (R68) -/

theorem nodeWord_reserved (e : NodeEntry) : (nodeWord e 0).toNat < 2 ^ 16 ∧ (nodeWord e 0).extractLsb' 1 7 = 0 ∧
    (nodeWord e 2).toNat < 2 ^ 8 ∧ (nodeWord e 3).toNat < 2 ^ 25 ∧ (nodeWord e 3).extractLsb' 9 7 = 0 := by
  have hleaf := Bool.toNat_lt e.leaf
  refine ⟨?leafSym, BitVec.eq_of_toNat_eq ?betweenLeafAndSym, ?freq, ?children, BitVec.eq_of_toNat_eq ?betweenChildren⟩
  case leafSym =>
    rw [toNat_nodeWord_zero]
    omega
  case betweenLeafAndSym =>
    rw [BitVec.extractLsb'_toNat, toNat_nodeWord_zero, Nat.shiftRight_eq_div_pow]
    exact (by omega : (e.leaf.toNat + 2 ^ 8 * e.sym.toNat) / 2 ^ 1 % 2 ^ 7 = 0)
  case freq =>
    rw [toNat_nodeWord_two]
    omega
  case children =>
    rw [toNat_nodeWord_three]
    omega
  case betweenChildren =>
    rw [BitVec.extractLsb'_toNat, toNat_nodeWord_three, Nat.shiftRight_eq_div_pow]
    exact (by omega : (e.left.toNat + 2 ^ 16 * e.right.toNat) / 2 ^ 9 % 2 ^ 7 = 0)

/-- A field of a register that is read after it is written keeps the low bits of the word (R68). -/
theorem toNat_setWidth_extractLsb' (v : Word) {n : Nat} (h : n ≤ 32) :
    ((v.extractLsb' 0 n).setWidth 32).toNat = v.toNat % 2 ^ n := by
  rw [BitVec.toNat_setWidth_of_le h, BitVec.extractLsb'_toNat, Nat.shiftRight_zero]

theorem toNat_setWidth_word_lt {n : Nat} (v : BitVec n) (h : n ≤ 32) : (v.setWidth 32).toNat < 2 ^ n :=
  (BitVec.toNat_setWidth_of_le h).trans_lt v.isLt

/-- Settles O10: a word is smaller than the first reserved bit above its fields, and a write keeps the field only. -/
theorem reservedBitsReadZeroAndIgnoreWrites : Obligations.ReservedBitsReadZeroAndIgnoreWrites := by
  unfold Obligations.ReservedBitsReadZeroAndIgnoreWrites
  intro b v
  refine ⟨b.status.toNat_word_lt, toNat_setWidth_word_lt _ (by decide), toNat_setWidth_word_lt _ (by decide),
    toNat_setWidth_word_lt _ (by decide), toNat_setWidth_word_lt _ (by decide), toNat_setWidth_word_lt _ (by decide),
    toNat_setWidth_word_lt _ (by decide), fun x => toNat_setWidth_word_lt _ (by decide), fun k => nodeWord_reserved _,
    toNat_setWidth_extractLsb' v (by decide), toNat_setWidth_extractLsb' v (by decide), fun hv => ?_⟩
  rw [Block.writeWord_status, hv, Bool.not_false, Bool.and_true]

/-! ## The views of a code (R37) -/

/-- Bit `i` of a word of CBITS is the bit of the code that the rule places there. -/
theorem getLsbD_codeWord (c : Bits) (j : BitVec 3) {i : Nat} (hi : i < 32) :
    (codeWord c j).getLsbD i = c.getD (32 * j.toNat + i) false := by
  rw [codeWord, wordOfBits, BitVec.getLsbD_ofNat, testBit_natOfBits, decide_eq_true hi, Bool.true_and,
    List.getD_eq_getElem?_getD, List.getElem?_take_of_lt hi, List.getElem?_drop, List.getD_eq_getElem?_getD]

/-- Settles O11: a length of at most 255 fits its eight bits, and the words of CBITS are the code cut at every 32 bits. -/
theorem codeViewsShowTheCode : Obligations.CodeViewsShowTheCode := by
  unfold Obligations.CodeViewsShowTheCode
  intro b hb x
  have hlen : (b.codeOf x).length ≤ 255 := hb x
  refine ⟨(BitVec.toNat_setWidth_of_le (by decide)).trans ?_, fun j i => getLsbD_codeWord _ j⟩
  rw [BitVec.toNat_ofNat]
  omega

/-! ## A read after a write (R71, R76) -/

section
variable (b : Block) (v : Word) (y : Byte)

/-- A 4-byte write leaves what every other word reads as, STATUS apart. -/
theorem Block.readWord_writeWord_of_ne {l l' : WordLoc} (hne : l' ≠ l) (hs : l' ≠ .status) :
    (b.writeWord v l).readWord l' = b.readWord l' := by
  cases l
  case status =>
    rw [Block.writeWord_status]
    cases l'
    case status => exact absurd rfl hs
    all_goals rfl
  case inLen | lWin | lLook => cases l' <;> first | contradiction | rfl
  case freq x =>
    cases l'
    case status => exact absurd rfl hs
    case freq z => exact (tableGet_tableSet _ _ _ _).trans (if_neg fun h => hne (by rw [h]))
    all_goals rfl
  all_goals rfl

theorem Block.readByte_writeWord (l : WordLoc) (l' : ByteLoc) : (b.writeWord v l).readByte l' = b.readByte l' := by
  obtain ⟨-, hinput, hcoded, -, -, hresets⟩ := b.writeWord_memories_and_code v l
  cases l'
  case input => simp only [Block.readByte, Block.inputAt, hinput, hresets]
  case coded => simp only [Block.readByte, Block.codedAt, hcoded, hresets]

/-- A write of IN leaves every other byte. -/
theorem Block.readByte_writeByte_of_ne {k : Nat} {l : ByteLoc} (hne : l ≠ .input k) :
    (b.writeByte y (.input k)).readByte l = b.readByte l := by
  cases l
  case input k' => exact (b.inputAt_write k k' y).trans (if_neg fun h => hne (by rw [h]))
  case coded => rfl

/-- A write of IN leaves every word, STATUS apart. -/
theorem Block.readWord_writeByte_of_ne {l' : ByteLoc} {l : WordLoc} (hs : l ≠ .status) :
    (b.writeByte y l').readWord l = b.readWord l := by
  cases l'
  case input =>
    cases l
    case status => exact absurd rfl hs
    all_goals rfl
  case coded => rfl

end

/-- Settles O14: the written location holds the value, and a read of any other location but STATUS looks at other fields
or at other entries. -/
theorem writtenLocationsReadBack : Obligations.WrittenLocationsReadBack := by
  unfold Obligations.WrittenLocationsReadBack
  intro b v y
  refine ⟨fun k => ⟨?input, fun l => b.readByte_writeByte_of_ne y, fun l => b.readWord_writeByte_of_ne y⟩,
    fun x => ⟨tableGet_tableSet_self _ _ _, fun l => b.readWord_writeWord_of_ne v⟩,
    ⟨rfl, fun l => b.readWord_writeWord_of_ne v⟩,
    ⟨toNat_setWidth_extractLsb' v (by decide), fun l => b.readWord_writeWord_of_ne v⟩,
    ⟨toNat_setWidth_extractLsb' v (by decide), fun l => b.readWord_writeWord_of_ne v⟩, b.readByte_writeWord v⟩
  case input => exact (b.inputAt_write k k y).trans (if_pos rfl)

end Sys2Proof.Machine
end
